-- ==== Sys2Proof/Word.lean ====
section
/-! DEFINITION. The two word types of the CORE's ports. -/

namespace Sys2Proof

/-- The operation word carried on port OPW (30_encoding.md R80, 10_state.md R32). -/
abbrev Word := BitVec 32

/-- A value on one of the 128-bit ports A, B, RES, RES_HI (10_state.md R32, R33). -/
abbrev Port := BitVec 128

end Sys2Proof
end

