-- ==== Sys2Proof/Syntax.lean ====
section
/-! DEFINITION. The operations of the CORE: one constructor per row of spec/opcode_table.json (30_encoding.md R81), with the
selectors its operation word carries. Operands are not part of an operation: they arrive on ports (R89). -/

namespace Sys2Proof

/-- Float formats (30_encoding.md R82, 43_fp_datapath.md R200). -/
inductive Fmt where
  | h   -- binary16, code 0
  | s   -- binary32, code 1
  | d   -- binary64, code 2
  deriving DecidableEq, Repr

/-- Integer widths (30_encoding.md R84). -/
inductive Width where
  | w8
  | w16
  | w32
  | w64
  | w128
  deriving DecidableEq, Repr

/-- Signedness of an integer type (30_encoding.md R85): SGN = 0 and SGN = 1. -/
inductive Sgn where
  | unsigned
  | signed
  deriving DecidableEq, Repr

/-- The operations. `w` is the integer width IW, `g` the signedness SGN, `f` the float format FMT. -/
inductive Instr where
  -- integer engine (40_int_arith.md, 41_int_shift_scan.md, 42_int_compare_convert.md)
  | iadd  (w : Width) (g : Sgn)
  | isub  (w : Width) (g : Sgn)
  | imul  (w : Width) (g : Sgn)
  | idiv  (w : Width) (g : Sgn)
  | irem  (w : Width) (g : Sgn)
  | ineg  (w : Width) (g : Sgn)
  | iinc  (w : Width) (g : Sgn)
  | idec  (w : Width) (g : Sgn)
  | ilnot (w : Width) (g : Sgn)
  | inot  (w : Width) (g : Sgn)
  | ibool (w : Width) (g : Sgn)
  | ishl  (w : Width) (g : Sgn)
  | ishr  (w : Width) (g : Sgn)
  | ieq   (w : Width) (g : Sgn)
  | ine   (w : Width) (g : Sgn)
  | ilt   (w : Width) (g : Sgn)
  | ile   (w : Width) (g : Sgn)
  | igt   (w : Width) (g : Sgn)
  | ige   (w : Width) (g : Sgn)
  | iadc  (w : Width) (g : Sgn)
  | isbb  (w : Width) (g : Sgn)
  | imulx (w : Width) (g : Sgn)
  | ibsr  (w : Width) (g : Sgn)
  /-- ICVT: from width `w` (IW) of signedness `g` to width `w2` (IW2). -/
  | icvt  (w : Width) (g : Sgn) (w2 : Width)
  -- float engine, one format (43_fp_datapath.md to 46_fp_div.md, 48_fp_compare.md)
  | fclass  (f : Fmt)
  | fmkzero (f : Fmt)
  | fmkinf  (f : Fmt)
  | fmknan  (f : Fmt)
  | fmksub  (f : Fmt)
  | fmknorm (f : Fmt)
  | fneg (f : Fmt)
  | fadd (f : Fmt)
  | fsub (f : Fmt)
  | fmul (f : Fmt)
  | fdiv (f : Fmt)
  -- conversions (47_fp_convert.md)
  /-- FCVT.F.F: from format `f` (FMT) to format `f2` (FMT2). -/
  | fcvtFF (f : Fmt) (f2 : Fmt)
  /-- FCVT.F.I: from an integer of width `w` and signedness `g` to format `f`. -/
  | fcvtFI (f : Fmt) (w : Width) (g : Sgn)
  /-- FCVT.I.F: from format `f` to an integer of width `w` and signedness `g`. -/
  | fcvtIF (f : Fmt) (w : Width) (g : Sgn)
  | feq (f : Fmt)
  | fne (f : Fmt)
  | flt (f : Fmt)
  | fle (f : Fmt)
  | fgt (f : Fmt)
  | fge (f : Fmt)
  deriving DecidableEq, Repr

end Sys2Proof
end

