-- ==== Sys2Proof/WellFormed.lean ====
section
/-! DEFINITION. Which operations have a legal operation word. The reserved codes (FMT = 3, FMT2 = 3, IW and IW2 5 to 7) name no
term of `Instr`, so the one check left is the width of an integer-engine operation. -/

namespace Sys2Proof

/-- The integer engine works on at least 2 bytes: 8 bits is no engine width (30_encoding.md R84, 00_scope.md R4). -/
def Width.isEngine : Width → Bool
  | .w8 => false
  | .w16 => true
  | .w32 => true
  | .w64 => true
  | .w128 => true

/-- An operation is well formed when some operation word names it (30_encoding.md R84, R87). -/
def Instr.wellFormed : Instr → Bool
  | .iadd w _ => w.isEngine
  | .isub w _ => w.isEngine
  | .imul w _ => w.isEngine
  | .idiv w _ => w.isEngine
  | .irem w _ => w.isEngine
  | .ineg w _ => w.isEngine
  | .iinc w _ => w.isEngine
  | .idec w _ => w.isEngine
  | .ilnot w _ => w.isEngine
  | .inot w _ => w.isEngine
  | .ibool w _ => w.isEngine
  | .ishl w _ => w.isEngine
  | .ishr w _ => w.isEngine
  | .ieq w _ => w.isEngine
  | .ine w _ => w.isEngine
  | .ilt w _ => w.isEngine
  | .ile w _ => w.isEngine
  | .igt w _ => w.isEngine
  | .ige w _ => w.isEngine
  | .iadc w _ => w.isEngine
  | .isbb w _ => w.isEngine
  | .imulx w _ => w.isEngine
  | .ibsr w _ => w.isEngine
  | .icvt _ _ _ => true
  | .fclass _ => true
  | .fmkzero _ => true
  | .fmkinf _ => true
  | .fmknan _ => true
  | .fmksub _ => true
  | .fmknorm _ => true
  | .fneg _ => true
  | .fadd _ => true
  | .fsub _ => true
  | .fmul _ => true
  | .fdiv _ => true
  | .fcvtFF _ _ => true
  | .fcvtFI _ _ _ => true
  | .fcvtIF _ _ _ => true
  | .feq _ => true
  | .fne _ => true
  | .flt _ => true
  | .fle _ => true
  | .fgt _ => true
  | .fge _ => true

end Sys2Proof
end

