-- ==== Sys2Proof/Decode.lean ====
section
/-! DEFINITION. The operation word (30_encoding.md): decoding, total on every 32-bit word, and the encoder. -/

namespace Sys2Proof

/-! ### The fields of the word (R80) -/

def opField (w : Word) : BitVec 8 := w.extractLsb' 0 8
def fmtField (w : Word) : BitVec 2 := w.extractLsb' 8 2
def fmt2Field (w : Word) : BitVec 2 := w.extractLsb' 10 2
def iwField (w : Word) : BitVec 3 := w.extractLsb' 12 3
def sgnField (w : Word) : BitVec 1 := w.extractLsb' 15 1
def iw2Field (w : Word) : BitVec 3 := w.extractLsb' 16 3

/-- FMT and FMT2 coding (R82, R83): code 3 is reserved. -/
def fmtOfCode : BitVec 2 → Option Fmt
  | 0#2 => some .h
  | 1#2 => some .s
  | 2#2 => some .d
  | _ => none

/-- IW and IW2 coding (R84): codes 5 to 7 are reserved. -/
def widthOfCode : BitVec 3 → Option Width
  | 0#3 => some .w8
  | 1#3 => some .w16
  | 2#3 => some .w32
  | 3#3 => some .w64
  | 4#3 => some .w128
  | _ => none

/-- IW of an integer-engine operation: codes 1 to 4 (R84). -/
def engineWidthOfCode (c : BitVec 3) : Option Width :=
  match widthOfCode c with
  | some w => if w.isEngine then some w else none
  | none => none

/-- SGN coding (R85). -/
def sgnOfCode (c : BitVec 1) : Sgn :=
  if c = 1#1 then .signed else .unsigned

/-! ### Operation codes (R81) -/

/-- The integer-engine operations, OP 0x01 to 0x17. -/
def engineOp : BitVec 8 → Option (Width → Sgn → Instr)
  | 0x01#8 => some .iadd
  | 0x02#8 => some .isub
  | 0x03#8 => some .imul
  | 0x04#8 => some .idiv
  | 0x05#8 => some .irem
  | 0x06#8 => some .ineg
  | 0x07#8 => some .iinc
  | 0x08#8 => some .idec
  | 0x09#8 => some .ilnot
  | 0x0A#8 => some .inot
  | 0x0B#8 => some .ibool
  | 0x0C#8 => some .ishl
  | 0x0D#8 => some .ishr
  | 0x0E#8 => some .ieq
  | 0x0F#8 => some .ine
  | 0x10#8 => some .ilt
  | 0x11#8 => some .ile
  | 0x12#8 => some .igt
  | 0x13#8 => some .ige
  | 0x14#8 => some .iadc
  | 0x15#8 => some .isbb
  | 0x16#8 => some .imulx
  | 0x17#8 => some .ibsr
  | _ => none

/-- The float operations of one format, OP 0x40 to 0x4A and 0x4E to 0x53. -/
def floatOp : BitVec 8 → Option (Fmt → Instr)
  | 0x40#8 => some .fclass
  | 0x41#8 => some .fmkzero
  | 0x42#8 => some .fmkinf
  | 0x43#8 => some .fmknan
  | 0x44#8 => some .fmksub
  | 0x45#8 => some .fmknorm
  | 0x46#8 => some .fneg
  | 0x47#8 => some .fadd
  | 0x48#8 => some .fsub
  | 0x49#8 => some .fmul
  | 0x4A#8 => some .fdiv
  | 0x4E#8 => some .feq
  | 0x4F#8 => some .fne
  | 0x50#8 => some .flt
  | 0x51#8 => some .fle
  | 0x52#8 => some .fgt
  | 0x53#8 => some .fge
  | _ => none

/-- The two float-integer converters, OP 0x4C and 0x4D. -/
def convertOp : BitVec 8 → Option (Fmt → Width → Sgn → Instr)
  | 0x4C#8 => some .fcvtFI
  | 0x4D#8 => some .fcvtIF
  | _ => none

/-- Which check of R88 an illegal word fails. Each of them raises ILLEGAL_OP (R90). -/
inductive DecodeError where
  /-- OP is not in the table of R81. -/
  | unlistedOp
  /-- A field that R87 marks 0, or a reserved bit, is not 0: `(OPW & mask) != match`. -/
  | unusedBits
  /-- FMT = 3. -/
  | reservedFmt
  /-- FMT2 = 3 in FCVT.F.F. -/
  | reservedFmt2
  /-- IW is no width of the operation. -/
  | illegalWidth
  /-- IW2 is no width of ICVT. -/
  | illegalWidth2
  deriving DecidableEq, Repr

/-- `(OPW & mask) = match`, where the match of every row is its OP in bits [7:0] (R87). -/
def matchesMask (w mask : Word) : Bool :=
  w &&& mask == (opField w).setWidth 32

/-- The masks of R87, by group. -/
def engineMask : Word := 0xFFFF0FFF#32
def icvtMask : Word := 0xFFF80FFF#32
def floatMask : Word := 0xFFFFFCFF#32
def fcvtFFMask : Word := 0xFFFFF0FF#32
def convertMask : Word := 0xFFFF0CFF#32

def decodeEngine (w : Word) (mk : Width → Sgn → Instr) : Except DecodeError Instr :=
  if matchesMask w engineMask then
    match engineWidthOfCode (iwField w) with
    | some n => .ok (mk n (sgnOfCode (sgnField w)))
    | none => .error .illegalWidth
  else .error .unusedBits

def decodeFloat (w : Word) (mk : Fmt → Instr) : Except DecodeError Instr :=
  if matchesMask w floatMask then
    match fmtOfCode (fmtField w) with
    | some f => .ok (mk f)
    | none => .error .reservedFmt
  else .error .unusedBits

def decodeConvert (w : Word) (mk : Fmt → Width → Sgn → Instr) : Except DecodeError Instr :=
  if matchesMask w convertMask then
    match fmtOfCode (fmtField w), widthOfCode (iwField w) with
    | none, _ => .error .reservedFmt
    | some _, none => .error .illegalWidth
    | some f, some n => .ok (mk f n (sgnOfCode (sgnField w)))
  else .error .unusedBits

def decodeIcvt (w : Word) : Except DecodeError Instr :=
  if matchesMask w icvtMask then
    match widthOfCode (iwField w), widthOfCode (iw2Field w) with
    | none, _ => .error .illegalWidth
    | some _, none => .error .illegalWidth2
    | some n, some n2 => .ok (.icvt n (sgnOfCode (sgnField w)) n2)
  else .error .unusedBits

def decodeFcvtFF (w : Word) : Except DecodeError Instr :=
  if matchesMask w fcvtFFMask then
    match fmtOfCode (fmtField w), fmtOfCode (fmt2Field w) with
    | none, _ => .error .reservedFmt
    | some _, none => .error .reservedFmt2
    | some f, some f2 => .ok (.fcvtFF f f2)
  else .error .unusedBits

/-- Decoding (R88), total on every 32-bit word. -/
def decode (w : Word) : Except DecodeError Instr :=
  match engineOp (opField w) with
  | some mk => decodeEngine w mk
  | none =>
    match floatOp (opField w) with
    | some mk => decodeFloat w mk
    | none =>
      match convertOp (opField w) with
      | some mk => decodeConvert w mk
      | none =>
        if opField w = 0x18#8 then decodeIcvt w
        else if opField w = 0x4B#8 then decodeFcvtFF w
        else .error .unlistedOp

/-! ### The encoder, from the tables of R80 to R85 -/

def fmtCode : Fmt → BitVec 2
  | .h => 0#2
  | .s => 1#2
  | .d => 2#2

def widthCode : Width → BitVec 3
  | .w8 => 0#3
  | .w16 => 1#3
  | .w32 => 2#3
  | .w64 => 3#3
  | .w128 => 4#3

def sgnCode : Sgn → BitVec 1
  | .unsigned => 0#1
  | .signed => 1#1

/-- The word with the given fields, reserved bits [31:19] = 0 (R80, R86). -/
def assemble (op : BitVec 8) (fmt fmt2 : BitVec 2) (iw : BitVec 3) (sgn : BitVec 1) (iw2 : BitVec 3) : Word :=
  0#13 ++ iw2 ++ sgn ++ iw ++ fmt2 ++ fmt ++ op

def engineWord (op : BitVec 8) (w : Width) (g : Sgn) : Word :=
  assemble op 0 0 (widthCode w) (sgnCode g) 0

def floatWord (op : BitVec 8) (f : Fmt) : Word :=
  assemble op (fmtCode f) 0 0 0 0

def convertWord (op : BitVec 8) (f : Fmt) (w : Width) (g : Sgn) : Word :=
  assemble op (fmtCode f) 0 (widthCode w) (sgnCode g) 0

/-- The operation word of an operation. -/
def encode : Instr → Word
  | .iadd w g => engineWord 0x01 w g
  | .isub w g => engineWord 0x02 w g
  | .imul w g => engineWord 0x03 w g
  | .idiv w g => engineWord 0x04 w g
  | .irem w g => engineWord 0x05 w g
  | .ineg w g => engineWord 0x06 w g
  | .iinc w g => engineWord 0x07 w g
  | .idec w g => engineWord 0x08 w g
  | .ilnot w g => engineWord 0x09 w g
  | .inot w g => engineWord 0x0A w g
  | .ibool w g => engineWord 0x0B w g
  | .ishl w g => engineWord 0x0C w g
  | .ishr w g => engineWord 0x0D w g
  | .ieq w g => engineWord 0x0E w g
  | .ine w g => engineWord 0x0F w g
  | .ilt w g => engineWord 0x10 w g
  | .ile w g => engineWord 0x11 w g
  | .igt w g => engineWord 0x12 w g
  | .ige w g => engineWord 0x13 w g
  | .iadc w g => engineWord 0x14 w g
  | .isbb w g => engineWord 0x15 w g
  | .imulx w g => engineWord 0x16 w g
  | .ibsr w g => engineWord 0x17 w g
  | .icvt w g w2 => assemble 0x18 0 0 (widthCode w) (sgnCode g) (widthCode w2)
  | .fclass f => floatWord 0x40 f
  | .fmkzero f => floatWord 0x41 f
  | .fmkinf f => floatWord 0x42 f
  | .fmknan f => floatWord 0x43 f
  | .fmksub f => floatWord 0x44 f
  | .fmknorm f => floatWord 0x45 f
  | .fneg f => floatWord 0x46 f
  | .fadd f => floatWord 0x47 f
  | .fsub f => floatWord 0x48 f
  | .fmul f => floatWord 0x49 f
  | .fdiv f => floatWord 0x4A f
  | .fcvtFF f f2 => assemble 0x4B (fmtCode f) (fmtCode f2) 0 0 0
  | .fcvtFI f w g => convertWord 0x4C f w g
  | .fcvtIF f w g => convertWord 0x4D f w g
  | .feq f => floatWord 0x4E f
  | .fne f => floatWord 0x4F f
  | .flt f => floatWord 0x50 f
  | .fle f => floatWord 0x51 f
  | .fgt f => floatWord 0x52 f
  | .fge f => floatWord 0x53 f

/-! ### The host's view of a word -/

/-- The word a request carries, given as its low `nbits` bits; every bit above is 0. Every operation word is one 32-bit
word (R80), so `nbits` is 32 for every row of the table. -/
def wordOfBits (nbits w : Nat) : Word := BitVec.ofNat 32 (w % 2 ^ nbits)

/-- The operation the decoder reads from a table word, none where it refuses the word. -/
def decodeTableWord (nbits w : Nat) : Option Instr :=
  match decode (wordOfBits nbits w) with
  | .ok i => some i
  | .error _ => none

end Sys2Proof
end

