-- ==== Sys2Proof/Machine/Format.lean ====
section
/-! DEFINITION. The sizes behind the selectors: integer widths (30_encoding.md R84) and float format parameters
(43_fp_datapath.md R200), and the types of a decomposed float (R203) and of a positive magnitude (R205). -/

namespace Sys2Proof

/-- N(IW) (30_encoding.md R84). -/
def Width.bits : Width → Nat
  | .w8 => 8
  | .w16 => 16
  | .w32 => 32
  | .w64 => 64
  | .w128 => 128

/-- W, the total width (R200). -/
def Fmt.W : Fmt → Nat
  | .h => 16
  | .s => 32
  | .d => 64

/-- E, the exponent-field width (R200). -/
def Fmt.E : Fmt → Nat
  | .h => 5
  | .s => 8
  | .d => 11

/-- S = W − E − 1, the trailing-significand width (R200). -/
def Fmt.S (f : Fmt) : Nat := f.W - f.E - 1

/-- B = 2^(E−1) − 1, the exponent bias (R200). -/
def Fmt.B (f : Fmt) : Nat := 2 ^ (f.E - 1) - 1

/-- emax = B (R200). -/
def Fmt.emax (f : Fmt) : Int := f.B

/-- emin = 1 − B (R200). -/
def Fmt.emin (f : Fmt) : Int := 1 - f.B

namespace Machine

/-- The classes of a float, in the document's order (R203, R226). -/
inductive FClass where
  | nan
  | infinity
  | zero
  | normal
  | subnormal
  deriving DecidableEq, Repr

/-- The decomposed form `(class, s, e, m)` of R203, transient inside one operation (10_state.md R41). -/
structure Decomposed where
  cls : FClass
  sign : Bool
  /-- The unbiased exponent; 0 for the classes that have none (93_implementation_defined.md I3, log 10). -/
  exp : Int
  sig : Nat
  deriving DecidableEq, Repr

/-- A positive rational magnitude, held exactly: `num / den × 2^exp` with `num` and `den` positive. -/
structure Magnitude where
  num : Nat
  den : Nat
  exp : Int
  deriving DecidableEq, Repr

end Machine
end Sys2Proof
end

