-- ==== Sys2Proof/Config.lean ====
section
/-! DEFINITION. What an implementation fixes: the one build parameter of the CORE. There is no free value: the spec
gives the result of every operation. -/

namespace Sys2Proof

/-- The build-time parameters (00_scope.md R12, 10_state.md R39). `emulateIntel` is EMULATE_INTEL: it selects the result of
a float-to-integer conversion that is out of range (47_fp_convert.md R322). It is fixed for the life of the hardware; the
model carries it in State so that both builds are covered (log 3). -/
structure Config where
  emulateIntel : Bool
  deriving DecidableEq, Repr

/-- The spec's default build: EMULATE_INTEL = true (00_scope.md R12, 92_eei_decisions.md D31). -/
def Config.default : Config := { emulateIntel := true }

/-- The other build: EMULATE_INTEL = false, the portable mode of 47_fp_convert.md R322. -/
def Config.portable : Config := { emulateIntel := false }

end Sys2Proof
end

