-- ==== Sys2Proof/Machine/State.lean ====
section
/-! DEFINITION. The state of the model, the reasons a step may stop, and reset. The CORE keeps no architectural state between
requests (10_state.md R30): what the model holds is its ports (R32, R33) and its build parameter (R39). -/

namespace Sys2Proof.Machine

/-- The ports of the CORE and its build parameter. -/
structure State where
  /-- OPW: the operation word of the request (R32). -/
  opw : Word
  /-- A: the first operand (R32). -/
  a : Port
  /-- B: the second operand (R32). -/
  b : Port
  /-- CIN: carry-in, borrow-in, or the sign a factory takes (R32). -/
  cin : Bool
  /-- RES: the primary result (R33). -/
  res : Port
  /-- RES_HI: the high half of IMULX's product, the metadata of FCLASS, else 0 (R33). -/
  resHi : Port
  /-- FLAG: carry-out, borrow-out, found, or a truth value, else 0 (R33, R38). -/
  flag : Bool
  /-- FAULT: 0, or the code of a fault (R33, 60_exceptions.md R360). -/
  fault : BitVec 3
  /-- The build parameter (00_scope.md R12), fixed for the life of the hardware. -/
  cfg : Config
  deriving DecidableEq, Repr

/-- What a response is made of: the four output ports (R33). -/
structure Response where
  res : Port
  resHi : Port
  flag : Bool
  fault : BitVec 3
  deriving DecidableEq, Repr

/-- The response that stands on the output ports. -/
def State.response (s : State) : Response :=
  { res := s.res, resHi := s.resHi, flag := s.flag, fault := s.fault }

/-- The fault codes of 60_exceptions.md R360. Codes 5 to 7 are never produced. -/
inductive FaultCode where
  | none
  | illegalOp
  | intDivZero
  | shiftRange
  | operandConstraint
  deriving DecidableEq, Repr

/-- Why a run of requests stops. No step and no meaning answers with it: a fault of the CORE is a response, so a next state
(60_exceptions.md R361, log 5). -/
inductive Fault where
  /-- Raised by `session` (Machine/Requester.lean) and `callCore` (Machine/Program.lean) only: a request of this requester was
  answered with this FAULT code, which is terminal for the requester (R361). Safe: the run stops where the spec forbids the
  requester to go on. -/
  | requestFaulted (code : BitVec 3)
  deriving DecidableEq, Repr

/-- Why a request is turned away. -/
inductive Refusal where
  /-- Raised by an arm of `exec` for an operation without a meaning yet. Safe: nothing is claimed of it. -/
  | notModelled (mnemonic : String)
  /-- Raised only by `present` (Machine/Requester.lean) and, for a branch, by `runStatement` (Machine/Program.lean): a value is read
  that the requester never assigned, and a model rejects the request before the CORE sees it (10_state.md R43, 60_exceptions.md
  R362). Safe: the spec gives it no response. -/
  | indeterminateOperand
  /-- Raised by `runStatement` (Machine/Program.lean) and what it calls only: the requester's program is not written in a form of
  30_encoding.md R92 to R94: a wrong number of operands or outputs, a jump to a label that is not there, or no statement to go on with. Safe: such a text
  is no program of the spec. -/
  | malformedProgram
  deriving DecidableEq, Repr

/-- The machine of build `c` right after reset. Reset initialises nothing (70_reset_and_hazards.md R390); the input ports and
the unspecified output ports (R44, R392) are given the value 0 (DESIGN CHOICE, log 1 and log 2: unsafe to rely on). -/
def State.resetOf (c : Config) : State :=
  { opw := 0, a := 0, b := 0, cin := false, res := 0, resHi := 0, flag := false, fault := 0, cfg := c }

/-- The machine right after reset, in the spec's default build: EMULATE_INTEL = true (R44). -/
def State.reset : State := State.resetOf Config.default

end Sys2Proof.Machine
end

