-- ==== Sys2Proof/Machine/Ops.lean ====
section
/-! DEFINITION. The shared operations: reading a bit pattern as a number (00_scope.md R15), writing a response
(10_state.md R33, R35), and raising a fault (60_exceptions.md R361). A fault is the only exception of the CORE; there is no return
from one (R366). -/

namespace Sys2Proof.Machine

/-! ### Patterns and numbers (00_scope.md R15) -/

/-- `uval_N(x)`. -/
def uval {n : Nat} (x : BitVec n) : Nat := x.toNat

/-- `sval_N(x)`, two's complement. -/
def sval {n : Nat} (x : BitVec n) : Int :=
  if x.getLsbD (n - 1) then (x.toNat : Int) - 2 ^ n else x.toNat

/-- The value of an integer of the given signedness. -/
def ival {n : Nat} (g : Sgn) (x : BitVec n) : Int :=
  match g with
  | .unsigned => (uval x : Int)
  | .signed => sval x

/-- The N-bit pattern of a number: `v mod 2^N` (R120). -/
def pattern (n : Nat) (v : Int) : BitVec n := BitVec.ofInt n v

/-- `zext_128` of an N-bit pattern (10_state.md R35). -/
def zextPort {n : Nat} (x : BitVec n) : Port := x.setWidth 128

/-- A truth value as an integer 0 or 1. -/
def truth (t : Bool) : Port := if t then 1 else 0

/-- The index of the highest set bit among the low `n` bits of `x`, 0-based; none when they are all 0
(41_int_shift_scan.md R163). -/
def highestSet : Nat → Nat → Option Nat
  | 0, _ => none
  | n + 1, x => if x.testBit n then some n else highestSet n x

/-! ### Responses -/

/-- The code on port FAULT (60_exceptions.md R360). -/
def faultCode : FaultCode → BitVec 3
  | .none => 0
  | .illegalOp => 1
  | .intDivZero => 2
  | .shiftRange => 3
  | .operandConstraint => 4

/-- A completed request: the output ports hold the result and FAULT is 0 (R361). The input ports and the build parameter are
left as they are (log 4). -/
def answer (res resHi : Port) (flag : Bool) (s : State) : State :=
  { s with res := res, resHi := resHi, flag := flag, fault := faultCode .none }

/-- Taking a fault: FAULT is the code, the other output ports are 0, and nothing else changes (R361). -/
def raise (c : FaultCode) (s : State) : State :=
  { s with res := 0, resHi := 0, flag := false, fault := faultCode c }

/-- An operation that writes an N-bit result to RES only (10_state.md R35). -/
def completeRes {n : Nat} (r : BitVec n) (s : State) : Host.Outcome State Fault Refusal :=
  .next (answer (zextPort r) 0 false s)

/-- An operation that writes RES and FLAG. -/
def completeResFlag {n : Nat} (r : BitVec n) (flag : Bool) (s : State) : Host.Outcome State Fault Refusal :=
  .next (answer (zextPort r) 0 flag s)

/-- An operation that writes RES and RES_HI. -/
def completeResHi {n m : Nat} (r : BitVec n) (hi : BitVec m) (s : State) : Host.Outcome State Fault Refusal :=
  .next (answer (zextPort r) (zextPort hi) false s)

/-- An operation that writes its truth value to RES and FLAG (42_int_compare_convert.md R180, 48_fp_compare.md R340). -/
def completeTruth (t : Bool) (s : State) : Host.Outcome State Fault Refusal :=
  .next (answer (truth t) 0 t s)

/-- A request that raises a fault ends in the fault response: a next state (R361, R365, log 5). -/
def completeFault (c : FaultCode) (s : State) : Host.Outcome State Fault Refusal :=
  .next (raise c s)

end Sys2Proof.Machine
end

