-- ==== Sys2Proof/Machine/FpDatapath.lean ====
section
/-! DEFINITION. The functions every float operation shares (43_fp_datapath.md): the packed form, decomposition, the constants, exact
rounding, and the sign unit. -/

namespace Sys2Proof.Machine

/-! ### Packed form (R201, R206) -/

/-- The packed form `{s, biased as E bits, trailing as S bits}` (R201). -/
def pack (f : Fmt) (s : Bool) (biased trailing : Nat) : BitVec f.W :=
  BitVec.ofNat f.W (s.toNat * 2 ^ (f.W - 1) + biased % 2 ^ f.E * 2 ^ f.S + trailing % 2 ^ f.S)

/-- `sign = x[W−1]`. -/
def signBit (f : Fmt) (x : BitVec f.W) : Bool := x.getLsbD (f.W - 1)

/-- `biased = x[W−2:S]`. -/
def biasedExp (f : Fmt) (x : BitVec f.W) : Nat := (x.extractLsb' f.S f.E).toNat

/-- `trailing = x[S−1:0]`. -/
def trailingSig (f : Fmt) (x : BitVec f.W) : Nat := (x.extractLsb' 0 f.S).toNat

/-- The all-ones exponent field, 2^E − 1. -/
def maxBiased (f : Fmt) : Nat := 2 ^ f.E - 1

/-- `Zero(F, s)` (R206). -/
def zeroF (f : Fmt) (s : Bool) : BitVec f.W := pack f s 0 0

/-- `Inf(F, s)` (R206). -/
def infF (f : Fmt) (s : Bool) : BitVec f.W := pack f s (maxBiased f) 0

/-- `IndNaN(F)` (R206, R221): sign 1, exponent all ones, the quiet bit. -/
def indNaN (f : Fmt) : BitVec f.W := pack f true (maxBiased f) (2 ^ (f.S - 1))

/-! ### Decomposition (R203) -/

/-- `Decompose(F, x)`. -/
def decompose (f : Fmt) (x : BitVec f.W) : Decomposed :=
  let s := signBit f x
  let be := biasedExp f x
  let t := trailingSig f x
  if be = 0 then
    if t = 0 then { cls := .zero, sign := s, exp := 0, sig := 0 }
    else { cls := .subnormal, sign := s, exp := f.emin, sig := t }
  else if be = maxBiased f then
    if t = 0 then { cls := .infinity, sign := s, exp := 0, sig := 0 }
    else { cls := .nan, sign := s, exp := 0, sig := t }
  else { cls := .normal, sign := s, exp := (be : Int) - f.B, sig := t ||| 1 <<< f.S }

def isNaN (f : Fmt) (x : BitVec f.W) : Bool := (decompose f x).cls == .nan
def isInf (f : Fmt) (x : BitVec f.W) : Bool := (decompose f x).cls == .infinity
def isZero (f : Fmt) (x : BitVec f.W) : Bool := (decompose f x).cls == .zero

/-- `|val(F, x)| = m × 2^(e − S)` of a Normal or Subnormal (R205). -/
def magnitudeOf (f : Fmt) (d : Decomposed) : Magnitude := { num := d.sig, den := 1, exp := d.exp - f.S }

/-! ### Exact rounding (R210, R211) -/

/-- `RNE(p / q)`: round to nearest, ties to even (R210). -/
def roundNearestEven (p q : Nat) : Nat :=
  let n := p / q
  let rest := p % q
  if q < 2 * rest then n + 1
  else if 2 * rest = q ∧ n % 2 = 1 then n + 1
  else n

/-- `p / q × 2^k ≥ 1`, without leaving the naturals. -/
def atLeastOne (p q : Nat) (k : Int) : Bool :=
  if 0 ≤ k then decide (q ≤ p * 2 ^ k.toNat) else decide (q * 2 ^ (-k).toNat ≤ p)

/-- The integer e with `2^e ≤ v < 2^(e+1)`, for a positive magnitude v (R211). -/
def floorLog2 (v : Magnitude) : Int :=
  let k : Int := (v.num.log2 : Int) - (v.den.log2 : Int)
  if atLeastOne v.num v.den (-k) then k + v.exp else k - 1 + v.exp

/-- `RNE(v × 2^d)`. -/
def roundScaled (v : Magnitude) (d : Int) : Nat :=
  let k := v.exp + d
  if 0 ≤ k then roundNearestEven (v.num * 2 ^ k.toNat) v.den
  else roundNearestEven v.num (v.den * 2 ^ (-k).toNat)

/-- `RoundPack(F, s, v)`: the exact rounding of a positive magnitude (R211), the definition of every rounded result (R216). -/
def roundPack (f : Fmt) (s : Bool) (v : Magnitude) : BitVec f.W :=
  let e1 := max (floorLog2 v) f.emin
  let n := roundScaled v (f.S - e1)
  let carried := n == 2 ^ (f.S + 1)
  let n' := if carried then 2 ^ f.S else n
  let e2 := if carried then e1 + 1 else e1
  if f.emax < e2 then infF f s
  else if 2 ^ f.S ≤ n' then pack f s (e2 + f.B).toNat (n' - 2 ^ f.S)
  else pack f s 0 n'

/-- `Recompose(F, s, e, m)`: bit S masked off, the exponent re-biased (R215). -/
def recompose (f : Fmt) (s : Bool) (e : Int) (m : Nat) : BitVec f.W := pack f s (e + f.B).toNat (m % 2 ^ f.S)

/-- The sign unit: bit W−1 flipped, whatever the class (R232). -/
def negateF (f : Fmt) (x : BitVec f.W) : BitVec f.W := x ^^^ BitVec.ofNat f.W (2 ^ (f.W - 1))

end Sys2Proof.Machine
end

