-- ==== Sys2Proof/Machine/Operands.lean ====
section
/-! DEFINITION. Every operand form of 30_encoding.md R89, read from the low bits of its port (10_state.md R34), and the table of
which ports each operation reads. -/

namespace Sys2Proof.Machine

/-- `a = A[N−1:0]`, the low N bits of port A. -/
def operandA (n : Nat) (s : State) : BitVec n := s.a.setWidth n

/-- `b = B[N−1:0]`, the low N bits of port B. -/
def operandB (n : Nat) (s : State) : BitVec n := s.b.setWidth n

/-- The shift amount `uval_N(B[N−1:0])` of ISHL and ISHR (41_int_shift_scan.md R160). -/
def shiftAmount (n : Nat) (s : State) : Nat := uval (operandB n s)

/-- The carry-in or borrow-in of IADC and ISBB. -/
def carryIn (s : State) : Bool := s.cin

/-- The sign input of FMKZERO, FMKINF, FMKSUB and FMKNORM. -/
def signIn (s : State) : Bool := s.cin

/-- The exponent operand of FMKNORM, `sval_32(B[31:0])`. -/
def exponentB (s : State) : Int := sval (operandB 32 s)

/-- How much of each input port an operation reads: the number of low bits of A and of B (0: the port is not read), and
whether it reads CIN. -/
structure PortUse where
  aBits : Nat
  bBits : Nat
  cin : Bool
  deriving DecidableEq, Repr

/-- The inputs of each operation, from the table of 30_encoding.md R89. -/
def portUse : Instr → PortUse
  | .iadd w _ => ⟨w.bits, w.bits, false⟩
  | .isub w _ => ⟨w.bits, w.bits, false⟩
  | .imul w _ => ⟨w.bits, w.bits, false⟩
  | .idiv w _ => ⟨w.bits, w.bits, false⟩
  | .irem w _ => ⟨w.bits, w.bits, false⟩
  | .ineg w _ => ⟨w.bits, 0, false⟩
  | .iinc w _ => ⟨w.bits, 0, false⟩
  | .idec w _ => ⟨w.bits, 0, false⟩
  | .ilnot w _ => ⟨w.bits, 0, false⟩
  | .inot w _ => ⟨w.bits, 0, false⟩
  | .ibool w _ => ⟨w.bits, 0, false⟩
  | .ishl w _ => ⟨w.bits, w.bits, false⟩
  | .ishr w _ => ⟨w.bits, w.bits, false⟩
  | .ieq w _ => ⟨w.bits, w.bits, false⟩
  | .ine w _ => ⟨w.bits, w.bits, false⟩
  | .ilt w _ => ⟨w.bits, w.bits, false⟩
  | .ile w _ => ⟨w.bits, w.bits, false⟩
  | .igt w _ => ⟨w.bits, w.bits, false⟩
  | .ige w _ => ⟨w.bits, w.bits, false⟩
  | .iadc w _ => ⟨w.bits, w.bits, true⟩
  | .isbb w _ => ⟨w.bits, w.bits, true⟩
  | .imulx w _ => ⟨w.bits, w.bits, false⟩
  | .ibsr w _ => ⟨w.bits, 0, false⟩
  | .icvt w _ _ => ⟨w.bits, 0, false⟩
  | .fclass f => ⟨f.W, 0, false⟩
  | .fmkzero _ => ⟨0, 0, true⟩
  | .fmkinf _ => ⟨0, 0, true⟩
  | .fmknan _ => ⟨0, 0, false⟩
  | .fmksub f => ⟨f.W, 0, true⟩
  | .fmknorm f => ⟨f.W, 32, true⟩
  | .fneg f => ⟨f.W, 0, false⟩
  | .fadd f => ⟨f.W, f.W, false⟩
  | .fsub f => ⟨f.W, f.W, false⟩
  | .fmul f => ⟨f.W, f.W, false⟩
  | .fdiv f => ⟨f.W, f.W, false⟩
  | .fcvtFF f _ => ⟨f.W, 0, false⟩
  | .fcvtFI _ w _ => ⟨w.bits, 0, false⟩
  | .fcvtIF f _ _ => ⟨f.W, 0, false⟩
  | .feq f => ⟨f.W, f.W, false⟩
  | .fne f => ⟨f.W, f.W, false⟩
  | .flt f => ⟨f.W, f.W, false⟩
  | .fle f => ⟨f.W, f.W, false⟩
  | .fgt f => ⟨f.W, f.W, false⟩
  | .fge f => ⟨f.W, f.W, false⟩

end Sys2Proof.Machine
end

