-- ==== Sys2Proof/Machine/FpArith.lean ====
section
/-! DEFINITION. FADD and FSUB (44_fp_addsub.md R240, R241), FMUL (45_fp_mul.md R270) and FDIV (46_fp_div.md R290): the special
cases in the document's order, then the exact result rounded once. -/

namespace Sys2Proof.Machine

/-! ### Special-case filters: the result when a special case applies, none when both operands are finite and not zero -/

/-- Steps 1 to 3 of addition (R240, R242). -/
def addFilter (f : Fmt) (x y : BitVec f.W) : Option (BitVec f.W) :=
  if isNaN f x then some x
  else if isNaN f y then some y
  else if isZero f x && isZero f y then
    some (if signBit f x != signBit f y then zeroF f false else x)
  else if isZero f x then some y
  else if isZero f y then some x
  else if isInf f x then
    some (if isInf f y && signBit f x != signBit f y then indNaN f else x)
  else if isInf f y then some y
  else none

/-- The sign of a product or a quotient. -/
def xorSign (f : Fmt) (x y : BitVec f.W) : Bool := signBit f x != signBit f y

/-- Steps 1 to 3 of multiplication (R270, R271). -/
def mulFilter (f : Fmt) (x y : BitVec f.W) : Option (BitVec f.W) :=
  if isNaN f x then some x
  else if isNaN f y then some y
  else if (isInf f x && isZero f y) || (isZero f x && isInf f y) then some (indNaN f)
  else if isInf f x || isInf f y then some (infF f (xorSign f x y))
  else if isZero f x || isZero f y then some (zeroF f (xorSign f x y))
  else none

/-- Steps 1 and 2 of division (R290, R291). -/
def divFilter (f : Fmt) (x y : BitVec f.W) : Option (BitVec f.W) :=
  if isNaN f x then some x
  else if isNaN f y then some y
  else if (isZero f x && isZero f y) || (isInf f x && isInf f y) then some (indNaN f)
  else if isZero f y then some (infF f (xorSign f x y))
  else if isZero f x then some (zeroF f (xorSign f x y))
  else if isInf f x then some (infF f (xorSign f x y))
  else if isInf f y then some (zeroF f (xorSign f x y))
  else none

/-! ### The exact results -/

/-- A significand with its sign. -/
def signedSig (d : Decomposed) : Int := if d.sign then -(d.sig : Int) else d.sig

/-- The exact sum of two finite values, in units of `2^(min e − S)`. -/
def exactSum (dx dy : Decomposed) : Int :=
  signedSig dx * 2 ^ (dx.exp - min dx.exp dy.exp).toNat + signedSig dy * 2 ^ (dy.exp - min dx.exp dy.exp).toNat

/-- The finite case of addition (R240): an exact sum of 0 is +0, any other is rounded with its own sign. -/
def addFinite (f : Fmt) (dx dy : Decomposed) : BitVec f.W :=
  let v := exactSum dx dy
  if v = 0 then zeroF f false
  else roundPack f (decide (v < 0)) { num := v.natAbs, den := 1, exp := min dx.exp dy.exp - f.S }

/-- The exact product of two finite magnitudes (R270). -/
def exactProduct (f : Fmt) (dx dy : Decomposed) : Magnitude :=
  { num := dx.sig * dy.sig, den := 1, exp := dx.exp + dy.exp - 2 * f.S }

/-- The exact quotient of two finite magnitudes (R290). -/
def exactQuotient (dx dy : Decomposed) : Magnitude :=
  { num := dx.sig, den := dy.sig, exp := dx.exp - dy.exp }

/-- FADD's result (R240). -/
def addF (f : Fmt) (x y : BitVec f.W) : BitVec f.W :=
  match addFilter f x y with
  | some r => r
  | none => addFinite f (decompose f x) (decompose f y)

/-- FSUB's result: addition of the negated right operand, NaN included (R241). -/
def subF (f : Fmt) (x y : BitVec f.W) : BitVec f.W := addF f x (negateF f y)

/-- FMUL's result (R270). -/
def mulF (f : Fmt) (x y : BitVec f.W) : BitVec f.W :=
  match mulFilter f x y with
  | some r => r
  | none => roundPack f (xorSign f x y) (exactProduct f (decompose f x) (decompose f y))

/-- FDIV's result (R290). -/
def divF (f : Fmt) (x y : BitVec f.W) : BitVec f.W :=
  match divFilter f x y with
  | some r => r
  | none => roundPack f (xorSign f x y) (exactQuotient (decompose f x) (decompose f y))

/-! ### The operations -/

/-- FADD (R240). -/
def execFadd (f : Fmt) (s : State) : Host.Outcome State Fault Refusal :=
  completeRes (addF f (operandA f.W s) (operandB f.W s)) s

/-- FSUB (R241). -/
def execFsub (f : Fmt) (s : State) : Host.Outcome State Fault Refusal :=
  completeRes (subF f (operandA f.W s) (operandB f.W s)) s

/-- FMUL (R270). -/
def execFmul (f : Fmt) (s : State) : Host.Outcome State Fault Refusal :=
  completeRes (mulF f (operandA f.W s) (operandB f.W s)) s

/-- FDIV (R290). -/
def execFdiv (f : Fmt) (s : State) : Host.Outcome State Fault Refusal :=
  completeRes (divF f (operandA f.W s) (operandB f.W s)) s

end Sys2Proof.Machine
end

