-- ==== Sys2Proof/Machine/FpBasic.lean ====
section
/-! DEFINITION. FCLASS, the five factories and FNEG (43_fp_datapath.md R226 to R232). -/

namespace Sys2Proof.Machine

/-- The class code of R226. -/
def classCode : FClass → BitVec 3
  | .nan => 0
  | .infinity => 1
  | .zero => 2
  | .normal => 3
  | .subnormal => 4

/-- The metadata word of FCLASS: `{exponent as 32 bits, 28 zero bits, sign, class as 3 bits}` (R226). The exponent of a
class without one is 0. -/
def classWord (d : Decomposed) : BitVec 64 :=
  pattern 32 d.exp ++ 0#28 ++ BitVec.ofBool d.sign ++ classCode d.cls

/-- FCLASS (R226). -/
def execFclass (f : Fmt) (s : State) : Host.Outcome State Fault Refusal :=
  let d := decompose f (operandA f.W s)
  completeResHi (BitVec.ofNat f.W d.sig) (classWord d) s

/-- FMKZERO (R227). -/
def execFmkzero (f : Fmt) (s : State) : Host.Outcome State Fault Refusal :=
  completeRes (zeroF f (signIn s)) s

/-- FMKINF (R228). -/
def execFmkinf (f : Fmt) (s : State) : Host.Outcome State Fault Refusal :=
  completeRes (infF f (signIn s)) s

/-- FMKNAN (R229). -/
def execFmknan (f : Fmt) (s : State) : Host.Outcome State Fault Refusal :=
  completeRes (indNaN f) s

/-- The precondition of FMKSUB (R230). -/
def subnormalSigOk (f : Fmt) (m : Nat) : Bool := decide (0 < m) && decide (m < 2 ^ f.S)

/-- FMKSUB (R230). -/
def execFmksub (f : Fmt) (s : State) : Host.Outcome State Fault Refusal :=
  let m := uval (operandA f.W s)
  if subnormalSigOk f m then completeRes (pack f (signIn s) 0 m) s
  else completeFault .operandConstraint s

/-- The precondition of FMKNORM (R231). -/
def normalPartsOk (f : Fmt) (e : Int) (m : Nat) : Bool :=
  decide (f.emin ≤ e) && decide (e ≤ f.emax) && decide (2 ^ f.S ≤ m) && decide (m < 2 ^ (f.S + 1))

/-- FMKNORM (R231). -/
def execFmknorm (f : Fmt) (s : State) : Host.Outcome State Fault Refusal :=
  let m := uval (operandA f.W s)
  let e := exponentB s
  if normalPartsOk f e m then completeRes (recompose f (signIn s) e m) s
  else completeFault .operandConstraint s

/-- FNEG (R232). -/
def execFneg (f : Fmt) (s : State) : Host.Outcome State Fault Refusal :=
  completeRes (negateF f (operandA f.W s)) s

end Sys2Proof.Machine
end

