-- ==== Sys2Proof/Machine/FpCompare.lean ====
section
/-! DEFINITION. Float comparisons (48_fp_compare.md R340 to R346). -/

namespace Sys2Proof.Machine

/-- `mag(x) = x[W−2:0]` as an unsigned integer (R340). -/
def magBits (f : Fmt) (x : BitVec f.W) : Nat := (x.extractLsb' 0 (f.W - 1)).toNat

/-- `Less(x, y)`, for operands that are not NaN and not both Zero (R340). -/
def lessF (f : Fmt) (x y : BitVec f.W) : Bool :=
  if signBit f x != signBit f y then signBit f x
  else if signBit f x then decide (magBits f y < magBits f x)
  else decide (magBits f x < magBits f y)

/-- R341. -/
def eqF (f : Fmt) (x y : BitVec f.W) : Bool :=
  if isNaN f x || isNaN f y then false
  else if isZero f x && isZero f y then true
  else decide (x = y)

/-- R343. -/
def ltF (f : Fmt) (x y : BitVec f.W) : Bool :=
  if isNaN f x || isNaN f y then false
  else if isZero f x && isZero f y then false
  else lessF f x y

/-- R344. -/
def leF (f : Fmt) (x y : BitVec f.W) : Bool :=
  if isNaN f x || isNaN f y then false
  else ltF f x y || eqF f x y

/-- FEQ (R341). -/
def execFeq (f : Fmt) (s : State) : Host.Outcome State Fault Refusal :=
  completeTruth (eqF f (operandA f.W s) (operandB f.W s)) s

/-- FNE (R342): the negation of FEQ, so 1 with a NaN operand. -/
def execFne (f : Fmt) (s : State) : Host.Outcome State Fault Refusal :=
  completeTruth (!eqF f (operandA f.W s) (operandB f.W s)) s

/-- FLT (R343). -/
def execFlt (f : Fmt) (s : State) : Host.Outcome State Fault Refusal :=
  completeTruth (ltF f (operandA f.W s) (operandB f.W s)) s

/-- FLE (R344). -/
def execFle (f : Fmt) (s : State) : Host.Outcome State Fault Refusal :=
  completeTruth (leF f (operandA f.W s) (operandB f.W s)) s

/-- FGT (R345): FLT with the operands swapped. -/
def execFgt (f : Fmt) (s : State) : Host.Outcome State Fault Refusal :=
  completeTruth (ltF f (operandB f.W s) (operandA f.W s)) s

/-- FGE (R346): FLE with the operands swapped. -/
def execFge (f : Fmt) (s : State) : Host.Outcome State Fault Refusal :=
  completeTruth (leF f (operandB f.W s) (operandA f.W s)) s

end Sys2Proof.Machine
end

