-- ==== Sys2Proof/Machine/FpConvert.lean ====
section
/-! DEFINITION. The converters (47_fp_convert.md): float to float, integer to float, float to integer. -/

namespace Sys2Proof.Machine

/-! ### Float to float (R310, R311) -/

/-- The trailing significand of a NaN taken to another format: shifted left when widening, shifted right when narrowing, and
the quiet bit where a narrowed payload would be 0 (R311). -/
def convertPayload (f g : Fmt) (t : Nat) : Nat :=
  if f.S < g.S then t * 2 ^ (g.S - f.S)
  else
    let t' := t / 2 ^ (f.S - g.S)
    if t' = 0 then 2 ^ (g.S - 1) else t'

/-- `NaNConvert(f, g, x)` (R311). -/
def convertNaN (f g : Fmt) (x : BitVec f.W) : BitVec g.W :=
  pack g (signBit f x) (maxBiased g) (convertPayload f g (trailingSig f x))

/-- FCVT.F.F's result (R310). A conversion to the same format returns the operand. -/
def convertFF (f g : Fmt) (x : BitVec f.W) : BitVec g.W :=
  if f = g then x.setWidth g.W
  else
    let d := decompose f x
    match d.cls with
    | .nan => convertNaN f g x
    | .infinity => infF g d.sign
    | .zero => zeroF g d.sign
    | .normal => roundPack g d.sign (magnitudeOf f d)
    | .subnormal => roundPack g d.sign (magnitudeOf f d)

/-! ### Integer to float (R315) -/

/-- FCVT.F.I's result: the integer's exact value rounded; 0 gives +0 (R315). -/
def convertFI (f : Fmt) (v : Int) : BitVec f.W :=
  if v = 0 then zeroF f false
  else roundPack f (decide (v < 0)) { num := v.natAbs, den := 1, exp := 0 }

/-! ### Float to integer (R320, R322) -/

/-- Why a conversion has no integer result (R322). -/
inductive SentinelKind where
  | nan
  | below
  | above
  deriving DecidableEq, Repr

/-- The smallest value of the integer type (R320). -/
def intMin (w : Width) (g : Sgn) : Int :=
  match g with
  | .signed => -2 ^ (w.bits - 1)
  | .unsigned => 0

/-- The largest value of the integer type (R320). -/
def intMax (w : Width) (g : Sgn) : Int :=
  match g with
  | .signed => 2 ^ (w.bits - 1) - 1
  | .unsigned => 2 ^ w.bits - 1

/-- The sentinel of the Intel-emulation mode, the same for all three kinds (R322). -/
def intelSentinel (w : Width) (g : Sgn) : Int :=
  match w, g with
  | .w8, _ => 0
  | .w16, _ => 0
  | .w32, .unsigned => 0
  | .w32, .signed => 2 ^ (w.bits - 1)
  | .w64, _ => 2 ^ (w.bits - 1)
  | .w128, _ => 2 ^ (w.bits - 1)

/-- The sentinel of the portable mode (R322). -/
def portableSentinel (w : Width) (g : Sgn) (kind : SentinelKind) : Int :=
  match kind with
  | .nan => 0
  | .below => intMin w g
  | .above => intMax w g

/-- `Sentinel(kind)`, as the build parameter selects it (R322). -/
def sentinel (c : Config) (w : Width) (g : Sgn) (kind : SentinelKind) : BitVec w.bits :=
  pattern w.bits (if c.emulateIntel then intelSentinel w g else portableSentinel w g kind)

/-- `trunc(|val(F, x)|)` of a finite value (R320). -/
def truncMagnitude (f : Fmt) (d : Decomposed) : Nat :=
  let k := d.exp - f.S
  if 0 ≤ k then d.sig * 2 ^ k.toNat else d.sig / 2 ^ (-k).toNat

/-- The range test of R320 on the exact truncated value. -/
def rangeTest (c : Config) (w : Width) (g : Sgn) (t : Int) : BitVec w.bits :=
  if t < intMin w g then sentinel c w g .below
  else if intMax w g < t then sentinel c w g .above
  else pattern w.bits t

/-- FCVT.I.F's result (R320). -/
def convertIF (c : Config) (f : Fmt) (w : Width) (g : Sgn) (x : BitVec f.W) : BitVec w.bits :=
  let d := decompose f x
  let t : Int := truncMagnitude f d
  match d.cls with
  | .nan => sentinel c w g .nan
  | .infinity => sentinel c w g (if d.sign then .below else .above)
  | .zero => pattern w.bits 0
  | .normal => rangeTest c w g (if d.sign then -t else t)
  | .subnormal => rangeTest c w g (if d.sign then -t else t)

/-! ### The operations -/

/-- FCVT.F.F (R310). -/
def execFcvtFF (f f2 : Fmt) (s : State) : Host.Outcome State Fault Refusal :=
  completeRes (convertFF f f2 (operandA f.W s)) s

/-- FCVT.F.I (R315). -/
def execFcvtFI (f : Fmt) (w : Width) (g : Sgn) (s : State) : Host.Outcome State Fault Refusal :=
  completeRes (convertFI f (ival g (operandA w.bits s))) s

/-- FCVT.I.F (R320). -/
def execFcvtIF (f : Fmt) (w : Width) (g : Sgn) (s : State) : Host.Outcome State Fault Refusal :=
  completeRes (convertIF s.cfg f w g (operandA f.W s)) s

end Sys2Proof.Machine
end

