-- ==== Sys2Proof/Machine/Flags.lean ====
section
/-! DEFINITION. Every computation of the FLAG port (10_state.md R33): carry-out, borrow-out, found, and the truth values of ILNOT
and IBOOL. A comparison's truth value is its result (`completeTruth`). Every other operation leaves FLAG 0 (R35). -/

namespace Sys2Proof.Machine

/-- The carry out of `a + b + c` at N bits (40_int_arith.md R133). -/
def carryFlag {n : Nat} (a b : BitVec n) (c : Bool) : Bool := decide (2 ^ n ≤ uval a + uval b + c.toNat)

/-- The borrow out of `a − b − c` at N bits (40_int_arith.md R134). -/
def borrowFlag {n : Nat} (a b : BitVec n) (c : Bool) : Bool :=
  decide ((uval a : Int) - uval b - c.toNat < 0)

/-- The found bit of IBSR (41_int_shift_scan.md R163). -/
def foundFlag {n : Nat} (a : BitVec n) : Bool := (highestSet n (uval a)).isSome

/-- The truth value of ILNOT (40_int_arith.md R130). -/
def isZeroFlag {n : Nat} (a : BitVec n) : Bool := decide (uval a = 0)

/-- The truth value of IBOOL (40_int_arith.md R132). -/
def isNonzeroFlag {n : Nat} (a : BitVec n) : Bool := decide (uval a ≠ 0)

end Sys2Proof.Machine
end

