-- ==== Sys2Proof/Machine/IntArith.lean ====
section
/-! DEFINITION. Integer add, subtract, multiply, divide and the unary operations (40_int_arith.md R120 to R135). Operands are
turned into numbers, the result is computed exactly and its N-bit pattern is written. -/

namespace Sys2Proof.Machine

/-! ### The results, on N-bit patterns -/

/-- R122. -/
def addMod {n : Nat} (a b : BitVec n) : BitVec n := pattern n (uval a + uval b)

/-- R123. -/
def subMod {n : Nat} (a b : BitVec n) : BitVec n := pattern n ((uval a : Int) - uval b)

/-- R124. -/
def mulMod {n : Nat} (a b : BitVec n) : BitVec n := pattern n (uval a * uval b)

/-- The quotient of R125, as a number: the floor of the quotient of the magnitudes, negated when the signs differ. -/
def quotient {n : Nat} (g : Sgn) (a b : BitVec n) : Int :=
  match g with
  | .unsigned => (uval a / uval b : Nat)
  | .signed =>
    let x := sval a
    let y := sval b
    let q : Int := (x.natAbs / y.natAbs : Nat)
    if (decide (x < 0)) != (decide (y < 0)) then -q else q

/-- The remainder of R126, as a number: it matches the quotient. -/
def remainder {n : Nat} (g : Sgn) (a b : BitVec n) : Int :=
  ival g a - quotient g a b * ival g b

/-- R127. -/
def negMod {n : Nat} (a : BitVec n) : BitVec n := pattern n (2 ^ n - uval a)

/-- R128. -/
def incMod {n : Nat} (a : BitVec n) : BitVec n := pattern n (uval a + 1)

/-- R129. -/
def decMod {n : Nat} (a : BitVec n) : BitVec n := pattern n ((uval a : Int) - 1)

/-- R131: the N-bit complement. -/
def complement {n : Nat} (a : BitVec n) : BitVec n := ~~~a

/-- The sum of R133. -/
def addCarry {n : Nat} (a b : BitVec n) (c : Bool) : BitVec n := pattern n (uval a + uval b + c.toNat)

/-- The difference of R134. -/
def subBorrow {n : Nat} (a b : BitVec n) (c : Bool) : BitVec n := pattern n ((uval a : Int) - uval b - c.toNat)

/-- The 2N-bit product of R135. -/
def mulExtended {n : Nat} (g : Sgn) (a b : BitVec n) : BitVec (2 * n) := pattern (2 * n) (ival g a * ival g b)

/-! ### The operations -/

/-- IADD (R122). -/
def execIadd (w : Width) (_g : Sgn) (s : State) : Host.Outcome State Fault Refusal :=
  completeRes (addMod (operandA w.bits s) (operandB w.bits s)) s

/-- ISUB (R123). -/
def execIsub (w : Width) (_g : Sgn) (s : State) : Host.Outcome State Fault Refusal :=
  completeRes (subMod (operandA w.bits s) (operandB w.bits s)) s

/-- IMUL (R124). -/
def execImul (w : Width) (_g : Sgn) (s : State) : Host.Outcome State Fault Refusal :=
  completeRes (mulMod (operandA w.bits s) (operandB w.bits s)) s

/-- IDIV (R125). -/
def execIdiv (w : Width) (g : Sgn) (s : State) : Host.Outcome State Fault Refusal :=
  if uval (operandB w.bits s) = 0 then completeFault .intDivZero s
  else completeRes (pattern w.bits (quotient g (operandA w.bits s) (operandB w.bits s))) s

/-- IREM (R126). -/
def execIrem (w : Width) (g : Sgn) (s : State) : Host.Outcome State Fault Refusal :=
  if uval (operandB w.bits s) = 0 then completeFault .intDivZero s
  else completeRes (pattern w.bits (remainder g (operandA w.bits s) (operandB w.bits s))) s

/-- INEG (R127). -/
def execIneg (w : Width) (_g : Sgn) (s : State) : Host.Outcome State Fault Refusal :=
  completeRes (negMod (operandA w.bits s)) s

/-- IINC (R128). -/
def execIinc (w : Width) (_g : Sgn) (s : State) : Host.Outcome State Fault Refusal :=
  completeRes (incMod (operandA w.bits s)) s

/-- IDEC (R129). -/
def execIdec (w : Width) (_g : Sgn) (s : State) : Host.Outcome State Fault Refusal :=
  completeRes (decMod (operandA w.bits s)) s

/-- ILNOT (R130). -/
def execIlnot (w : Width) (_g : Sgn) (s : State) : Host.Outcome State Fault Refusal :=
  completeTruth (isZeroFlag (operandA w.bits s)) s

/-- INOT (R131). -/
def execInot (w : Width) (_g : Sgn) (s : State) : Host.Outcome State Fault Refusal :=
  completeRes (complement (operandA w.bits s)) s

/-- IBOOL (R132). -/
def execIbool (w : Width) (_g : Sgn) (s : State) : Host.Outcome State Fault Refusal :=
  completeTruth (isNonzeroFlag (operandA w.bits s)) s

/-- IADC (R133). -/
def execIadc (w : Width) (_g : Sgn) (s : State) : Host.Outcome State Fault Refusal :=
  completeResFlag (addCarry (operandA w.bits s) (operandB w.bits s) (carryIn s))
    (carryFlag (operandA w.bits s) (operandB w.bits s) (carryIn s)) s

/-- ISBB (R134). -/
def execIsbb (w : Width) (_g : Sgn) (s : State) : Host.Outcome State Fault Refusal :=
  completeResFlag (subBorrow (operandA w.bits s) (operandB w.bits s) (carryIn s))
    (borrowFlag (operandA w.bits s) (operandB w.bits s) (carryIn s)) s

/-- IMULX (R135): the low half of the product to RES, the high half to RES_HI. -/
def execImulx (w : Width) (g : Sgn) (s : State) : Host.Outcome State Fault Refusal :=
  let p := mulExtended g (operandA w.bits s) (operandB w.bits s)
  completeResHi (p.extractLsb' 0 w.bits) (p.extractLsb' w.bits w.bits) s

end Sys2Proof.Machine
end

