-- ==== Sys2Proof/Machine/IntCompare.lean ====
section
/-! DEFINITION. Integer comparisons and width conversion (42_int_compare_convert.md R180 to R187). -/

namespace Sys2Proof.Machine

/-- R181. -/
def intEq {n : Nat} (a b : BitVec n) : Bool := decide (a = b)

/-- R183: the operands are read with the type's signedness (R180). -/
def intLt {n : Nat} (g : Sgn) (a b : BitVec n) : Bool := decide (ival g a < ival g b)

/-- R184. -/
def intLe {n : Nat} (g : Sgn) (a b : BitVec n) : Bool := decide (ival g a ≤ ival g b)

/-- R187: widening extends by the source type's signedness, narrowing keeps the low bits. -/
def convertWidth {n : Nat} (g : Sgn) (a : BitVec n) (n2 : Nat) : BitVec n2 :=
  if n ≤ n2 then
    match g with
    | .signed => a.signExtend n2
    | .unsigned => a.setWidth n2
  else a.extractLsb' 0 n2

/-- IEQ (R181). -/
def execIeq (w : Width) (_g : Sgn) (s : State) : Host.Outcome State Fault Refusal :=
  completeTruth (intEq (operandA w.bits s) (operandB w.bits s)) s

/-- INE (R182). -/
def execIne (w : Width) (_g : Sgn) (s : State) : Host.Outcome State Fault Refusal :=
  completeTruth (!intEq (operandA w.bits s) (operandB w.bits s)) s

/-- ILT (R183). -/
def execIlt (w : Width) (g : Sgn) (s : State) : Host.Outcome State Fault Refusal :=
  completeTruth (intLt g (operandA w.bits s) (operandB w.bits s)) s

/-- ILE (R184). -/
def execIle (w : Width) (g : Sgn) (s : State) : Host.Outcome State Fault Refusal :=
  completeTruth (intLe g (operandA w.bits s) (operandB w.bits s)) s

/-- IGT (R185). -/
def execIgt (w : Width) (g : Sgn) (s : State) : Host.Outcome State Fault Refusal :=
  completeTruth (intLt g (operandB w.bits s) (operandA w.bits s)) s

/-- IGE (R186). -/
def execIge (w : Width) (g : Sgn) (s : State) : Host.Outcome State Fault Refusal :=
  completeTruth (intLe g (operandB w.bits s) (operandA w.bits s)) s

/-- ICVT (R187). -/
def execIcvt (w : Width) (g : Sgn) (w2 : Width) (s : State) : Host.Outcome State Fault Refusal :=
  completeRes (convertWidth g (operandA w.bits s) w2.bits) s

end Sys2Proof.Machine
end

