-- ==== Sys2Proof/Machine/IntShift.lean ====
section
/-! DEFINITION. Integer shifts and bit-scan (41_int_shift_scan.md R160 to R163). -/

namespace Sys2Proof.Machine

/-- The result of ISHL for a legal amount (R161). -/
def shiftLeft {n : Nat} (a : BitVec n) (k : Nat) : BitVec n := pattern n (uval a * 2 ^ k : Nat)

/-- The result of ISHR for a legal amount (R162): the floor of the quotient by 2^k of the value read with the type's
signedness, so zero-filling when unsigned and sign-filling when signed. -/
def shiftRight {n : Nat} (g : Sgn) (a : BitVec n) (k : Nat) : BitVec n := pattern n (ival g a / 2 ^ k)

/-- The index IBSR returns (R163): the highest set bit, 0 for a zero input. -/
def bitScan {n : Nat} (a : BitVec n) : Nat := (highestSet n (uval a)).getD 0

/-- ISHL (R160, R161). -/
def execIshl (w : Width) (_g : Sgn) (s : State) : Host.Outcome State Fault Refusal :=
  if w.bits ≤ shiftAmount w.bits s then completeFault .shiftRange s
  else completeRes (shiftLeft (operandA w.bits s) (shiftAmount w.bits s)) s

/-- ISHR (R160, R162). -/
def execIshr (w : Width) (g : Sgn) (s : State) : Host.Outcome State Fault Refusal :=
  if w.bits ≤ shiftAmount w.bits s then completeFault .shiftRange s
  else completeRes (shiftRight g (operandA w.bits s) (shiftAmount w.bits s)) s

/-- IBSR (R163). -/
def execIbsr (w : Width) (_g : Sgn) (s : State) : Host.Outcome State Fault Refusal :=
  completeResFlag (pattern 128 (bitScan (operandA w.bits s))) (foundFlag (operandA w.bits s)) s

end Sys2Proof.Machine
end

