-- ==== Sys2Proof/Machine/Dispatch.lean ====
section
/-! DEFINITION. One arm per operation: the meaning of each (30_encoding.md R81). -/

namespace Sys2Proof.Machine

def exec (i : Instr) (s : State) : Host.Outcome State Fault Refusal :=
  match i with
  | .iadd w g => Sys2Proof.Machine.execIadd w g s
  | .isub w g => Sys2Proof.Machine.execIsub w g s
  | .imul w g => Sys2Proof.Machine.execImul w g s
  | .idiv w g => Sys2Proof.Machine.execIdiv w g s
  | .irem w g => Sys2Proof.Machine.execIrem w g s
  | .ineg w g => Sys2Proof.Machine.execIneg w g s
  | .iinc w g => Sys2Proof.Machine.execIinc w g s
  | .idec w g => Sys2Proof.Machine.execIdec w g s
  | .ilnot w g => Sys2Proof.Machine.execIlnot w g s
  | .inot w g => Sys2Proof.Machine.execInot w g s
  | .ibool w g => Sys2Proof.Machine.execIbool w g s
  | .ishl w g => Sys2Proof.Machine.execIshl w g s
  | .ishr w g => Sys2Proof.Machine.execIshr w g s
  | .ieq w g => Sys2Proof.Machine.execIeq w g s
  | .ine w g => Sys2Proof.Machine.execIne w g s
  | .ilt w g => Sys2Proof.Machine.execIlt w g s
  | .ile w g => Sys2Proof.Machine.execIle w g s
  | .igt w g => Sys2Proof.Machine.execIgt w g s
  | .ige w g => Sys2Proof.Machine.execIge w g s
  | .iadc w g => Sys2Proof.Machine.execIadc w g s
  | .isbb w g => Sys2Proof.Machine.execIsbb w g s
  | .imulx w g => Sys2Proof.Machine.execImulx w g s
  | .ibsr w g => Sys2Proof.Machine.execIbsr w g s
  | .icvt w g w2 => Sys2Proof.Machine.execIcvt w g w2 s
  | .fclass f => Sys2Proof.Machine.execFclass f s
  | .fmkzero f => Sys2Proof.Machine.execFmkzero f s
  | .fmkinf f => Sys2Proof.Machine.execFmkinf f s
  | .fmknan f => Sys2Proof.Machine.execFmknan f s
  | .fmksub f => Sys2Proof.Machine.execFmksub f s
  | .fmknorm f => Sys2Proof.Machine.execFmknorm f s
  | .fneg f => Sys2Proof.Machine.execFneg f s
  | .fadd f => Sys2Proof.Machine.execFadd f s
  | .fsub f => Sys2Proof.Machine.execFsub f s
  | .fmul f => Sys2Proof.Machine.execFmul f s
  | .fdiv f => Sys2Proof.Machine.execFdiv f s
  | .fcvtFF f f2 => Sys2Proof.Machine.execFcvtFF f f2 s
  | .fcvtFI f w g => Sys2Proof.Machine.execFcvtFI f w g s
  | .fcvtIF f w g => Sys2Proof.Machine.execFcvtIF f w g s
  | .feq f => Sys2Proof.Machine.execFeq f s
  | .fne f => Sys2Proof.Machine.execFne f s
  | .flt f => Sys2Proof.Machine.execFlt f s
  | .fle f => Sys2Proof.Machine.execFle f s
  | .fgt f => Sys2Proof.Machine.execFgt f s
  | .fge f => Sys2Proof.Machine.execFge f s

end Sys2Proof.Machine
end

