-- ==== Sys2Proof/Machine/Step.lean ====
section
/-! DEFINITION. One step of the CORE: the request on the input ports is decoded, performed, and answered (10_state.md R31). -/

namespace Sys2Proof.Machine

/-- The CORE performs the request on its input ports. An illegal operation word raises ILLEGAL_OP before any operand is read
(60_exceptions.md R362). -/
def step (s : State) : Host.Outcome State Fault Refusal :=
  match decode s.opw with
  | .ok i => exec i s
  | .error _ => completeFault .illegalOp s

/-- The CORE fetches nothing: the operation word arrives on OPW with each request (10_state.md R37, log 6). -/
def State.withFetchWord (s : State) (nbits w : Nat) : State := { s with opw := wordOfBits nbits w }

end Sys2Proof.Machine
end

