-- ==== Sys2Proof/Machine/Assembler.lean ====
section
/-! DEFINITION. How operations are written (30_encoding.md R92), and the document's operator forms (R94), each of which is one request:
its operation, its operands in their order, the name it assigns and the value of the form. -/

namespace Sys2Proof.Machine

/-- The suffix of a float type (R82). -/
def fmtSuffix : Fmt → String
  | .h => "H"
  | .s => "S"
  | .d => "D"

/-- The number of bits, as R92 writes it. -/
def widthSuffix : Width → String
  | .w8 => "8"
  | .w16 => "16"
  | .w32 => "32"
  | .w64 => "64"
  | .w128 => "128"

/-- The name of an integer type: U8, I8, ... U128, I128 (R92). -/
def intSuffix (w : Width) (g : Sgn) : String :=
  match g with
  | .unsigned => "U" ++ widthSuffix w
  | .signed => "I" ++ widthSuffix w

/-- `MNEMONIC.<types>` of an operation (R92). -/
def spelling : Instr → String
  | .iadd w g => "IADD." ++ intSuffix w g
  | .isub w g => "ISUB." ++ intSuffix w g
  | .imul w g => "IMUL." ++ intSuffix w g
  | .idiv w g => "IDIV." ++ intSuffix w g
  | .irem w g => "IREM." ++ intSuffix w g
  | .ineg w g => "INEG." ++ intSuffix w g
  | .iinc w g => "IINC." ++ intSuffix w g
  | .idec w g => "IDEC." ++ intSuffix w g
  | .ilnot w g => "ILNOT." ++ intSuffix w g
  | .inot w g => "INOT." ++ intSuffix w g
  | .ibool w g => "IBOOL." ++ intSuffix w g
  | .ishl w g => "ISHL." ++ intSuffix w g
  | .ishr w g => "ISHR." ++ intSuffix w g
  | .ieq w g => "IEQ." ++ intSuffix w g
  | .ine w g => "INE." ++ intSuffix w g
  | .ilt w g => "ILT." ++ intSuffix w g
  | .ile w g => "ILE." ++ intSuffix w g
  | .igt w g => "IGT." ++ intSuffix w g
  | .ige w g => "IGE." ++ intSuffix w g
  | .iadc w g => "IADC." ++ intSuffix w g
  | .isbb w g => "ISBB." ++ intSuffix w g
  | .imulx w g => "IMULX." ++ intSuffix w g
  | .ibsr w g => "IBSR." ++ intSuffix w g
  | .icvt w g w2 => "ICVT." ++ widthSuffix w2 ++ "." ++ intSuffix w g
  | .fclass f => "FCLASS." ++ fmtSuffix f
  | .fmkzero f => "FMKZERO." ++ fmtSuffix f
  | .fmkinf f => "FMKINF." ++ fmtSuffix f
  | .fmknan f => "FMKNAN." ++ fmtSuffix f
  | .fmksub f => "FMKSUB." ++ fmtSuffix f
  | .fmknorm f => "FMKNORM." ++ fmtSuffix f
  | .fneg f => "FNEG." ++ fmtSuffix f
  | .fadd f => "FADD." ++ fmtSuffix f
  | .fsub f => "FSUB." ++ fmtSuffix f
  | .fmul f => "FMUL." ++ fmtSuffix f
  | .fdiv f => "FDIV." ++ fmtSuffix f
  | .fcvtFF f f2 => "FCVT." ++ fmtSuffix f2 ++ "." ++ fmtSuffix f
  | .fcvtFI f w g => "FCVT." ++ fmtSuffix f ++ "." ++ intSuffix w g
  | .fcvtIF f w g => "FCVT." ++ intSuffix w g ++ "." ++ fmtSuffix f
  | .feq f => "FEQ." ++ fmtSuffix f
  | .fne f => "FNE." ++ fmtSuffix f
  | .flt f => "FLT." ++ fmtSuffix f
  | .fle f => "FLE." ++ fmtSuffix f
  | .fgt f => "FGT." ++ fmtSuffix f
  | .fge f => "FGE." ++ fmtSuffix f

/-- An operand: a name bound earlier, or a literal the requester puts on the port (R92). -/
inductive Arg where
  | name (n : String)
  | literal (v : Port)
  deriving DecidableEq, Repr

/-- The integer type of a pseudo-form. -/
structure IntType where
  w : Width
  g : Sgn
  deriving DecidableEq, Repr

/-- The pseudo-forms of R94, with what they are written with. An assigned `a` is a name; every other operand is a name or a
literal. -/
inductive Pseudo where
  -- compound assignment on integers: a += b, -=, *=, /=, %=, and a <<= n, a >>= n
  | intAddAssign (t : IntType) (a : String) (b : Arg)
  | intSubAssign (t : IntType) (a : String) (b : Arg)
  | intMulAssign (t : IntType) (a : String) (b : Arg)
  | intDivAssign (t : IntType) (a : String) (b : Arg)
  | intRemAssign (t : IntType) (a : String) (b : Arg)
  | intShlAssign (t : IntType) (a : String) (b : Arg)
  | intShrAssign (t : IntType) (a : String) (b : Arg)
  -- ++a, a++, --a, a--
  | preIncrement (t : IntType) (a : String)
  | postIncrement (t : IntType) (a : String)
  | preDecrement (t : IntType) (a : String)
  | postDecrement (t : IntType) (a : String)
  -- unary - ~ ! and bool( ) on integers
  | intNeg (t : IntType) (a : Arg)
  | intNot (t : IntType) (a : Arg)
  | intLogicalNot (t : IntType) (a : Arg)
  | toBool (t : IntType) (a : Arg)
  -- + - * / and unary - on floats
  | floatAdd (f : Fmt) (a b : Arg)
  | floatSub (f : Fmt) (a b : Arg)
  | floatMul (f : Fmt) (a b : Arg)
  | floatDiv (f : Fmt) (a b : Arg)
  | floatNeg (f : Fmt) (a : Arg)
  -- += -= *= /= on floats
  | floatAddAssign (f : Fmt) (a : String) (b : Arg)
  | floatSubAssign (f : Fmt) (a : String) (b : Arg)
  | floatMulAssign (f : Fmt) (a : String) (b : Arg)
  | floatDivAssign (f : Fmt) (a : String) (b : Arg)
  -- == != < <= > >= on integers and on floats
  | intEq (t : IntType) (a b : Arg)
  | intNe (t : IntType) (a b : Arg)
  | intLt (t : IntType) (a b : Arg)
  | intLe (t : IntType) (a b : Arg)
  | intGt (t : IntType) (a b : Arg)
  | intGe (t : IntType) (a b : Arg)
  | floatEq (f : Fmt) (a b : Arg)
  | floatNe (f : Fmt) (a b : Arg)
  | floatLt (f : Fmt) (a b : Arg)
  | floatLe (f : Fmt) (a b : Arg)
  | floatGt (f : Fmt) (a b : Arg)
  | floatGe (f : Fmt) (a b : Arg)
  -- conversions and construction
  | floatToInt (t : IntType) (f : Fmt) (x : Arg)
  | intToFloat (f : Fmt) (t : IntType) (n : Arg)
  | floatToFloat (source result : Fmt) (x : Arg)
  | intToInt (source : IntType) (result : Width) (a : Arg)
  -- factories, with their parameters in the order R94 writes them
  | zero (f : Fmt) (sign : Arg)
  | infinity (f : Fmt) (sign : Arg)
  | indeterminateNaN (f : Fmt)
  | subnormal (f : Fmt) (sign sig : Arg)
  | normal (f : Fmt) (sign unbiasedExp sigWithImplicit : Arg)
  deriving DecidableEq, Repr

/-- The value of a pseudo-form, for a requester that goes on to use it. -/
inductive FormValue where
  /-- RES of its request. -/
  | result
  /-- What the name held before the request. -/
  | old (a : String)
  deriving DecidableEq, Repr

/-- What a pseudo-form stands for: one request, with its operands in the order of R92, the name that RES is assigned to if there is
one, and the value of the form. -/
structure Expansion where
  op : Instr
  args : List Arg
  assigns : Option String
  value : FormValue
  deriving DecidableEq, Repr

/-- A form without an assignment: its value is the result. -/
def plainForm (op : Instr) (args : List Arg) : Expansion := { op := op, args := args, assigns := none, value := .result }

/-- `a = OP a, b`. R94 gives another value than the result for the postfix forms only (DEDUCED, log 18). -/
def assignForm (op : Instr) (a : String) (b : Arg) : Expansion :=
  { op := op, args := [.name a, b], assigns := some a, value := .result }

/-- `a = OP a`, of the given value. -/
def stepForm (op : Instr) (a : String) (value : FormValue) : Expansion :=
  { op := op, args := [.name a], assigns := some a, value := value }

/-- The one request a pseudo-form expands to (R94). `normal` is written sign, exponent, significand and FMKNORM sign, significand,
exponent (R92). -/
def expand : Pseudo → Expansion
  | .intAddAssign t a b => assignForm (.iadd t.w t.g) a b
  | .intSubAssign t a b => assignForm (.isub t.w t.g) a b
  | .intMulAssign t a b => assignForm (.imul t.w t.g) a b
  | .intDivAssign t a b => assignForm (.idiv t.w t.g) a b
  | .intRemAssign t a b => assignForm (.irem t.w t.g) a b
  | .intShlAssign t a b => assignForm (.ishl t.w t.g) a b
  | .intShrAssign t a b => assignForm (.ishr t.w t.g) a b
  | .preIncrement t a => stepForm (.iinc t.w t.g) a .result
  | .postIncrement t a => stepForm (.iinc t.w t.g) a (.old a)
  | .preDecrement t a => stepForm (.idec t.w t.g) a .result
  | .postDecrement t a => stepForm (.idec t.w t.g) a (.old a)
  | .intNeg t a => plainForm (.ineg t.w t.g) [a]
  | .intNot t a => plainForm (.inot t.w t.g) [a]
  | .intLogicalNot t a => plainForm (.ilnot t.w t.g) [a]
  | .toBool t a => plainForm (.ibool t.w t.g) [a]
  | .floatAdd f a b => plainForm (.fadd f) [a, b]
  | .floatSub f a b => plainForm (.fsub f) [a, b]
  | .floatMul f a b => plainForm (.fmul f) [a, b]
  | .floatDiv f a b => plainForm (.fdiv f) [a, b]
  | .floatNeg f a => plainForm (.fneg f) [a]
  | .floatAddAssign f a b => assignForm (.fadd f) a b
  | .floatSubAssign f a b => assignForm (.fsub f) a b
  | .floatMulAssign f a b => assignForm (.fmul f) a b
  | .floatDivAssign f a b => assignForm (.fdiv f) a b
  | .intEq t a b => plainForm (.ieq t.w t.g) [a, b]
  | .intNe t a b => plainForm (.ine t.w t.g) [a, b]
  | .intLt t a b => plainForm (.ilt t.w t.g) [a, b]
  | .intLe t a b => plainForm (.ile t.w t.g) [a, b]
  | .intGt t a b => plainForm (.igt t.w t.g) [a, b]
  | .intGe t a b => plainForm (.ige t.w t.g) [a, b]
  | .floatEq f a b => plainForm (.feq f) [a, b]
  | .floatNe f a b => plainForm (.fne f) [a, b]
  | .floatLt f a b => plainForm (.flt f) [a, b]
  | .floatLe f a b => plainForm (.fle f) [a, b]
  | .floatGt f a b => plainForm (.fgt f) [a, b]
  | .floatGe f a b => plainForm (.fge f) [a, b]
  | .floatToInt t f x => plainForm (.fcvtIF f t.w t.g) [x]
  | .intToFloat f t n => plainForm (.fcvtFI f t.w t.g) [n]
  | .floatToFloat source result x => plainForm (.fcvtFF source result) [x]
  | .intToInt source result a => plainForm (.icvt source.w source.g result) [a]
  | .zero f sign => plainForm (.fmkzero f) [sign]
  | .infinity f sign => plainForm (.fmkinf f) [sign]
  | .indeterminateNaN f => plainForm (.fmknan f) []
  | .subnormal f sign sig => plainForm (.fmksub f) [sign, sig]
  | .normal f sign unbiasedExp sigWithImplicit => plainForm (.fmknorm f) [sign, sigWithImplicit, unbiasedExp]

end Sys2Proof.Machine
end

