-- ==== Sys2Proof/Machine/Bytes.lean ====
section
/-! DEFINITION. How a requester views a value as bytes: little-endian, byte k holds bits [8k+7:8k] (20_memory.md R61). The CORE has no
memory (R60): no operation uses these. -/

namespace Sys2Proof.Machine

/-- The first `n` bytes of a port value, lowest address first (R61). -/
def bytesOf (n : Nat) (x : Port) : List (BitVec 8) := (List.range n).map fun k => x.extractLsb' (8 * k) 8

/-- The value whose bytes, lowest address first, are the given ones (R61). -/
def ofBytes : List (BitVec 8) → Nat
  | [] => 0
  | b :: bs => b.toNat + 256 * ofBytes bs

end Sys2Proof.Machine
end

