-- ==== Sys2Proof/Machine/WideInt.lean ====
section
/-! DEFINITION. The multi-limb datapath of the integer engine: a WideInt is two half-limbs of a smaller WideInt, down to one byte
(40_int_arith.md R121, R136 to R138; 41_int_shift_scan.md R164; 42_int_compare_convert.md R188). The operations of `exec` are
stated on whole N-bit values; these are the structures the rules say must give the same patterns. The recursion always goes down
to one byte: where it stops is a compile-time choice that changes no result (R121). -/

namespace Sys2Proof.Machine

/-! ### Limbs (R121) -/

/-- The width of a WideInt of depth `k`: one byte at depth 0, two half-limbs above. Depths 1 to 4 are 16 to 128 bits. -/
def limbBits : Nat → Nat
  | 0 => 8
  | k + 1 => limbBits k + limbBits k

/-- `a.hi = a[N−1:N/2]`. -/
def limbHi {k : Nat} (a : BitVec (limbBits (k + 1))) : BitVec (limbBits k) := a.extractLsb' (limbBits k) (limbBits k)

/-- `a.lo = a[N/2−1:0]`. -/
def limbLo {k : Nat} (a : BitVec (limbBits (k + 1))) : BitVec (limbBits k) := a.extractLsb' 0 (limbBits k)

/-- `{hi, lo}`. -/
def limbJoin {k : Nat} (hi lo : BitVec (limbBits k)) : BitVec (limbBits (k + 1)) := hi ++ lo

/-! ### Adder and subtractor (R133, R134, R136) -/

/-- `add_carry` on limbs: the carry of the lower limb goes into the upper one. -/
def limbAddCarry : (k : Nat) → BitVec (limbBits k) → BitVec (limbBits k) → Bool → BitVec (limbBits k) × Bool
  | 0, a, b, c => (addCarry a b c, carryFlag a b c)
  | k + 1, a, b, c =>
    let (lo, c1) := limbAddCarry k (limbLo a) (limbLo b) c
    let (hi, c2) := limbAddCarry k (limbHi a) (limbHi b) c1
    (limbJoin hi lo, c2)

/-- `sub_borrow` on limbs. -/
def limbSubBorrow : (k : Nat) → BitVec (limbBits k) → BitVec (limbBits k) → Bool → BitVec (limbBits k) × Bool
  | 0, a, b, c => (subBorrow a b c, borrowFlag a b c)
  | k + 1, a, b, c =>
    let (lo, c1) := limbSubBorrow k (limbLo a) (limbLo b) c
    let (hi, c2) := limbSubBorrow k (limbHi a) (limbHi b) c1
    (limbJoin hi lo, c2)

/-- IADD on limbs: the carry out of the upper limb is discarded (R122, R136). -/
def limbAdd (k : Nat) (a b : BitVec (limbBits k)) : BitVec (limbBits k) := (limbAddCarry k a b false).1

/-- ISUB on limbs (R123, R136). -/
def limbSub (k : Nat) (a b : BitVec (limbBits k)) : BitVec (limbBits k) := (limbSubBorrow k a b false).1

/-- INEG on limbs, in the form that agrees with two's complement: `(~hi + [lo = 0], −lo)` (R127, 90_conflicts.md C11). -/
def limbNeg : (k : Nat) → BitVec (limbBits k) → BitVec (limbBits k)
  | 0, a => negMod a
  | k + 1, a =>
    limbJoin (limbAddCarry k (complement (limbHi a)) 0 (isZeroFlag (limbLo a))).1 (limbNeg k (limbLo a))

/-- `to bool`: true iff any limb is non-zero (R132). -/
def limbNonzero : (k : Nat) → BitVec (limbBits k) → Bool
  | 0, a => isNonzeroFlag a
  | k + 1, a => limbNonzero k (limbHi a) || limbNonzero k (limbLo a)

/-! ### Multiplier (R137) -/

/-- The unsigned 2N-bit product as the aligned sum of the four half-products. -/
def limbMulExtended : (k : Nat) → BitVec (limbBits k) → BitVec (limbBits k) → BitVec (limbBits (k + 1))
  | 0, a, b => pattern 16 (uval a * uval b)
  | k + 1, a, b =>
    let n := limbBits (k + 2)
    let h := limbBits k
    let ll := (limbMulExtended k (limbLo a) (limbLo b)).setWidth n
    let lh := (limbMulExtended k (limbLo a) (limbHi b)).setWidth n
    let hl := (limbMulExtended k (limbHi a) (limbLo b)).setWidth n
    let hh := (limbMulExtended k (limbHi a) (limbHi b)).setWidth n
    ll + (lh <<< h) + (hl <<< h) + (hh <<< (h + h))

/-- IMUL on limbs: the low N bits of the aligned sum. -/
def limbMul (k : Nat) (a b : BitVec (limbBits k)) : BitVec (limbBits k) := limbLo (limbMulExtended k a b)

/-- The magnitude of a signed value, by limb negation. -/
def limbAbs (k : Nat) (a : BitVec (limbBits k)) : BitVec (limbBits k) :=
  if a.getLsbD (limbBits k - 1) then limbNeg k a else a

/-- Whether the signs of two values differ. -/
def limbSignsDiffer (k : Nat) (a b : BitVec (limbBits k)) : Bool :=
  a.getLsbD (limbBits k - 1) != b.getLsbD (limbBits k - 1)

/-- The signed 2N-bit product: that of the magnitudes, negated when the input signs differ (R135). -/
def limbMulExtendedSigned (k : Nat) (a b : BitVec (limbBits k)) : BitVec (limbBits (k + 1)) :=
  let p := limbMulExtended k (limbAbs k a) (limbAbs k b)
  if limbSignsDiffer k a b then limbNeg (k + 1) p else p

/-! ### Divider (R138) -/

/-- Bit-by-bit restoring long division of an `n`-bit dividend, most significant bit first: each step shifts the partial
remainder left by one, brings in the next dividend bit, and subtracts the divisor when it fits, setting that quotient bit. -/
def restoringDivide : Nat → Nat → Nat → Nat × Nat
  | 0, _, _ => (0, 0)
  | n + 1, a, d =>
    let (q, r) := restoringDivide n (a / 2) d
    let r' := 2 * r + a % 2
    if d ≤ r' then (2 * q + 1, r' - d) else (2 * q, r')

/-- The quotient of the divider; signed division divides the magnitudes and negates when the signs differ (R125, R138). -/
def limbQuotient (k : Nat) (g : Sgn) (a b : BitVec (limbBits k)) : BitVec (limbBits k) :=
  let n := limbBits k
  match g with
  | .unsigned => BitVec.ofNat n (restoringDivide n (uval a) (uval b)).1
  | .signed =>
    let q := BitVec.ofNat n (restoringDivide n (uval (limbAbs k a)) (uval (limbAbs k b))).1
    if limbSignsDiffer k a b then limbNeg k q else q

/-- The remainder of the divider; a signed remainder has the sign of the dividend (R126, R138). -/
def limbRemainder (k : Nat) (g : Sgn) (a b : BitVec (limbBits k)) : BitVec (limbBits k) :=
  let n := limbBits k
  match g with
  | .unsigned => BitVec.ofNat n (restoringDivide n (uval a) (uval b)).2
  | .signed =>
    let r := BitVec.ofNat n (restoringDivide n (uval (limbAbs k a)) (uval (limbAbs k b))).2
    if a.getLsbD (limbBits k - 1) then limbNeg k r else r

/-! ### Shifter (R164), on two limbs of `h` bits; a limb shifted by `h` bits or more gives 0 -/

/-- Left. -/
def limbShiftLeft {h : Nat} (hi lo : BitVec h) (n : Nat) : BitVec h × BitVec h :=
  if h ≤ n then (lo <<< (n - h), 0)
  else (hi <<< n ||| lo >>> (h - n), lo <<< n)

/-- Right unsigned. -/
def limbShiftRightU {h : Nat} (hi lo : BitVec h) (n : Nat) : BitVec h × BitVec h :=
  if h ≤ n then (0, hi >>> (n - h))
  else (hi >>> n, lo >>> n ||| hi <<< (h - n))

/-- Right signed: the upper limb is shifted arithmetically, or filled with copies of the sign. -/
def limbShiftRightS {h : Nat} (hi lo : BitVec h) (n : Nat) : BitVec h × BitVec h :=
  if h ≤ n then (if hi.getLsbD (h - 1) then BitVec.allOnes h else 0, hi.sshiftRight (n - h))
  else (hi.sshiftRight n, lo >>> n ||| hi <<< (h - n))

/-! ### Comparator (R188) -/

/-- Unsigned: the upper limbs decide, and the lower limbs only when the upper ones are equal. -/
def limbLtU : (k : Nat) → BitVec (limbBits k) → BitVec (limbBits k) → Bool
  | 0, a, b => intLt .unsigned a b
  | k + 1, a, b =>
    if limbHi a = limbHi b then limbLtU k (limbLo a) (limbLo b) else limbLtU k (limbHi a) (limbHi b)

/-- Signed: the upper limbs are compared as signed values and the lower limbs as unsigned ones. -/
def limbLtS : (k : Nat) → BitVec (limbBits k) → BitVec (limbBits k) → Bool
  | 0, a, b => intLt .signed a b
  | k + 1, a, b =>
    if limbHi a = limbHi b then limbLtU k (limbLo a) (limbLo b) else limbLtS k (limbHi a) (limbHi b)

end Sys2Proof.Machine
end

