-- ==== Sys2Proof/Machine/FpStages.lean ====
section
/-! DEFINITION. The datapath stages of the float engine: the round-off word and the rounding stage (43_fp_datapath.md R213, R214), the
adder (44_fp_addsub.md R242 to R247), the multiplier (45_fp_mul.md R271 to R275), the divider (46_fp_div.md R291 to R296) and the
converters (47_fp_convert.md R312, R313, R316, R321). The exact rule governs (R216) and is what `exec` computes; these are the
structure of the block, to be proved equal to it. A significand is a natural number `m`, a round-off word a natural number
`r < 2^W`. -/

namespace Sys2Proof.Machine

/-- An exponent, a significand and a round-off word inside one operation. -/
structure Stage where
  e : Int
  m : Nat
  r : Nat
  deriving DecidableEq, Repr

/-- `{m, r}` shifted right by `d` into a significand and a W-bit round-off word: a discarded bit below bit 0 of the word is
ORed into bit 0, the sticky bit (R213). -/
def shiftSticky (w : Nat) (m r d : Nat) : Nat × Nat :=
  let p := m * 2 ^ w + r
  let q := if p % 2 ^ d = 0 then p / 2 ^ d else p / 2 ^ d ||| 1
  (q / 2 ^ w, q % 2 ^ w)

/-- The rounding stage `RoundUnit(F, s, e, m, r)` (R214). -/
def roundUnit (f : Fmt) (s : Bool) (e : Int) (m r : Nat) : BitVec f.W :=
  let up := decide (2 ^ (f.W - 1) < r) || (r == 2 ^ (f.W - 1) && m.testBit 0)
  let m1 := if up then m + 1 else m
  let carried := m1 == 2 ^ (f.S + 1)
  let m2 := if carried then 2 ^ f.S else m1
  let e2 := if carried then e + 1 else e
  if f.emax < e2 then infF f s
  else if 2 ^ f.S ≤ m2 then recompose f s e2 m2
  else pack f s 0 m2

/-- Underflow drift: below emin the significand moves right, building up the round-off word (R274, R295, R313). -/
def drift (f : Fmt) (t : Stage) : Stage :=
  if t.e < f.emin then
    let (m, r) := shiftSticky f.W t.m t.r (f.emin - t.e).toNat
    { e := f.emin, m := m, r := r }
  else t

/-! ### Adder (R243 to R247) -/

/-- Like signs: a sum that spills into bit S+1 moves right by one (R244). -/
def addLike (f : Fmt) (s : Bool) (e : Int) (m r : Nat) : BitVec f.W :=
  if 2 ^ (f.S + 1) ≤ m then
    let (m', r') := shiftSticky f.W m r 1
    if f.emax < e + 1 then infF f s else roundUnit f s (e + 1) m' r'
  else roundUnit f s e m r

/-- The renormalizing loop of R246, on fuel: a left shift per step until bit S is set or the exponent is emin. -/
def renormalize (f : Fmt) : Nat → Stage → Stage
  | 0, t => t
  | n + 1, t =>
    if t.m < 2 ^ f.S ∧ f.emin < t.e then
      renormalize f n { e := t.e - 1, m := 2 * t.m + t.r / 2 ^ (f.W - 1), r := 2 * t.r % 2 ^ f.W }
    else t

/-- Unlike signs: the difference, less one with the two's complement of the word when the word is not 0, then renormalized
(R245, R246). The loop needs at most S + 1 steps, so W steps of fuel are enough (log 14). -/
def addUnlike (f : Fmt) (s : Bool) (e : Int) (mL mT r : Nat) : BitVec f.W :=
  let t : Stage :=
    if r = 0 then { e := e, m := mL - mT, r := 0 } else { e := e, m := mL - mT - 1, r := 2 ^ f.W - r }
  let t' := renormalize f f.W t
  roundUnit f s t'.e t'.m t'.r

/-- `(e_x, m_x)` is at least `(e_y, m_y)`, the exponent first. -/
def largerFirst (dx dy : Decomposed) : Bool :=
  decide (dy.exp < dx.exp) || (dy.exp == dx.exp && decide (dy.sig ≤ dx.sig))

/-- Align, add or subtract, renormalize, round: L is the larger operand and T the other (R243). -/
def addAligned (f : Fmt) (dL dT : Decomposed) : BitVec f.W :=
  let (mT, r) := shiftSticky f.W dT.sig 0 (dL.exp - dT.exp).toNat
  if dL.sign = dT.sign then addLike f dL.sign dL.exp (dL.sig + mT) r
  else if dL.exp = dT.exp ∧ dL.sig = dT.sig then zeroF f false
  else addUnlike f dL.sign dL.exp dL.sig mT r

/-- FADD by stages (R242 to R247). -/
def addStaged (f : Fmt) (x y : BitVec f.W) : BitVec f.W :=
  match addFilter f x y with
  | some r => r
  | none =>
    let dx := decompose f x
    let dy := decompose f y
    if largerFirst dx dy then addAligned f dx dy else addAligned f dy dx

/-! ### Multiplier (R271 to R275) -/

/-- The extended product of the significands at width W, taken from the IMULX datapath, with the pre-shift by W − S that
puts the significand in the high word (R137, R272, log 15). -/
def significandProduct (f : Fmt) (mx my : Nat) : Nat :=
  uval (mulExtended .unsigned (BitVec.ofNat f.W mx) (BitVec.ofNat f.W my)) * 2 ^ (f.W - f.S)

/-- Normalize the product: right by one when bit S+1 is set, left when no bit at or above S is (R273). -/
def mulNormalize (f : Fmt) (e : Int) (p : Nat) : Stage :=
  let hi := p / 2 ^ f.W
  let r := p % 2 ^ f.W
  if 2 ^ (f.S + 1) ≤ hi then
    let (m', r') := shiftSticky f.W hi r 1
    { e := e + 1, m := m', r := r' }
  else if hi < 2 ^ f.S then
    let sh := f.W + f.S - (highestSet (2 * f.W) p).getD 0
    { e := e - sh, m := p * 2 ^ sh / 2 ^ f.W, r := p * 2 ^ sh % 2 ^ f.W }
  else { e := e, m := hi, r := r }

/-- FMUL by stages (R271 to R275). -/
def mulStaged (f : Fmt) (x y : BitVec f.W) : BitVec f.W :=
  match mulFilter f x y with
  | some r => r
  | none =>
    let s := xorSign f x y
    let dx := decompose f x
    let dy := decompose f y
    if f.emax < dx.exp + dy.exp then infF f s
    else
      let t := mulNormalize f (dx.exp + dy.exp) (significandProduct f dx.sig dy.sig)
      if f.emax < t.e then infF f s
      else
        let t' := drift f t
        roundUnit f s t'.e t'.m t'.r

/-! ### Divider (R291 to R296) -/

/-- A subnormal input renormalized: left until bit S is set, the exponent decreased by the shift (R292). -/
def renormalizeInput (f : Fmt) (d : Decomposed) : Int × Nat :=
  if d.sig < 2 ^ f.S then
    let sh := f.S - (highestSet f.W d.sig).getD 0
    (d.exp - sh, d.sig * 2 ^ sh)
  else (d.exp, d.sig)

/-- The long division: S + 1 significand bits, then W round-off bits, and the sticky bit for a remainder (R294). -/
def divideSignificands (f : Fmt) (mx my : Nat) : Nat × Nat :=
  let (q, rest) := restoringDivide (2 * f.S + f.W + 2) (mx * 2 ^ (f.S + f.W)) my
  (q / 2 ^ f.W, if rest = 0 then q % 2 ^ f.W else q % 2 ^ f.W ||| 1)

/-- FDIV by stages (R291 to R296). The pre-shift of R293 is taken at most once. -/
def divStaged (f : Fmt) (x y : BitVec f.W) : BitVec f.W :=
  match divFilter f x y with
  | some r => r
  | none =>
    let s := xorSign f x y
    let (ex, mx) := renormalizeInput f (decompose f x)
    let (ey, my) := renormalizeInput f (decompose f y)
    let (e, mx') := if mx < my then (ex - ey - 1, 2 * mx) else (ex - ey, mx)
    let (m, r) := divideSignificands f mx' my
    let t := drift f { e := e, m := m, r := r }
    if f.emax < t.e then infF f s else roundUnit f s t.e t.m t.r

/-! ### Converters (R312, R313, R316, R321) -/

/-- Widening: exact, the trailing significand moved into the wider field (R312). -/
def widenStaged (f g : Fmt) (d : Decomposed) : BitVec g.W :=
  let (e, m) := renormalizeInput f d
  pack g d.sign (e + g.B).toNat ((m - 2 ^ f.S) * 2 ^ (g.S - f.S))

/-- Narrowing: the bits shifted out form the round-off word of the result format (R313). -/
def narrowStaged (f g : Fmt) (d : Decomposed) : BitVec g.W :=
  let (m, r) := shiftSticky g.W d.sig 0 (f.S - g.S)
  let t := drift g { e := d.exp, m := m, r := r }
  if g.emax < t.e then infF g d.sign else roundUnit g d.sign t.e t.m t.r

/-- FCVT.F.F by stages. -/
def convertFFStaged (f g : Fmt) (x : BitVec f.W) : BitVec g.W :=
  if f = g then x.setWidth g.W
  else
    let d := decompose f x
    match d.cls with
    | .nan => convertNaN f g x
    | .infinity => infF g d.sign
    | .zero => zeroF g d.sign
    | .normal => if f.S < g.S then widenStaged f g d else narrowStaged f g d
    | .subnormal => if f.S < g.S then widenStaged f g d else narrowStaged f g d

/-- FCVT.F.I by stages (R316). The magnitude has at most 128 bits. -/
def convertFIStaged (f : Fmt) (v : Int) : BitVec f.W :=
  if v = 0 then zeroF f false
  else
    let s := decide (v < 0)
    let k := (highestSet 128 v.natAbs).getD 0
    if f.emax < k then infF f s
    else if f.S < k then
      let (m, r) := shiftSticky f.W v.natAbs 0 (k - f.S)
      roundUnit f s k m r
    else roundUnit f s k (v.natAbs * 2 ^ (f.S - k)) 0

/-- The integer of R321: the significand shifted so that its unit is 1, bits below the point dropped. -/
def truncStaged (f : Fmt) (d : Decomposed) : Nat :=
  if d.exp < f.S then d.sig / 2 ^ (f.S - d.exp).toNat else d.sig * 2 ^ (d.exp - f.S).toNat

/-- FCVT.I.F by stages (R321). -/
def convertIFStaged (c : Config) (f : Fmt) (w : Width) (g : Sgn) (x : BitVec f.W) : BitVec w.bits :=
  let d := decompose f x
  let u : Int := truncStaged f d
  match d.cls with
  | .nan => sentinel c w g .nan
  | .infinity => sentinel c w g (if d.sign then .below else .above)
  | .zero => 0
  | .subnormal => 0
  | .normal => if d.exp < 0 then 0 else rangeTest c w g (if d.sign then -u else u)

end Sys2Proof.Machine
end

