-- ==== Sys2Proof/Machine/Requester.lean ====
section
/-! DEFINITION. The requesters' side of the CORE (10_state.md R31, R43; 20_memory.md R66; 60_exceptions.md R361, R362, R372). -/

namespace Sys2Proof.Machine

/-- A request: an operation word and the values the requester holds for the operand ports. A value the requester never assigned
is none (10_state.md R43). -/
structure Request where
  opw : Word
  a : Option Port
  b : Option Port
  cin : Option Bool
  deriving DecidableEq, Repr

/-- The operation of this request reads a port whose value was never assigned. An illegal word reads no operand (R362). -/
def readsUnassigned (r : Request) : Bool :=
  match decode r.opw with
  | .error _ => false
  | .ok i =>
    (decide (0 < (portUse i).aBits) && r.a.isNone) || (decide (0 < (portUse i).bBits) && r.b.isNone)
      || ((portUse i).cin && r.cin.isNone)

/-- A requester puts its request on the input ports. A request that reads an unassigned value is turned away before the CORE
sees it (R43, R362). A port that is not read and has no assigned value keeps what it held; no response depends on it
(30_encoding.md R89, log 7). -/
def present (r : Request) (s : State) : Host.Outcome State Fault Refusal :=
  if readsUnassigned r then .refused .indeterminateOperand
  else .next { s with opw := r.opw, a := r.a.getD s.a, b := r.b.getD s.b, cin := r.cin.getD s.cin }

/-- A request is presented and performed as one indivisible step (R31). -/
def perform (r : Request) (s : State) : Host.Outcome State Fault Refusal :=
  match present r s with
  | .next t => step t
  | .fault e => .fault e
  | .refused e => .refused e

/-- The requests of one requester, in order, whatever it does between them. A fault is terminal for the requester: it ends there
(R361). R43 and R362 have a request that reads an unassigned value rejected, and are silent on whether its requester may go on:
that it ends there too is the model's choice (DESIGN CHOICE, log 17). -/
def session : List Request → State → Host.Outcome State Fault Refusal
  | [], s => .next s
  | r :: rs, s =>
    match perform r s with
    | .next t => if t.fault = faultCode .none then session rs t else .fault (.requestFaulted t.fault)
    | .fault e => .fault e
    | .refused e => .refused e

/-- The responses the CORE gives to a list of requests, of whatever requesters, served one after another in this order (R372);
none for a request that is turned away. The CORE is ready for the next request after a fault (R361). That
the list goes on after a request turned away is the model's choice (DESIGN CHOICE, log 17). -/
def serve : List Request → State → List (Option Response)
  | [], _ => []
  | r :: rs, s =>
    match perform r s with
    | .next t => some t.response :: serve rs t
    | .fault _ => none :: serve rs s
    | .refused _ => none :: serve rs s

/-- The response to one request of a CORE of build `c`: a function of the request and the build only (R30). -/
def respond (c : Config) (r : Request) : Option Response :=
  match perform r (State.resetOf c) with
  | .next t => some t.response
  | .fault _ => none
  | .refused _ => none

end Sys2Proof.Machine
end

