-- ==== Sys2Proof/Safety.lean ====
section
/-! DEFINITION. The terms the statements use: reading the ports as numbers, the two ways a request is answered, what a request leaves
unchanged, and which responses are legal. -/

namespace Sys2Proof.Safety

open Sys2Proof.Machine

/-! ### Reading the ports as numbers (00_scope.md R15, 10_state.md R34) -/

/-- `uval_N` of the low N bits of port A. -/
def portA (n : Nat) (s : State) : Nat := s.a.toNat % 2 ^ n

/-- `uval_N` of the low N bits of port B. -/
def portB (n : Nat) (s : State) : Nat := s.b.toNat % 2 ^ n

/-- `sval_N` of an N-bit number. -/
def signedOf (n : Nat) (v : Nat) : Int := if v < 2 ^ (n - 1) then v else (v : Int) - 2 ^ n

/-- An N-bit number read with the given signedness. -/
def readAs (g : Sgn) (n : Nat) (v : Nat) : Int :=
  match g with
  | .unsigned => v
  | .signed => signedOf n v

/-- `v mod 2^N`, in [0, 2^N). -/
def wrap (n : Nat) (v : Int) : Nat := (v % 2 ^ n).toNat

/-! ### How a request is answered -/

/-- What no request changes: the input ports and the build parameter. That the input ports keep their values across a step is the
model's choice (log 4); that the parameter does is 10_state.md R39. -/
def SameInputs (s t : State) : Prop :=
  t.opw = s.opw ∧ t.a = s.a ∧ t.b = s.b ∧ t.cin = s.cin ∧ t.cfg = s.cfg

/-- The outcome is the completed response RES = `res`, RES_HI = `hi`, FLAG = `flag`, FAULT = 0, and nothing else changed since `s`
(60_exceptions.md R361, 10_state.md R33; the input ports: log 4). -/
def Answers (o : Host.Outcome State Fault Refusal) (s : State) (res hi : Nat) (flag : Bool) : Prop :=
  ∃ t, o = .next t ∧ t.res.toNat = res ∧ t.resHi.toNat = hi ∧ t.flag = flag ∧ t.fault = 0 ∧ SameInputs s t

/-- The outcome is the fault response with this code: every other output port is 0, and nothing else changed since `s`
(60_exceptions.md R361; the input ports: log 4). -/
def FaultsWith (o : Host.Outcome State Fault Refusal) (s : State) (code : Nat) : Prop :=
  ∃ t, o = .next t ∧ t.res = 0 ∧ t.resHi = 0 ∧ t.flag = false ∧ t.fault.toNat = code ∧ SameInputs s t

/-- A comparison answers its truth value on RES and on FLAG (42_int_compare_convert.md R180). -/
def AnswersTruth (o : Host.Outcome State Fault Refusal) (s : State) (t : Prop) : Prop :=
  (t → Answers o s 1 0 true) ∧ (¬ t → Answers o s 0 0 false)

/-- The response an outcome leaves on the output ports. -/
def responseOf : Host.Outcome State Fault Refusal → Option Response
  | .next t => some t.response
  | .fault _ => none
  | .refused _ => none

/-- The FLAG an outcome leaves. -/
def flagOf (o : Host.Outcome State Fault Refusal) : Bool :=
  match responseOf o with
  | some r => r.flag
  | none => false

/-! ### Legal words and legal responses -/

/-- The legality table of 30_encoding.md R87: some row's mask and match, and every variable field in the row's range. -/
def LegalWord (w : Word) : Prop :=
  let op := w.toNat % 2 ^ 8
  let fmt := w.toNat / 2 ^ 8 % 2 ^ 2
  let fmt2 := w.toNat / 2 ^ 10 % 2 ^ 2
  let iw := w.toNat / 2 ^ 12 % 2 ^ 3
  let iw2 := w.toNat / 2 ^ 16 % 2 ^ 3
  (0x01 ≤ op ∧ op ≤ 0x17 ∧ w &&& 0xFFFF0FFF#32 = BitVec.ofNat 32 op ∧ 1 ≤ iw ∧ iw ≤ 4) ∨
  (op = 0x18 ∧ w &&& 0xFFF80FFF#32 = 0x00000018#32 ∧ iw ≤ 4 ∧ iw2 ≤ 4) ∨
  ((0x40 ≤ op ∧ op ≤ 0x4A ∨ 0x4E ≤ op ∧ op ≤ 0x53) ∧ w &&& 0xFFFFFCFF#32 = BitVec.ofNat 32 op ∧ fmt ≤ 2) ∨
  (op = 0x4B ∧ w &&& 0xFFFFF0FF#32 = 0x0000004B#32 ∧ fmt ≤ 2 ∧ fmt2 ≤ 2) ∨
  ((op = 0x4C ∨ op = 0x4D) ∧ w &&& 0xFFFF0CFF#32 = BitVec.ofNat 32 op ∧ fmt ≤ 2 ∧ iw ≤ 4)

/-- The width of each operation's result on RES (10_state.md R35, 30_encoding.md R89). -/
def resultBits : Instr → Nat
  | .iadd w _ => w.bits
  | .isub w _ => w.bits
  | .imul w _ => w.bits
  | .idiv w _ => w.bits
  | .irem w _ => w.bits
  | .ineg w _ => w.bits
  | .iinc w _ => w.bits
  | .idec w _ => w.bits
  | .ilnot _ _ => 1
  | .inot w _ => w.bits
  | .ibool _ _ => 1
  | .ishl w _ => w.bits
  | .ishr w _ => w.bits
  | .ieq _ _ => 1
  | .ine _ _ => 1
  | .ilt _ _ => 1
  | .ile _ _ => 1
  | .igt _ _ => 1
  | .ige _ _ => 1
  | .iadc w _ => w.bits
  | .isbb w _ => w.bits
  | .imulx w _ => w.bits
  | .ibsr _ _ => 7
  | .icvt _ _ w2 => w2.bits
  | .fclass f => f.S + 1
  | .fmkzero f => f.W
  | .fmkinf f => f.W
  | .fmknan f => f.W
  | .fmksub f => f.W
  | .fmknorm f => f.W
  | .fneg f => f.W
  | .fadd f => f.W
  | .fsub f => f.W
  | .fmul f => f.W
  | .fdiv f => f.W
  | .fcvtFF _ f2 => f2.W
  | .fcvtFI f _ _ => f.W
  | .fcvtIF _ w _ => w.bits
  | .feq _ => 1
  | .fne _ => 1
  | .flt _ => 1
  | .fle _ => 1
  | .fgt _ => 1
  | .fge _ => 1

/-- The operations that write RES_HI (10_state.md R33), with the width of what they write. -/
def highBits : Instr → Nat
  | .imulx w _ => w.bits
  | .fclass _ => 64
  | _ => 0

/-- The operations that write FLAG (10_state.md R33). -/
def writesFlag : Instr → Bool
  | .iadc _ _ => true
  | .isbb _ _ => true
  | .ibsr _ _ => true
  | .ilnot _ _ => true
  | .ibool _ _ => true
  | .ieq _ _ => true
  | .ine _ _ => true
  | .ilt _ _ => true
  | .ile _ _ => true
  | .igt _ _ => true
  | .ige _ _ => true
  | .feq _ => true
  | .fne _ => true
  | .flt _ => true
  | .fle _ => true
  | .fgt _ => true
  | .fge _ => true
  | _ => false

/-- The fault codes an operation may raise (60_exceptions.md R360, R362). -/
def mayFault : Instr → Nat → Bool
  | .idiv _ _, 2 => true
  | .irem _ _, 2 => true
  | .ishl _ _, 3 => true
  | .ishr _ _, 3 => true
  | .fmksub _, 4 => true
  | .fmknorm _, 4 => true
  | _, _ => false

/-- The output ports hold a response that the operation word on OPW can have: a fault response is all 0 but its code; a completed
one fits the operation's result width, and RES_HI and FLAG are 0 unless the operation writes them (10_state.md R33, R35;
60_exceptions.md R360 to R362). -/
def ResponseLegal (s : State) : Prop :=
  (s.fault ≠ 0 → s.res = 0 ∧ s.resHi = 0 ∧ s.flag = false) ∧
  match decode s.opw with
  | .error _ => s.res = 0 ∧ s.resHi = 0 ∧ s.flag = false ∧ s.fault.toNat ≤ 1
  | .ok i =>
    s.res.toNat < 2 ^ resultBits i ∧ s.resHi.toNat < 2 ^ highBits i ∧ (writesFlag i = false → s.flag = false) ∧
      (s.fault = 0 ∨ mayFault i s.fault.toNat = true)

end Sys2Proof.Safety
end

