-- ==== Sys2Proof/Safety/Exact.lean ====
section
/-! DEFINITION. The float rules over the rationals, on packed patterns written as numbers: the statements say that what the machine
computes is this. It is written from 43_fp_datapath.md to 47_fp_convert.md alone and uses none of the machine's functions but the
format parameters of R200. -/

namespace Sys2Proof.Exact

/-! ### Packed form (R201 to R206) -/

def sign (f : Fmt) (x : Nat) : Nat := x / 2 ^ (f.W - 1) % 2
def biased (f : Fmt) (x : Nat) : Nat := x / 2 ^ f.S % 2 ^ f.E
def trailing (f : Fmt) (x : Nat) : Nat := x % 2 ^ f.S

/-- `{s, biased, trailing}`. -/
def packed (f : Fmt) (s be t : Nat) : Nat := s * 2 ^ (f.W - 1) + be * 2 ^ f.S + t

abbrev IsNaN (f : Fmt) (x : Nat) : Prop := biased f x = 2 ^ f.E - 1 ∧ trailing f x ≠ 0
abbrev IsInf (f : Fmt) (x : Nat) : Prop := biased f x = 2 ^ f.E - 1 ∧ trailing f x = 0
abbrev IsZero (f : Fmt) (x : Nat) : Prop := biased f x = 0 ∧ trailing f x = 0
abbrev IsSubnormal (f : Fmt) (x : Nat) : Prop := biased f x = 0 ∧ trailing f x ≠ 0
abbrev IsNormal (f : Fmt) (x : Nat) : Prop := biased f x ≠ 0 ∧ biased f x ≠ 2 ^ f.E - 1
abbrev IsFinite (f : Fmt) (x : Nat) : Prop := biased f x ≠ 2 ^ f.E - 1

/-- The significand of a finite pattern, the implicit bit included (R203). -/
def significand (f : Fmt) (x : Nat) : Nat := if biased f x = 0 then trailing f x else 2 ^ f.S + trailing f x

/-- The unbiased exponent of a finite pattern (R203). -/
def exponent (f : Fmt) (x : Nat) : Int := if biased f x = 0 then f.emin else (biased f x : Int) - f.B

/-- `val(F, x)` of a finite pattern (R205); a Zero has value 0. -/
def val (f : Fmt) (x : Nat) : ℚ := (-1) ^ sign f x * ((significand f x : ℚ) * 2 ^ (exponent f x - f.S))

def zero (f : Fmt) (s : Nat) : Nat := s * 2 ^ (f.W - 1)
def inf (f : Fmt) (s : Nat) : Nat := s * 2 ^ (f.W - 1) + (2 ^ f.E - 1) * 2 ^ f.S
def indNaN (f : Fmt) : Nat := 2 ^ (f.W - 1) + (2 ^ f.E - 1) * 2 ^ f.S + 2 ^ (f.S - 1)

/-! ### Rounding (R210, R211) -/

/-- `RNE(q)` (R210). -/
def rne (q : ℚ) : Int :=
  if 1 / 2 < Int.fract q ∨ (Int.fract q = 1 / 2 ∧ ⌊q⌋ % 2 = 1) then ⌊q⌋ + 1 else ⌊q⌋

/-- `RoundPack(F, s, v)` for a positive rational v (R211). -/
def roundPack (f : Fmt) (s : Nat) (v : ℚ) : Nat :=
  let e1 := max (Int.log 2 v) f.emin
  let n := (rne (v / 2 ^ (e1 - f.S))).toNat
  let n' := if n = 2 ^ (f.S + 1) then 2 ^ f.S else n
  let e2 := if n = 2 ^ (f.S + 1) then e1 + 1 else e1
  if f.emax < e2 then inf f s
  else if 2 ^ f.S ≤ n' then packed f s (e2 + f.B).toNat (n' - 2 ^ f.S)
  else packed f s 0 n'

/-- The sign of a rational as a sign bit. -/
def signOf (v : ℚ) : Nat := if v < 0 then 1 else 0

/-! ### Arithmetic (R232, R240, R241, R270, R290) -/

/-- R232. -/
def negate (f : Fmt) (x : Nat) : Nat := (x + 2 ^ (f.W - 1)) % 2 ^ f.W

/-- The sign of a product or quotient: the exclusive or. -/
def xorSign (f : Fmt) (x y : Nat) : Nat := (sign f x + sign f y) % 2

/-- R240. -/
def add (f : Fmt) (x y : Nat) : Nat :=
  if IsNaN f x then x
  else if IsNaN f y then y
  else if IsZero f x ∧ IsZero f y then (if sign f x ≠ sign f y then zero f 0 else x)
  else if IsZero f x then y
  else if IsZero f y then x
  else if IsInf f x then (if IsInf f y ∧ sign f x ≠ sign f y then indNaN f else x)
  else if IsInf f y then y
  else if val f x + val f y = 0 then zero f 0
  else roundPack f (signOf (val f x + val f y)) |val f x + val f y|

/-- R241. -/
def sub (f : Fmt) (x y : Nat) : Nat := add f x (negate f y)

/-- R270. -/
def mul (f : Fmt) (x y : Nat) : Nat :=
  if IsNaN f x then x
  else if IsNaN f y then y
  else if (IsInf f x ∧ IsZero f y) ∨ (IsZero f x ∧ IsInf f y) then indNaN f
  else if IsInf f x ∨ IsInf f y then inf f (xorSign f x y)
  else if IsZero f x ∨ IsZero f y then zero f (xorSign f x y)
  else roundPack f (xorSign f x y) |val f x * val f y|

/-- R290. -/
def div (f : Fmt) (x y : Nat) : Nat :=
  if IsNaN f x then x
  else if IsNaN f y then y
  else if (IsZero f x ∧ IsZero f y) ∨ (IsInf f x ∧ IsInf f y) then indNaN f
  else if IsZero f y then inf f (xorSign f x y)
  else if IsZero f x then zero f (xorSign f x y)
  else if IsInf f x then inf f (xorSign f x y)
  else if IsInf f y then zero f (xorSign f x y)
  else roundPack f (xorSign f x y) |val f x / val f y|

/-! ### Conversions (R310, R311, R315, R320, R322) -/

/-- The payload of R311. -/
def payload (f g : Fmt) (t : Nat) : Nat :=
  if f.S < g.S then t * 2 ^ (g.S - f.S)
  else if t / 2 ^ (f.S - g.S) = 0 then 2 ^ (g.S - 1)
  else t / 2 ^ (f.S - g.S)

/-- R310. -/
def convertFF (f g : Fmt) (x : Nat) : Nat :=
  if f = g then x
  else if IsNaN f x then packed g (sign f x) (2 ^ g.E - 1) (payload f g (trailing f x))
  else if IsInf f x then inf g (sign f x)
  else if IsZero f x then zero g (sign f x)
  else roundPack g (sign f x) |val f x|

/-- R315, on the value of the integer. -/
def convertFI (f : Fmt) (v : Int) : Nat :=
  if v = 0 then zero f 0 else roundPack f (signOf v) |(v : ℚ)|

/-- `trunc(q)`: toward zero (00_scope.md R15). -/
def trunc (q : ℚ) : Int := if q < 0 then -⌊-q⌋ else ⌊q⌋

/-- The range of an integer type of T bits (R320). -/
def lowest (g : Sgn) (t : Nat) : Int := match g with | .signed => -2 ^ (t - 1) | .unsigned => 0
def highest (g : Sgn) (t : Nat) : Int := match g with | .signed => 2 ^ (t - 1) - 1 | .unsigned => 2 ^ t - 1

/-- The Intel-emulation table of R322, as a T-bit pattern. -/
def intelSentinel (g : Sgn) (t : Nat) : Nat :=
  if t = 8 ∨ t = 16 then 0
  else if t = 32 ∧ g = .unsigned then 0
  else 2 ^ (t - 1)

/-- `Sentinel(NAN)`, `Sentinel(BELOW)` and `Sentinel(ABOVE)` of R322. -/
def nanSentinel (intel : Bool) (g : Sgn) (t : Nat) : Nat := if intel then intelSentinel g t else 0
def belowSentinel (intel : Bool) (g : Sgn) (t : Nat) : Nat :=
  if intel then intelSentinel g t else (lowest g t % 2 ^ t).toNat
def aboveSentinel (intel : Bool) (g : Sgn) (t : Nat) : Nat :=
  if intel then intelSentinel g t else (highest g t % 2 ^ t).toNat

/-- R320. -/
def convertIF (intel : Bool) (f : Fmt) (g : Sgn) (t : Nat) (x : Nat) : Nat :=
  if IsNaN f x then nanSentinel intel g t
  else if IsInf f x then (if sign f x = 1 then belowSentinel intel g t else aboveSentinel intel g t)
  else if IsZero f x then 0
  else if trunc (val f x) < lowest g t then belowSentinel intel g t
  else if highest g t < trunc (val f x) then aboveSentinel intel g t
  else (trunc (val f x) % 2 ^ t).toNat

/-! ### Order (48_fp_compare.md R340) -/

/-- `x < y` by value, infinities at the ends; false with a NaN. -/
def Less (f : Fmt) (x y : Nat) : Prop :=
  ¬ IsNaN f x ∧ ¬ IsNaN f y ∧
    ((IsFinite f x ∧ IsFinite f y ∧ val f x < val f y) ∨
      (x = inf f 1 ∧ y ≠ inf f 1) ∨ (y = inf f 0 ∧ x ≠ inf f 0))

/-- `x = y` by value; false with a NaN. -/
def Equal (f : Fmt) (x y : Nat) : Prop :=
  ¬ IsNaN f x ∧ ¬ IsNaN f y ∧ ((IsFinite f x ∧ IsFinite f y ∧ val f x = val f y) ∨ x = y)

end Sys2Proof.Exact
end

