-- ==== Sys2Proof/Certificates/Slice0/Obligations.lean ====
section
/-! DEFINITION. The statements for the provers. Ports are read as numbers: `portA N s` is `A[N−1:0]`, `portB N s` is `B[N−1:0]`.
`Answers` and `FaultsWith` say the whole next state: the four output ports, and that the input ports and the build parameter
are unchanged. -/

open Sys2Proof Sys2Proof.Machine Sys2Proof.Safety

/-! ### The operation word (30_encoding.md) -/

/-- Every well-formed operation, with every value of its fields, is read back from its own word (R80 to R88). -/
def Obligations.DecodeReadsBackEncode : Prop :=
  ∀ i : Instr, i.wellFormed = true → decode (encode i) = .ok i

/-- A word the decoder accepts is the word of the operation it names, and that operation is well formed: no two words share a
meaning and no bit of a word is dropped (R87, R90). -/
def Obligations.AcceptedWordIsTheEncoding : Prop :=
  ∀ (w : Word) (i : Instr), decode w = .ok i → encode i = w ∧ i.wellFormed = true

/-- The decoder accepts exactly the words that R87 calls legal. -/
def Obligations.LegalExactlyByMaskMatchAndRange : Prop :=
  ∀ w : Word, (∃ i, decode w = .ok i) ↔ LegalWord w

/-- An illegal word is answered with ILLEGAL_OP, whatever the operands hold (R90; 60_exceptions.md R360, R361). -/
def Obligations.IllegalWordRaisesIllegalOp : Prop :=
  ∀ s : State, ¬ LegalWord s.opw → FaultsWith (step s) s 1

/-- Words of the spec's encoding examples (95_test_vectors.md section 2), one of each group of R87 at least. -/
def Obligations.ExampleWordsDecode : Prop :=
  decode 0x00001001#32 = .ok (.iadd .w16 .unsigned) ∧
  decode 0x00003014#32 = .ok (.iadc .w64 .unsigned) ∧
  decode 0x0000C016#32 = .ok (.imulx .w128 .signed) ∧
  decode 0x00039018#32 = .ok (.icvt .w16 .signed .w64) ∧
  decode 0x00000147#32 = .ok (.fadd .s) ∧
  decode 0x0000044B#32 = .ok (.fcvtFF .h .s) ∧
  decode 0x0000024B#32 = .ok (.fcvtFF .d .h) ∧
  decode 0x0000A14C#32 = .ok (.fcvtFI .s .w32 .signed) ∧
  decode 0x0000004D#32 = .ok (.fcvtIF .h .w8 .unsigned) ∧
  decode 0x00000253#32 = .ok (.fge .d)

/-! ### The step -/

/-- A step performs the operation that the word on OPW decodes to, and adds nothing around it (10_state.md R31, R37). -/
def Obligations.StepRunsTheDecodedOperation : Prop :=
  ∀ (s : State) (i : Instr), decode s.opw = .ok i → step s = exec i s

/-- Every request completes in one step with a result or a fault (70_reset_and_hazards.md R398; 10_state.md R31), and no operation
changes the build parameter (10_state.md R39). That the input ports keep their values across the step is the model's choice
(DESIGN CHOICE, log 4). -/
def Obligations.EveryRequestIsAnswered : Prop :=
  ∀ s : State, (∃ t, step s = .next t ∧ SameInputs s t) ∧ ∀ i : Instr, ∃ t, exec i s = .next t ∧ SameInputs s t

/-- A response depends on the ports the operation reads, at the width it reads, and on nothing else; the build parameter is read
by FCVT.I.F only (10_state.md R30, R34; 30_encoding.md R89). -/
def Obligations.ResponseReadsOnlyListedPorts : Prop :=
  ∀ (i : Instr) (s t : State),
    portA (portUse i).aBits s = portA (portUse i).aBits t →
    portB (portUse i).bBits s = portB (portUse i).bBits t →
    ((portUse i).cin = true → s.cin = t.cin) →
    ((∃ f w g, i = .fcvtIF f w g) → s.cfg = t.cfg) →
    responseOf (exec i s) = responseOf (exec i t)

/-- SGN changes the result of IDIV, IREM, IMULX, ISHR, ILT, ILE, IGT, IGE and ICVT, and of no other integer-engine operation
(30_encoding.md R85). -/
def Obligations.SignednessMattersOnlyWhereListed : Prop :=
  (∀ (w : Width) (s : State),
    exec (.iadd w .signed) s = exec (.iadd w .unsigned) s ∧ exec (.isub w .signed) s = exec (.isub w .unsigned) s ∧
    exec (.imul w .signed) s = exec (.imul w .unsigned) s ∧ exec (.ineg w .signed) s = exec (.ineg w .unsigned) s ∧
    exec (.iinc w .signed) s = exec (.iinc w .unsigned) s ∧ exec (.idec w .signed) s = exec (.idec w .unsigned) s ∧
    exec (.ilnot w .signed) s = exec (.ilnot w .unsigned) s ∧ exec (.inot w .signed) s = exec (.inot w .unsigned) s ∧
    exec (.ibool w .signed) s = exec (.ibool w .unsigned) s ∧ exec (.ishl w .signed) s = exec (.ishl w .unsigned) s ∧
    exec (.ieq w .signed) s = exec (.ieq w .unsigned) s ∧ exec (.ine w .signed) s = exec (.ine w .unsigned) s ∧
    exec (.iadc w .signed) s = exec (.iadc w .unsigned) s ∧ exec (.isbb w .signed) s = exec (.isbb w .unsigned) s ∧
    exec (.ibsr w .signed) s = exec (.ibsr w .unsigned) s) ∧
  (∀ w : Width,
    (∃ s, exec (.idiv w .signed) s ≠ exec (.idiv w .unsigned) s) ∧
    (∃ s, exec (.irem w .signed) s ≠ exec (.irem w .unsigned) s) ∧
    (∃ s, exec (.imulx w .signed) s ≠ exec (.imulx w .unsigned) s) ∧
    (∃ s, exec (.ishr w .signed) s ≠ exec (.ishr w .unsigned) s) ∧
    (∃ s, exec (.ilt w .signed) s ≠ exec (.ilt w .unsigned) s) ∧
    (∃ s, exec (.ile w .signed) s ≠ exec (.ile w .unsigned) s) ∧
    (∃ s, exec (.igt w .signed) s ≠ exec (.igt w .unsigned) s) ∧
    (∃ s, exec (.ige w .signed) s ≠ exec (.ige w .unsigned) s)) ∧
  (∀ w w2 : Width, w.bits < w2.bits → ∃ s, exec (.icvt w .signed w2) s ≠ exec (.icvt w .unsigned w2) s)

/-- Every step, from any state, leaves a response that its operation word can have: within the result width, RES_HI and FLAG 0
unless the operation writes them, and only the fault codes of R360 (10_state.md R33, R35; 60_exceptions.md R360 to R362). So a
legal response is an invariant of the step. That the input ports are kept is the model's choice (log 4). -/
def Obligations.EveryStepLeavesALegalResponse : Prop :=
  ∀ s t : State, step s = .next t → ResponseLegal t ∧ SameInputs s t

/-- After reset EMULATE_INTEL has its default value (10_state.md R44), and the invariant of the step holds. That the output ports
then hold 0 is the model's choice (log 1); this rests on it only through `ResponseLegal`. -/
def Obligations.ResetIsLegalAndDefaultBuild : Prop :=
  State.reset.cfg.emulateIntel = true ∧ ResponseLegal State.reset

/-! ### Integer arithmetic (40_int_arith.md) -/

/-- IADD, ISUB and IMUL answer the sum, difference and product mod 2^N (R122, R123, R124). -/
def Obligations.AddSubMulAreModular : Prop :=
  ∀ (w : Width) (g : Sgn) (s : State),
    Answers (exec (.iadd w g) s) s ((portA w.bits s + portB w.bits s) % 2 ^ w.bits) 0 false ∧
    Answers (exec (.isub w g) s) s (wrap w.bits ((portA w.bits s : Int) - portB w.bits s)) 0 false ∧
    Answers (exec (.imul w g) s) s (portA w.bits s * portB w.bits s % 2 ^ w.bits) 0 false

/-- IDIV answers the quotient truncated toward zero, mod 2^N, and raises INT_DIV_ZERO for a zero divisor (R125). -/
def Obligations.DivideTruncatesTowardZero : Prop :=
  ∀ (w : Width) (g : Sgn) (s : State),
    (portB w.bits s = 0 → FaultsWith (exec (.idiv w g) s) s 2) ∧
    (portB w.bits s ≠ 0 → Answers (exec (.idiv w g) s) s
      (wrap w.bits (Int.tdiv (readAs g w.bits (portA w.bits s)) (readAs g w.bits (portB w.bits s)))) 0 false)

/-- IREM answers the remainder that matches the truncated quotient, mod 2^N, and raises INT_DIV_ZERO for a zero divisor (R126). -/
def Obligations.RemainderMatchesQuotient : Prop :=
  ∀ (w : Width) (g : Sgn) (s : State),
    (portB w.bits s = 0 → FaultsWith (exec (.irem w g) s) s 2) ∧
    (portB w.bits s ≠ 0 → Answers (exec (.irem w g) s) s
      (wrap w.bits (Int.tmod (readAs g w.bits (portA w.bits s)) (readAs g w.bits (portB w.bits s)))) 0 false)

/-- The answers q of IDIV and r of IREM on the same ports satisfy x = q·y + r mod 2^N, |r| < |y|, and r has the sign of the
dividend (R126). -/
def Obligations.QuotientAndRemainderRecombine : Prop :=
  ∀ (w : Width) (g : Sgn) (s t u : State), portB w.bits s ≠ 0 →
    exec (.idiv w g) s = .next t → exec (.irem w g) s = .next u →
    let x := readAs g w.bits (portA w.bits s)
    let y := readAs g w.bits (portB w.bits s)
    let q := readAs g w.bits t.res.toNat
    let r := readAs g w.bits u.res.toNat
    wrap w.bits (q * y + r) = wrap w.bits x ∧ |r| < |y| ∧ (r = 0 ∨ (r < 0 ↔ x < 0))

/-- INEG, IINC, IDEC and INOT (R127, R128, R129, R131). -/
def Obligations.UnaryArithmeticResults : Prop :=
  ∀ (w : Width) (g : Sgn) (s : State),
    Answers (exec (.ineg w g) s) s ((2 ^ w.bits - portA w.bits s) % 2 ^ w.bits) 0 false ∧
    Answers (exec (.iinc w g) s) s ((portA w.bits s + 1) % 2 ^ w.bits) 0 false ∧
    Answers (exec (.idec w g) s) s (wrap w.bits ((portA w.bits s : Int) - 1)) 0 false ∧
    Answers (exec (.inot w g) s) s (2 ^ w.bits - 1 - portA w.bits s) 0 false

/-- ILNOT answers whether the operand is zero and IBOOL whether it is not, on RES and FLAG (R130, R132). -/
def Obligations.LogicalNotAndToBool : Prop :=
  ∀ (w : Width) (g : Sgn) (s : State),
    AnswersTruth (exec (.ilnot w g) s) s (portA w.bits s = 0) ∧
    AnswersTruth (exec (.ibool w g) s) s (portA w.bits s ≠ 0)

/-- IADC and ISBB answer the sum and difference with the carry-in, and the carry or borrow out on FLAG (R133, R134). -/
def Obligations.CarryAndBorrow : Prop :=
  ∀ (w : Width) (g : Sgn) (s : State),
    Answers (exec (.iadc w g) s) s ((portA w.bits s + portB w.bits s + s.cin.toNat) % 2 ^ w.bits) 0
      (decide (2 ^ w.bits ≤ portA w.bits s + portB w.bits s + s.cin.toNat)) ∧
    Answers (exec (.isbb w g) s) s (wrap w.bits ((portA w.bits s : Int) - portB w.bits s - s.cin.toNat)) 0
      (decide (portA w.bits s < portB w.bits s + s.cin.toNat))

/-- Two chained IADC requests add, and two chained ISBB requests subtract, 2N-bit numbers: the first response's FLAG is the
second request's CIN (R136). -/
def Obligations.CarryChainIsDoubleWidth : Prop :=
  ∀ (w : Width) (g : Sgn) (s1 s2 t1 t2 : State),
    let n := w.bits
    let a := portA n s1 + 2 ^ n * portA n s2
    let b := portB n s1 + 2 ^ n * portB n s2
    s2.cin = t1.flag →
    ((exec (.iadc w g) s1 = .next t1 → exec (.iadc w g) s2 = .next t2 →
        t1.res.toNat + 2 ^ n * t2.res.toNat + 2 ^ (2 * n) * t2.flag.toNat = a + b + s1.cin.toNat) ∧
     (exec (.isbb w g) s1 = .next t1 → exec (.isbb w g) s2 = .next t2 →
        ((t1.res.toNat + 2 ^ n * t2.res.toNat : Nat) : Int) - 2 ^ (2 * n) * t2.flag.toNat
          = (a : Int) - b - s1.cin.toNat))

/-- IMULX answers both halves of the 2N-bit product, unsigned or signed (R135). -/
def Obligations.ExtendedProduct : Prop :=
  ∀ (w : Width) (g : Sgn) (s : State),
    let p := wrap (2 * w.bits) (readAs g w.bits (portA w.bits s) * readAs g w.bits (portB w.bits s))
    Answers (exec (.imulx w g) s) s (p % 2 ^ w.bits) (p / 2 ^ w.bits) false

/-- ISHL and ISHR raise SHIFT_RANGE for an amount of N or more; otherwise they answer `a × 2^n mod 2^N` and the floor of
`a / 2^n`, read with the type's signedness (41_int_shift_scan.md R160, R161, R162). -/
def Obligations.ShiftsAndShiftRange : Prop :=
  ∀ (w : Width) (g : Sgn) (s : State),
    (w.bits ≤ portB w.bits s →
      FaultsWith (exec (.ishl w g) s) s 3 ∧ FaultsWith (exec (.ishr w g) s) s 3) ∧
    (portB w.bits s < w.bits →
      Answers (exec (.ishl w g) s) s (portA w.bits s * 2 ^ portB w.bits s % 2 ^ w.bits) 0 false ∧
      Answers (exec (.ishr w g) s) s
        (wrap w.bits (Int.fdiv (readAs g w.bits (portA w.bits s)) (2 ^ portB w.bits s))) 0 false)

/-- IBSR answers the 0-based index of the highest set bit with FLAG = 1, and 0 with FLAG = 0 for a zero input (R163). -/
def Obligations.BitScanFindsHighestBit : Prop :=
  ∀ (w : Width) (g : Sgn) (s : State),
    (portA w.bits s = 0 → Answers (exec (.ibsr w g) s) s 0 0 false) ∧
    (portA w.bits s ≠ 0 → ∃ k, 2 ^ k ≤ portA w.bits s ∧ portA w.bits s < 2 ^ (k + 1) ∧
      Answers (exec (.ibsr w g) s) s k 0 true)

/-- The six integer comparisons, on RES and FLAG (42_int_compare_convert.md R180 to R186). -/
def Obligations.IntegerComparisons : Prop :=
  ∀ (w : Width) (g : Sgn) (s : State),
    let a := portA w.bits s
    let b := portB w.bits s
    AnswersTruth (exec (.ieq w g) s) s (a = b) ∧
    AnswersTruth (exec (.ine w g) s) s (a ≠ b) ∧
    AnswersTruth (exec (.ilt w g) s) s (readAs g w.bits a < readAs g w.bits b) ∧
    AnswersTruth (exec (.ile w g) s) s (readAs g w.bits a ≤ readAs g w.bits b) ∧
    AnswersTruth (exec (.igt w g) s) s (readAs g w.bits b < readAs g w.bits a) ∧
    AnswersTruth (exec (.ige w g) s) s (readAs g w.bits b ≤ readAs g w.bits a)

/-- ICVT extends by the source's signedness when widening and keeps the low bits when narrowing (R187). -/
def Obligations.WidthConversion : Prop :=
  ∀ (w : Width) (g : Sgn) (w2 : Width) (s : State),
    Answers (exec (.icvt w g w2) s) s
      (if w.bits ≤ w2.bits then wrap w2.bits (readAs g w.bits (portA w.bits s)) else portA w.bits s % 2 ^ w2.bits)
      0 false

/-! ### The multi-limb datapath -/

/-- The limb adder, subtractor, negation and zero test give the whole-value results at every depth of the recursion
(40_int_arith.md R121, R136). -/
def Obligations.LimbAdderIsWholeValue : Prop :=
  ∀ (k : Nat) (a b : BitVec (limbBits k)) (c : Bool),
    limbAddCarry k a b c = (addCarry a b c, carryFlag a b c) ∧
    limbSubBorrow k a b c = (subBorrow a b c, borrowFlag a b c) ∧
    limbAdd k a b = addMod a b ∧ limbSub k a b = subMod a b ∧
    limbNeg k a = negMod a ∧ limbNonzero k a = isNonzeroFlag a

/-- The four half-products, aligned and summed, are the whole product, unsigned and signed (R121, R124, R135, R137). -/
def Obligations.LimbMultiplierIsWholeValue : Prop :=
  ∀ (k : Nat) (a b : BitVec (limbBits k)),
    (limbMulExtended k a b).toNat = a.toNat * b.toNat ∧
    (limbMulExtendedSigned k a b).toInt = a.toInt * b.toInt ∧
    limbMul k a b = mulMod a b

/-- N steps of restoring division give the quotient and remainder, and so the limb divider those of IDIV and IREM (R121, R138). -/
def Obligations.RestoringDivisionIsExact : Prop :=
  (∀ n a d : Nat, 0 < d → a < 2 ^ n → restoringDivide n a d = (a / d, a % d)) ∧
  (∀ (k : Nat) (g : Sgn) (a b : BitVec (limbBits k)), b ≠ 0 →
    limbQuotient k g a b = pattern (limbBits k) (quotient g a b) ∧
    limbRemainder k g a b = pattern (limbBits k) (remainder g a b))

/-- The two-limb shifter gives the whole-value shifts for every amount below N, 0 included (41_int_shift_scan.md R164). -/
def Obligations.LimbShifterIsWholeValue : Prop :=
  ∀ (h : Nat) (hi lo : BitVec h) (n : Nat), n < h + h →
    (limbShiftLeft hi lo n).1 ++ (limbShiftLeft hi lo n).2 = shiftLeft (hi ++ lo) n ∧
    (limbShiftRightU hi lo n).1 ++ (limbShiftRightU hi lo n).2 = shiftRight .unsigned (hi ++ lo) n ∧
    (limbShiftRightS hi lo n).1 ++ (limbShiftRightS hi lo n).2 = shiftRight .signed (hi ++ lo) n

/-- Lexicographic comparison of the limbs is comparison of the values (42_int_compare_convert.md R188). -/
def Obligations.LimbComparatorIsWholeValue : Prop :=
  ∀ (k : Nat) (a b : BitVec (limbBits k)),
    limbLtU k a b = intLt .unsigned a b ∧ limbLtS k a b = intLt .signed a b

/-! ### Formats, factories, sign (43_fp_datapath.md) -/

/-- The decomposition of every pattern, class by class (R203). The exponent of a Zero, Infinity or NaN has no value. -/
def Obligations.DecomposeByClass : Prop :=
  ∀ (f : Fmt) (x : BitVec f.W),
    let d := decompose f x
    let n := x.toNat
    d.sign = decide (Exact.sign f n = 1) ∧
    (Exact.IsZero f n → d.cls = .zero ∧ d.sig = 0) ∧
    (Exact.IsSubnormal f n → d.cls = .subnormal ∧ d.exp = f.emin ∧ d.sig = Exact.trailing f n) ∧
    (Exact.IsInf f n → d.cls = .infinity ∧ d.sig = 0) ∧
    (Exact.IsNaN f n → d.cls = .nan ∧ d.sig = Exact.trailing f n) ∧
    (Exact.IsNormal f n → d.cls = .normal ∧ d.exp = (Exact.biased f n : Int) - f.B ∧
      d.sig = Exact.trailing f n + 2 ^ f.S)

/-- FCLASS answers the significand on RES, and the exponent, sign and class on RES_HI (R226). -/
def Obligations.ClassifyReportsTheParts : Prop :=
  ∀ (f : Fmt) (s : State),
    let x := portA f.W s
    let sig := if Exact.IsFinite f x then Exact.significand f x else Exact.trailing f x
    let ex := if Exact.IsNormal f x ∨ Exact.IsSubnormal f x then Exact.exponent f x else 0
    let code := if Exact.IsNaN f x then 0 else if Exact.IsInf f x then 1 else if Exact.IsZero f x then 2
      else if Exact.IsSubnormal f x then 4 else 3
    Answers (exec (.fclass f) s) s sig (wrap 32 ex * 2 ^ 32 + Exact.sign f x * 8 + code) false

/-- FMKZERO, FMKINF and FMKNAN answer the constants of R206 (R227, R228, R229). -/
def Obligations.FactoriesOfConstants : Prop :=
  ∀ (f : Fmt) (s : State),
    Answers (exec (.fmkzero f) s) s (Exact.zero f s.cin.toNat) 0 false ∧
    Answers (exec (.fmkinf f) s) s (Exact.inf f s.cin.toNat) 0 false ∧
    Answers (exec (.fmknan f) s) s (Exact.indNaN f) 0 false

/-- FMKSUB and FMKNORM answer the packed form of their parts, and raise OPERAND_CONSTRAINT exactly outside their preconditions
(R230, R231). -/
def Obligations.FactoriesCheckTheirParts : Prop :=
  ∀ (f : Fmt) (s : State),
    let m := portA f.W s
    let e := signedOf 32 (portB 32 s)
    (0 < m ∧ m < 2 ^ f.S → Answers (exec (.fmksub f) s) s (Exact.packed f s.cin.toNat 0 m) 0 false) ∧
    (¬ (0 < m ∧ m < 2 ^ f.S) → FaultsWith (exec (.fmksub f) s) s 4) ∧
    (f.emin ≤ e ∧ e ≤ f.emax ∧ 2 ^ f.S ≤ m ∧ m < 2 ^ (f.S + 1) →
      Answers (exec (.fmknorm f) s) s (Exact.packed f s.cin.toNat (e + f.B).toNat (m - 2 ^ f.S)) 0 false) ∧
    (¬ (f.emin ≤ e ∧ e ≤ f.emax ∧ 2 ^ f.S ≤ m ∧ m < 2 ^ (f.S + 1)) → FaultsWith (exec (.fmknorm f) s) s 4)

/-- FCLASS takes apart what FMKNORM put together: significand, exponent, sign, class Normal (R226, R231). -/
def Obligations.ClassifyInvertsNormalFactory : Prop :=
  ∀ (f : Fmt) (s t u : State), exec (.fmknorm f) s = .next t → t.fault = 0 → u.a = t.res →
    Answers (exec (.fclass f) u) u (portA f.W s)
      (portB 32 s * 2 ^ 32 + s.cin.toNat * 8 + 3) false

/-- FNEG flips bit W−1 of every pattern and no other bit (R232). -/
def Obligations.NegationFlipsTheSignBit : Prop :=
  ∀ (f : Fmt) (s : State), Answers (exec (.fneg f) s) s (Exact.negate f (portA f.W s)) 0 false

/-! ### Rounding (43_fp_datapath.md R210 to R214) -/

/-- The machine's RoundPack is R211 over the rationals, for every positive magnitude. -/
def Obligations.RoundPackIsTheExactRule : Prop :=
  ∀ (f : Fmt) (s : Bool) (v : Magnitude), 0 < v.num → 0 < v.den →
    (roundPack f s v).toNat = Exact.roundPack f s.toNat ((v.num : ℚ) / v.den * 2 ^ v.exp)

/-- A magnitude rounds to infinity exactly from (2 − 2^(−S−1)) × 2^emax on, and to zero exactly up to 2^(emin−S−1), with its
sign (R212). -/
def Obligations.OverflowAndUnderflowThresholds : Prop :=
  ∀ (f : Fmt) (s : Bool) (v : Magnitude), 0 < v.num → 0 < v.den →
    let q : ℚ := (v.num : ℚ) / v.den * 2 ^ v.exp
    (roundPack f s v = infF f s ↔ (2 - 2 ^ (-(f.S : Int) - 1)) * 2 ^ f.emax ≤ q) ∧
    (roundPack f s v = zeroF f s ↔ q ≤ 2 ^ (f.emin - f.S - 1))

/-- Below the overflow threshold the rounded result is a nearest float, and of two nearest ones the even one
(00_scope.md R5, R7; R210). -/
def Obligations.RoundPackIsNearestTiesToEven : Prop :=
  ∀ (f : Fmt) (s : Bool) (v : Magnitude) (y : Nat), 0 < v.num → 0 < v.den →
    let q : ℚ := (-1) ^ s.toNat * ((v.num : ℚ) / v.den * 2 ^ v.exp)
    let r := (roundPack f s v).toNat
    |q| < (2 - 2 ^ (-(f.S : Int) - 1)) * 2 ^ f.emax → y < 2 ^ f.W → Exact.IsFinite f y →
    |Exact.val f r - q| ≤ |Exact.val f y - q| ∧
    (|Exact.val f r - q| = |Exact.val f y - q| → Exact.val f y ≠ Exact.val f r → r % 2 = 0)

/-- The rounding stage gives the exact rounding when the round-off word is the top W discarded bits with the sticky bit (R214):
here the exact significand is p / q at exponent e. -/
def Obligations.RoundUnitIsRoundPack : Prop :=
  ∀ (f : Fmt) (s : Bool) (e : Int) (p q : Nat), 0 < p → 0 < q →
    let m := p / q
    let w := p % q * 2 ^ f.W
    let r := if w % q = 0 then w / q else w / q ||| 1
    (2 ^ f.S ≤ m ∧ m < 2 ^ (f.S + 1) ∧ f.emin ≤ e ∨ e = f.emin ∧ m < 2 ^ f.S) →
    roundUnit f s e m r = roundPack f s { num := p, den := q, exp := e - f.S }

/-! ### Float arithmetic -/

/-- FADD answers R240: NaN, zero and infinity cases in the document's order, else the exact sum rounded (44_fp_addsub.md). -/
def Obligations.FloatAddResult : Prop :=
  ∀ (f : Fmt) (s : State), Answers (exec (.fadd f) s) s (Exact.add f (portA f.W s) (portB f.W s)) 0 false

/-- FSUB answers FADD of the negated right operand, NaN operands included (R241). -/
def Obligations.FloatSubtractResult : Prop :=
  ∀ (f : Fmt) (s : State), Answers (exec (.fsub f) s) s (Exact.sub f (portA f.W s) (portB f.W s)) 0 false

/-- FMUL answers R270 (45_fp_mul.md). -/
def Obligations.FloatMultiplyResult : Prop :=
  ∀ (f : Fmt) (s : State), Answers (exec (.fmul f) s) s (Exact.mul f (portA f.W s) (portB f.W s)) 0 false

/-- FDIV answers R290 (46_fp_div.md). -/
def Obligations.FloatDivideResult : Prop :=
  ∀ (f : Fmt) (s : State), Answers (exec (.fdiv f) s) s (Exact.div f (portA f.W s) (portB f.W s)) 0 false

/-- FADD and FMUL are commutative bit for bit when neither operand is a NaN (R240, R270). -/
def Obligations.AddAndMultiplyCommute : Prop :=
  ∀ (f : Fmt) (s t : State), t.a = s.b → t.b = s.a →
    ¬ Exact.IsNaN f (portA f.W s) → ¬ Exact.IsNaN f (portB f.W s) →
    responseOf (exec (.fadd f) t) = responseOf (exec (.fadd f) s) ∧
    responseOf (exec (.fmul f) t) = responseOf (exec (.fmul f) s)

/-- The result of an arithmetic operation is a NaN only when an operand is one or it is the indeterminate NaN; a conversion makes
a NaN only from a NaN (43_fp_datapath.md R220 to R222). -/
def Obligations.NoOtherNaNIsCreated : Prop :=
  ∀ (f g : Fmt) (w : Width) (n : Sgn) (s t : State),
    ((exec (.fadd f) s = .next t ∨ exec (.fsub f) s = .next t ∨ exec (.fmul f) s = .next t ∨ exec (.fdiv f) s = .next t) →
      Exact.IsNaN f t.res.toNat →
      Exact.IsNaN f (portA f.W s) ∨ Exact.IsNaN f (portB f.W s) ∨ t.res.toNat = Exact.indNaN f) ∧
    (exec (.fcvtFF f g) s = .next t → Exact.IsNaN g t.res.toNat → Exact.IsNaN f (portA f.W s)) ∧
    (exec (.fcvtFI f w n) s = .next t → ¬ Exact.IsNaN f t.res.toNat)

/-! ### Conversions (47_fp_convert.md) -/

/-- FCVT.F.F answers R310, with the NaN payload of R311. -/
def Obligations.FloatToFloatResult : Prop :=
  ∀ (f g : Fmt) (s : State),
    Answers (exec (.fcvtFF f g) s) s (Exact.convertFF f g (portA f.W s)) 0 false

/-- Widening and narrowing back is the identity on every pattern, NaNs included (R314). -/
def Obligations.WidenNarrowRoundTrip : Prop :=
  ∀ (f g : Fmt) (s t u : State), f.S < g.S → exec (.fcvtFF f g) s = .next t → u.a = t.res →
    Answers (exec (.fcvtFF g f) u) u (portA f.W s) 0 false

/-- FCVT.F.I answers the exact value of the integer, rounded; 0 gives +0 (R315). -/
def Obligations.IntegerToFloatResult : Prop :=
  ∀ (f : Fmt) (w : Width) (g : Sgn) (s : State),
    Answers (exec (.fcvtFI f w g) s) s (Exact.convertFI f (readAs g w.bits (portA w.bits s))) 0 false

/-- FCVT.I.F answers the value truncated toward zero, or the sentinel that the build parameter selects (R320, R322). -/
def Obligations.FloatToIntegerResult : Prop :=
  ∀ (f : Fmt) (w : Width) (g : Sgn) (s : State),
    Answers (exec (.fcvtIF f w g) s) s (Exact.convertIF s.cfg.emulateIntel f g w.bits (portA f.W s)) 0 false

/-- An integer of magnitude at most 2^(S+1) survives the way to float and back, in either build (R317). -/
def Obligations.IntegerRoundTrip : Prop :=
  ∀ (f : Fmt) (w : Width) (g : Sgn) (s t u : State),
    (readAs g w.bits (portA w.bits s)).natAbs ≤ 2 ^ (f.S + 1) →
    exec (.fcvtFI f w g) s = .next t → u.a = t.res →
    Answers (exec (.fcvtIF f w g) u) u (portA w.bits s) 0 false

/-! ### Float comparisons (48_fp_compare.md) -/

/-- The six float comparisons are the order of the values, with the infinities at the ends and +0 = −0; a NaN makes FEQ, FLT, FLE,
FGT and FGE false and FNE true (R340 to R346). -/
def Obligations.FloatComparisonsAreByValue : Prop :=
  ∀ (f : Fmt) (s : State),
    let x := portA f.W s
    let y := portB f.W s
    AnswersTruth (exec (.feq f) s) s (Exact.Equal f x y) ∧
    AnswersTruth (exec (.fne f) s) s (¬ Exact.Equal f x y) ∧
    AnswersTruth (exec (.flt f) s) s (Exact.Less f x y) ∧
    AnswersTruth (exec (.fle f) s) s (Exact.Less f x y ∨ Exact.Equal f x y) ∧
    AnswersTruth (exec (.fgt f) s) s (Exact.Less f y x) ∧
    AnswersTruth (exec (.fge f) s) s (Exact.Less f y x ∨ Exact.Equal f y x)

/-- At most one of FLT, FEQ and FGT is 1, exactly one when neither operand is a NaN; FLE is FLT or FEQ and FGE is FGT or FEQ; with
a NaN all five are 0 and FNE is 1 (R347). -/
def Obligations.FloatComparisonConsistency : Prop :=
  ∀ (f : Fmt) (s : State),
    let lt := flagOf (exec (.flt f) s)
    let eq := flagOf (exec (.feq f) s)
    let gt := flagOf (exec (.fgt f) s)
    let nan := Exact.IsNaN f (portA f.W s) ∨ Exact.IsNaN f (portB f.W s)
    (¬ nan → lt.toNat + eq.toNat + gt.toNat = 1) ∧
    flagOf (exec (.fle f) s) = (lt || eq) ∧ flagOf (exec (.fge f) s) = (gt || eq) ∧
    flagOf (exec (.fne f) s) = !eq ∧
    (nan → lt = false ∧ eq = false ∧ gt = false)

/-! ### The float datapath stages (43_fp_datapath.md R216) -/

/-- The adder's stages compute the exact sum rounded (44_fp_addsub.md R242 to R248). The bound on the loop of R246, W steps of fuel,
is the model's (DEDUCED, log 14). -/
def Obligations.AdderStagesAreExact : Prop :=
  ∀ (f : Fmt) (x y : BitVec f.W), addStaged f x y = addF f x y

/-- The multiplier's stages compute the exact product rounded (45_fp_mul.md R271 to R275). The pre-shift of R272 is applied to the
product and not to one factor (DEDUCED, log 15). -/
def Obligations.MultiplierStagesAreExact : Prop :=
  ∀ (f : Fmt) (x y : BitVec f.W), mulStaged f x y = mulF f x y

/-- The divider's stages compute the exact quotient rounded (46_fp_div.md R291 to R296). The pre-shift of R293 is taken at most once
(DEDUCED, log 9). -/
def Obligations.DividerStagesAreExact : Prop :=
  ∀ (f : Fmt) (x y : BitVec f.W), divStaged f x y = divF f x y

/-- The converters' stages compute the exact conversions (47_fp_convert.md R312, R313, R316, R321). -/
def Obligations.ConverterStagesAreExact : Prop :=
  ∀ (f g : Fmt) (c : Config) (w : Width) (n : Sgn) (x : BitVec f.W) (v : Int), v.natAbs < 2 ^ 128 →
    convertFFStaged f g x = convertFF f g x ∧ convertFIStaged f v = convertFI f v ∧
    convertIFStaged c f w n x = convertIF c f w n x

/-! ### Requesters and bytes -/

/-- The response to a request is the same whatever requests, of whatever requesters, were served before it, and the same as after
a reset (10_state.md R30; 20_memory.md R66; 70_reset_and_hazards.md R390). That requests are served one after another is the model's
choice (log 8); a request that reads an unassigned value gives none, in either place (log 7). -/
def Obligations.ResponsesAreIndependentOfOrder : Prop :=
  ∀ (rs : List Request) (s : State), serve rs s = rs.map (respond s.cfg)

/-- A requester's run completes exactly when each of its requests was accepted and answered with FAULT = 0: a fault is terminal for
it (60_exceptions.md R361). That `session` stops there, and after a request turned away,
is the model's choice (log 5, log 17). -/
def Obligations.FaultIsTerminalForItsRequester : Prop :=
  ∀ (rs : List Request) (s : State),
    (∃ t, session rs s = .next t) ↔ ∀ o ∈ serve rs s, ∃ r, o = some r ∧ r.fault = 0

/-- A request is turned away exactly when its word is legal and the operation reads a port whose value was never assigned
(10_state.md R43; 60_exceptions.md R362). -/
def Obligations.IndeterminateOperandIsRefused : Prop :=
  ∀ (r : Request) (s : State),
    perform r s = .refused .indeterminateOperand ↔
      ∃ i, decode r.opw = .ok i ∧
        ((portUse i).aBits ≠ 0 ∧ r.a = none ∨ (portUse i).bBits ≠ 0 ∧ r.b = none ∨ (portUse i).cin = true ∧ r.cin = none)

/-- The byte view is little-endian: byte k holds bits [8k+7:8k], and the bytes give the value back (20_memory.md R61). -/
def Obligations.ByteViewIsLittleEndian : Prop :=
  ∀ (n : Nat) (x : Port), n ≤ 16 →
    (∀ k, k < n → ((bytesOf n x)[k]?).map BitVec.toNat = some (x.toNat / 2 ^ (8 * k) % 2 ^ 8)) ∧
    ofBytes (bytesOf n x) = x.toNat % 2 ^ (8 * n)
end

