-- ==== Sys2Proof/Laws/State.lean ====
section
/-! SUPPORT. One lemma per field of State per update: what a response, a fault and a new operation word leave in each field. -/

namespace Sys2Proof.Machine

/-! ### A completed response -/

@[simp] theorem answer_opw (r h : Port) (fl : Bool) (s : State) : (answer r h fl s).opw = s.opw := rfl
@[simp] theorem answer_a (r h : Port) (fl : Bool) (s : State) : (answer r h fl s).a = s.a := rfl
@[simp] theorem answer_b (r h : Port) (fl : Bool) (s : State) : (answer r h fl s).b = s.b := rfl
@[simp] theorem answer_cin (r h : Port) (fl : Bool) (s : State) : (answer r h fl s).cin = s.cin := rfl
@[simp] theorem answer_res (r h : Port) (fl : Bool) (s : State) : (answer r h fl s).res = r := rfl
@[simp] theorem answer_resHi (r h : Port) (fl : Bool) (s : State) : (answer r h fl s).resHi = h := rfl
@[simp] theorem answer_flag (r h : Port) (fl : Bool) (s : State) : (answer r h fl s).flag = fl := rfl
@[simp] theorem answer_fault (r h : Port) (fl : Bool) (s : State) : (answer r h fl s).fault = 0 := rfl
@[simp] theorem answer_cfg (r h : Port) (fl : Bool) (s : State) : (answer r h fl s).cfg = s.cfg := rfl

/-! ### A fault -/

@[simp] theorem raise_opw (c : FaultCode) (s : State) : (raise c s).opw = s.opw := rfl
@[simp] theorem raise_a (c : FaultCode) (s : State) : (raise c s).a = s.a := rfl
@[simp] theorem raise_b (c : FaultCode) (s : State) : (raise c s).b = s.b := rfl
@[simp] theorem raise_cin (c : FaultCode) (s : State) : (raise c s).cin = s.cin := rfl
@[simp] theorem raise_res (c : FaultCode) (s : State) : (raise c s).res = 0 := rfl
@[simp] theorem raise_resHi (c : FaultCode) (s : State) : (raise c s).resHi = 0 := rfl
@[simp] theorem raise_flag (c : FaultCode) (s : State) : (raise c s).flag = false := rfl
@[simp] theorem raise_fault (c : FaultCode) (s : State) : (raise c s).fault = faultCode c := rfl
@[simp] theorem raise_cfg (c : FaultCode) (s : State) : (raise c s).cfg = s.cfg := rfl

/-! ### A new operation word -/

@[simp] theorem withFetchWord_opw (s : State) (n w : Nat) : (s.withFetchWord n w).opw = wordOfBits n w := rfl
@[simp] theorem withFetchWord_a (s : State) (n w : Nat) : (s.withFetchWord n w).a = s.a := rfl
@[simp] theorem withFetchWord_b (s : State) (n w : Nat) : (s.withFetchWord n w).b = s.b := rfl
@[simp] theorem withFetchWord_cin (s : State) (n w : Nat) : (s.withFetchWord n w).cin = s.cin := rfl
@[simp] theorem withFetchWord_cfg (s : State) (n w : Nat) : (s.withFetchWord n w).cfg = s.cfg := rfl
@[simp] theorem withFetchWord_response (s : State) (n w : Nat) : (s.withFetchWord n w).response = s.response := rfl

/-! ### Reset -/

@[simp] theorem resetOf_cfg (c : Config) : (State.resetOf c).cfg = c := rfl

end Sys2Proof.Machine
end

