-- ==== Sys2Proof/Laws/Ops.lean ====
section
/-! SUPPORT. The lemmas of the shared operations: patterns and numbers, the bit scan, the widths, and everything an operation can
answer. -/

namespace Sys2Proof

/-! ### Widths and formats -/

theorem Width.bits_pos (w : Width) : 0 < w.bits := by cases w <;> decide
theorem Width.bits_le (w : Width) : w.bits ≤ 128 := by cases w <;> decide
theorem Width.bits_ge (w : Width) : 8 ≤ w.bits := by cases w <;> decide

namespace Fmt

theorem W_le (f : Fmt) : f.W ≤ 128 := by cases f <;> decide
theorem W_eq (f : Fmt) : f.W = f.S + f.E + 1 := by cases f <;> rfl
theorem W_pred (f : Fmt) : f.W - 1 = f.S + f.E := by cases f <;> rfl
theorem W_ge (f : Fmt) : 16 ≤ f.W := by cases f <;> decide
theorem S_ge (f : Fmt) : 10 ≤ f.S := by cases f <;> decide
theorem S_le (f : Fmt) : f.S ≤ 52 := by cases f <;> decide
theorem E_ge (f : Fmt) : 5 ≤ f.E := by cases f <;> decide
theorem S_add_two_le_W (f : Fmt) : f.S + 2 ≤ f.W := by cases f <;> decide
theorem S_succ_le_emax (f : Fmt) : (f.S : Int) + 1 ≤ f.emax := by cases f <;> decide
theorem B_pos (f : Fmt) : 0 < f.B := by cases f <;> decide
/-- The largest biased exponent of a Normal is 2B. -/
theorem two_B (f : Fmt) : 2 * f.B + 1 = 2 ^ f.E - 1 := by cases f <;> rfl
theorem two_pow_E (f : Fmt) : 2 ^ f.E = 2 * f.B + 2 := by cases f <;> rfl
theorem emin_eq (f : Fmt) : f.emin = 1 - (f.B : Int) := rfl
theorem emax_eq (f : Fmt) : f.emax = (f.B : Int) := rfl

end Fmt

namespace Machine

/-! ### Patterns and numbers (00_scope.md R15) -/

theorem uval_lt {n : Nat} (x : BitVec n) : uval x < 2 ^ n := x.isLt

/-- `sval` is the two's-complement reading of the library. -/
theorem sval_eq_toInt {n : Nat} (x : BitVec n) : sval x = x.toInt := by
  unfold sval
  rw [BitVec.toInt_eq_msb_cond, BitVec.msb_eq_getLsbD_last]
  simp

theorem sval_lower {n : Nat} (x : BitVec n) : -2 ^ (n - 1) ≤ sval x := by
  rw [sval_eq_toInt]; exact BitVec.le_toInt x

theorem sval_upper {n : Nat} (x : BitVec n) : sval x < 2 ^ (n - 1) := by
  rw [sval_eq_toInt]; exact BitVec.toInt_lt

@[simp] theorem pattern_toNat (n : Nat) (v : Int) : (pattern n v).toNat = (v % 2 ^ n).toNat := by
  simp [pattern, BitVec.toNat_ofInt]

/-- Writing a result of at most 128 bits to a port keeps its value (10_state.md R35). -/
theorem zextPort_toNat {n : Nat} (h : n ≤ 128) (x : BitVec n) : (zextPort x).toNat = x.toNat := by
  unfold zextPort
  rw [BitVec.toNat_setWidth]
  exact Nat.mod_eq_of_lt (lt_of_lt_of_le x.isLt (Nat.pow_le_pow_right (by decide) h))

@[simp] theorem truth_toNat (t : Bool) : (truth t).toNat = t.toNat := by cases t <;> rfl

@[simp] theorem operandA_toNat (n : Nat) (s : State) : (operandA n s).toNat = s.a.toNat % 2 ^ n := by
  simp [operandA]

@[simp] theorem operandB_toNat (n : Nat) (s : State) : (operandB n s).toNat = s.b.toNat % 2 ^ n := by
  simp [operandB]

/-- Two states whose low `n` bits of port A agree give the same operand (10_state.md R34). -/
theorem operandA_congr {n : Nat} {s t : State} (h : s.a.toNat % 2 ^ n = t.a.toNat % 2 ^ n) :
    operandA n s = operandA n t := BitVec.eq_of_toNat_eq (by simpa using h)

theorem operandB_congr {n : Nat} {s t : State} (h : s.b.toNat % 2 ^ n = t.b.toNat % 2 ^ n) :
    operandB n s = operandB n t := BitVec.eq_of_toNat_eq (by simpa using h)

/-! ### The bit scan (41_int_shift_scan.md R163) -/

/-- None exactly for a number whose low `n` bits are all 0. -/
theorem highestSet_none {n x : Nat} (hx : x < 2 ^ n) : highestSet n x = none ↔ x = 0 := by
  induction n generalizing x with
  | zero => simp [highestSet]; omega
  | succ n ih =>
    unfold highestSet
    by_cases hb : x.testBit n = true
    · have : x ≠ 0 := by rintro rfl; simp at hb
      simp [hb, this]
    · have hlt : x < 2 ^ n := by
        by_contra hge
        have h2 : x / 2 ^ n = 1 := by
          apply Nat.div_eq_of_lt_le <;> omega
        exact hb (by rw [Nat.testBit_eq_decide_div_mod_eq]; simp [h2])
      simp [hb, ih hlt]

/-- The index found bounds the number from both sides. -/
theorem highestSet_some {n x k : Nat} (hx : x < 2 ^ n) (h : highestSet n x = some k) :
    k < n ∧ 2 ^ k ≤ x ∧ x < 2 ^ (k + 1) := by
  induction n generalizing x with
  | zero => simp [highestSet] at h
  | succ n ih =>
    unfold highestSet at h
    by_cases hb : x.testBit n = true
    · simp only [hb, if_true, Option.some.injEq] at h
      subst h
      exact ⟨Nat.lt_succ_self _, Nat.ge_two_pow_of_testBit hb, hx⟩
    · have hlt : x < 2 ^ n := by
        by_contra hge
        have h2 : x / 2 ^ n = 1 := by
          apply Nat.div_eq_of_lt_le <;> omega
        exact hb (by rw [Nat.testBit_eq_decide_div_mod_eq]; simp [h2])
      simp only [hb] at h
      obtain ⟨h1, h2⟩ := ih hlt (by simpa using h)
      exact ⟨by omega, h2⟩

/-- A number that is not 0 has a highest set bit. -/
theorem highestSet_of_pos {n x : Nat} (hx : x < 2 ^ n) (h0 : x ≠ 0) :
    ∃ k, highestSet n x = some k ∧ k < n ∧ 2 ^ k ≤ x ∧ x < 2 ^ (k + 1) := by
  cases h : highestSet n x with
  | none => exact absurd ((highestSet_none hx).1 h) h0
  | some k => exact ⟨k, rfl, highestSet_some hx h⟩

/-! ### Everything an operation can answer -/

/-- An operation answers a completed response or a fault response, and in either case a next state. -/
theorem exec_answers_or_raises (i : Instr) (s : State) :
    (∃ r h fl, exec i s = .next (answer r h fl s)) ∨ (∃ c, exec i s = .next (raise c s)) := by
  cases i with
  | idiv w g =>
    simp only [exec, execIdiv]
    split
    · exact .inr ⟨_, rfl⟩
    · exact .inl ⟨_, _, _, rfl⟩
  | irem w g =>
    simp only [exec, execIrem]
    split
    · exact .inr ⟨_, rfl⟩
    · exact .inl ⟨_, _, _, rfl⟩
  | ishl w g =>
    simp only [exec, execIshl]
    split
    · exact .inr ⟨_, rfl⟩
    · exact .inl ⟨_, _, _, rfl⟩
  | ishr w g =>
    simp only [exec, execIshr]
    split
    · exact .inr ⟨_, rfl⟩
    · exact .inl ⟨_, _, _, rfl⟩
  | fmksub f =>
    simp only [exec, execFmksub]
    split
    · exact .inl ⟨_, _, _, rfl⟩
    · exact .inr ⟨_, rfl⟩
  | fmknorm f =>
    simp only [exec, execFmknorm]
    split
    · exact .inl ⟨_, _, _, rfl⟩
    · exact .inr ⟨_, rfl⟩
  | _ => exact .inl ⟨_, _, _, rfl⟩

end Machine
end Sys2Proof
end

