-- ==== Sys2Proof/Laws/Answers.lean ====
section
/-! SUPPORT. The shared operations in the terms of the statements: what each completion answers, and operands as numbers. -/

namespace Sys2Proof.Machine

open Sys2Proof.Safety

/-! ### Operands as numbers -/

theorem portA_lt (n : Nat) (s : State) : portA n s < 2 ^ n := Nat.mod_lt _ (by positivity)
theorem portB_lt (n : Nat) (s : State) : portB n s < 2 ^ n := Nat.mod_lt _ (by positivity)

@[simp] theorem uval_operandA (n : Nat) (s : State) : uval (operandA n s) = portA n s := operandA_toNat n s
@[simp] theorem uval_operandB (n : Nat) (s : State) : uval (operandB n s) = portB n s := operandB_toNat n s

/-- `sval` in the form the statements use. -/
theorem sval_eq_signedOf {n : Nat} (hn : 0 < n) (x : BitVec n) : sval x = signedOf n x.toNat := by
  unfold sval signedOf
  have h2 : 2 ^ n = 2 * 2 ^ (n - 1) := by rw [← pow_succ']; congr 1; omega
  have hx := x.isLt
  have hbit : x.getLsbD (n - 1) = true ↔ ¬ x.toNat < 2 ^ (n - 1) := by
    rw [BitVec.getLsbD, Nat.testBit_eq_decide_div_mod_eq, decide_eq_true_iff, not_lt]
    constructor
    · intro h
      by_contra hlt
      rw [Nat.div_eq_of_lt (by omega)] at h
      simp at h
    · intro h
      have : x.toNat / 2 ^ (n - 1) = 1 := by apply Nat.div_eq_of_lt_le <;> omega
      rw [this]
  by_cases h : x.toNat < 2 ^ (n - 1)
  · have hf : x.getLsbD (n - 1) = false := by simpa using mt hbit.1 (not_not.2 h)
    simp [h, hf]
  · simp [h, hbit.2 h]

theorem ival_eq_readAs {n : Nat} (hn : 0 < n) (g : Sgn) (x : BitVec n) : ival g x = readAs g n x.toNat := by
  cases g with
  | unsigned => rfl
  | signed => exact sval_eq_signedOf hn x

theorem ival_operandA (w : Width) (g : Sgn) (s : State) :
    ival g (operandA w.bits s) = readAs g w.bits (portA w.bits s) := by
  rw [ival_eq_readAs w.bits_pos, operandA_toNat]; rfl

theorem ival_operandB (w : Width) (g : Sgn) (s : State) :
    ival g (operandB w.bits s) = readAs g w.bits (portB w.bits s) := by
  rw [ival_eq_readAs w.bits_pos, operandB_toNat]; rfl

theorem pattern_eq_wrap (n : Nat) (v : Int) : (pattern n v).toNat = wrap n v := pattern_toNat n v

theorem wrap_lt (n : Nat) (v : Int) : wrap n v < 2 ^ n := by
  unfold wrap
  have h : (0 : Int) < 2 ^ n := by positivity
  have := Int.emod_lt_of_pos v h
  have := Int.emod_nonneg v h.ne'
  zify
  rw [Int.toNat_of_nonneg this]
  assumption

/-- `wrap` of a natural number is the remainder. -/
theorem wrap_natCast (n v : Nat) : wrap n (v : Int) = v % 2 ^ n := by
  unfold wrap
  rw [show ((2 : Int) ^ n) = ((2 ^ n : Nat) : Int) by push_cast; rfl, ← Int.natCast_emod, Int.toNat_natCast]

/-! ### Reading and wrapping -/

theorem two_pow_cast (n : Nat) : ((2 : Int) ^ n) = ((2 ^ n : Nat) : Int) := by push_cast; rfl

/-- The range of an N-bit number read with a signedness. -/
theorem readAs_bounds {g : Sgn} {n v : Nat} (hn : 0 < n) (hv : v < 2 ^ n) :
    (g = .signed → -2 ^ (n - 1) ≤ readAs g n v ∧ readAs g n v < 2 ^ (n - 1)) ∧
    (g = .unsigned → 0 ≤ readAs g n v ∧ readAs g n v < 2 ^ n) := by
  have h2 : 2 ^ n = 2 * 2 ^ (n - 1) := by rw [← pow_succ']; congr 1; omega
  constructor
  · rintro rfl
    simp only [readAs, signedOf]
    split
    · rename_i h; constructor
      · have : (0 : Int) < 2 ^ (n - 1) := by positivity
        omega
      · exact_mod_cast h
    · rename_i h
      have e1 : ((2 : Int) ^ n) = ((2 ^ n : Nat) : Int) := two_pow_cast n
      have e2 : ((2 : Int) ^ (n - 1)) = ((2 ^ (n - 1) : Nat) : Int) := two_pow_cast _
      rw [e1, e2]; omega
  · rintro rfl
    simp only [readAs]
    exact ⟨by positivity, by exact_mod_cast hv⟩

/-- Reading and wrapping back is the identity. -/
theorem wrap_readAs (g : Sgn) (n v : Nat) (hv : v < 2 ^ n) : wrap n (readAs g n v) = v := by
  have key : ∀ k : Int, wrap n ((v : Int) + k * 2 ^ n) = v := by
    intro k
    unfold wrap
    rw [Int.add_mul_emod_self_right]
    have := wrap_natCast n v
    unfold wrap at this
    rw [this, Nat.mod_eq_of_lt hv]
  cases g with
  | unsigned => simpa [readAs] using key 0
  | signed =>
    simp only [readAs, signedOf]
    split
    · simpa using key 0
    · have := key (-1)
      rwa [neg_one_mul, ← sub_eq_add_neg] at this

/-- A number in range is read back from its wrapped form. -/
theorem readAs_wrap_of_range {g : Sgn} {n : Nat} (hn : 0 < n) {v : Int}
    (h : match g with | .signed => -2 ^ (n - 1) ≤ v ∧ v < 2 ^ (n - 1) | .unsigned => 0 ≤ v ∧ v < 2 ^ n) :
    readAs g n (wrap n v) = v := by
  have h2 : (2 : Int) ^ n = 2 * 2 ^ (n - 1) := by rw [← pow_succ']; congr 1; omega
  have e2 : ((2 : Int) ^ (n - 1)) = ((2 ^ (n - 1) : Nat) : Int) := two_pow_cast _
  cases g with
  | unsigned =>
    simp only [readAs] at *
    unfold wrap
    rw [Int.emod_eq_of_lt h.1 h.2, Int.toNat_of_nonneg h.1]
  | signed =>
    simp only [readAs, signedOf] at *
    unfold wrap
    rcases lt_or_ge v 0 with hv | hv
    · have : v % 2 ^ n = v + 2 ^ n := by
        rw [← Int.add_emod_right, Int.emod_eq_of_lt] <;> omega
      rw [this]
      split
      · rename_i hh; omega
      · omega
    · rw [Int.emod_eq_of_lt hv (by omega)]
      split
      · omega
      · omega

theorem wrap_mod (n : Nat) (v : Int) : ((wrap n v : Nat) : Int) % 2 ^ n = v % 2 ^ n := by
  unfold wrap
  rw [Int.toNat_of_nonneg (Int.emod_nonneg _ (by positivity))]
  simp

/-- Reading with either signedness keeps the number mod 2^N. -/
theorem readAs_mod (g : Sgn) (n v : Nat) : readAs g n v % 2 ^ n = (v : Int) % 2 ^ n := by
  cases g with
  | unsigned => rfl
  | signed =>
    simp only [readAs, signedOf]; split
    · rfl
    · simp

/-! ### What each completion answers -/

theorem sameInputs_answer (r h : Port) (fl : Bool) (s : State) : SameInputs s (answer r h fl s) := ⟨rfl, rfl, rfl, rfl, rfl⟩
theorem sameInputs_raise (c : FaultCode) (s : State) : SameInputs s (raise c s) := ⟨rfl, rfl, rfl, rfl, rfl⟩

theorem completeRes_answers {n v : Nat} (hn : n ≤ 128) {r : BitVec n} (s : State) (h : r.toNat = v) :
    Answers (completeRes r s) s v 0 false :=
  ⟨_, rfl, by simp [zextPort_toNat hn, h], rfl, rfl, rfl, sameInputs_answer ..⟩

theorem completeResFlag_answers {n v : Nat} {fl' : Bool} (hn : n ≤ 128) {r : BitVec n} {fl : Bool} (s : State)
    (h : r.toNat = v) (hf : fl = fl') : Answers (completeResFlag r fl s) s v 0 fl' :=
  ⟨_, rfl, by simp [zextPort_toNat hn, h], rfl, hf, rfl, sameInputs_answer ..⟩

theorem completeResHi_answers {n m v u : Nat} (hn : n ≤ 128) (hm : m ≤ 128) {r : BitVec n} {hi : BitVec m} (s : State)
    (h : r.toNat = v) (hh : hi.toNat = u) : Answers (completeResHi r hi s) s v u false :=
  ⟨_, rfl, by simp [zextPort_toNat hn, h], by simp [zextPort_toNat hm, hh], rfl, rfl, sameInputs_answer ..⟩

/-- A truth value answers the proposition it decides. -/
theorem completeTruth_answers {t : Bool} {P : Prop} (h : t = true ↔ P) (s : State) : AnswersTruth (completeTruth t s) s P := by
  refine ⟨fun hp => ?_, fun hp => ?_⟩
  · have : t = true := h.2 hp
    subst this
    exact ⟨_, rfl, rfl, rfl, rfl, rfl, sameInputs_answer ..⟩
  · have : t = false := by cases t <;> simp_all
    subst this
    exact ⟨_, rfl, rfl, rfl, rfl, rfl, sameInputs_answer ..⟩

theorem completeFault_faults (c : FaultCode) (s : State) : FaultsWith (completeFault c s) s (faultCode c).toNat :=
  ⟨_, rfl, rfl, rfl, rfl, rfl, sameInputs_raise ..⟩

/-- What `Answers` says of a next state. -/
theorem answers_of_next {o : Host.Outcome State Fault Refusal} {s t : State} {r h : Nat} {fl : Bool}
    (ha : Answers o s r h fl) (ht : o = .next t) : t.res.toNat = r ∧ t.resHi.toNat = h ∧ t.flag = fl ∧ t.fault = 0 := by
  obtain ⟨u, hu, h1, h2, h3, h4, -⟩ := ha
  rw [hu] at ht
  cases ht
  exact ⟨h1, h2, h3, h4⟩

/-! ### The quotient and the remainder (40_int_arith.md R125, R126) -/

/-- The quotient of R125 is truncated toward zero. -/
theorem quotient_eq_tdiv {n : Nat} (g : Sgn) (a b : BitVec n) : quotient g a b = Int.tdiv (ival g a) (ival g b) := by
  cases g with
  | unsigned => simp [quotient, ival]
  | signed =>
    simp only [quotient, ival]
    generalize sval a = x
    generalize sval b = y
    have key : ∀ p q : Nat, (Int.tdiv (p : Int) q) = ((p / q : Nat) : Int) := fun p q => rfl
    rcases lt_or_ge x 0 with hx | hx <;> rcases lt_or_ge y 0 with hy | hy
    · obtain ⟨p, rfl⟩ : ∃ p : Nat, x = -(p : Int) := ⟨x.natAbs, by omega⟩
      obtain ⟨q, rfl⟩ : ∃ q : Nat, y = -(q : Int) := ⟨y.natAbs, by omega⟩
      rw [decide_eq_true hx, decide_eq_true hy, Int.neg_tdiv, Int.tdiv_neg, key]
      simp
    · obtain ⟨p, rfl⟩ : ∃ p : Nat, x = -(p : Int) := ⟨x.natAbs, by omega⟩
      obtain ⟨q, rfl⟩ : ∃ q : Nat, y = (q : Int) := ⟨y.natAbs, by omega⟩
      rw [decide_eq_true hx, decide_eq_false (not_lt.2 hy), Int.neg_tdiv, key]
      simp
    · obtain ⟨p, rfl⟩ : ∃ p : Nat, x = (p : Int) := ⟨x.natAbs, by omega⟩
      obtain ⟨q, rfl⟩ : ∃ q : Nat, y = -(q : Int) := ⟨y.natAbs, by omega⟩
      rw [decide_eq_false (not_lt.2 hx), decide_eq_true hy, Int.tdiv_neg, key]
      simp
    · obtain ⟨p, rfl⟩ : ∃ p : Nat, x = (p : Int) := ⟨x.natAbs, by omega⟩
      obtain ⟨q, rfl⟩ : ∃ q : Nat, y = (q : Int) := ⟨y.natAbs, by omega⟩
      rw [decide_eq_false (not_lt.2 hx), decide_eq_false (not_lt.2 hy), key]
      simp

theorem remainder_eq_tmod {n : Nat} (g : Sgn) (a b : BitVec n) : remainder g a b = Int.tmod (ival g a) (ival g b) := by
  unfold remainder
  rw [quotient_eq_tdiv, Int.tmod_def, mul_comm]

end Sys2Proof.Machine
end

