-- ==== Sys2Proof/Laws/PerInstr.lean ====
section
/-! SUPPORT. Per operation: its word has the mask and match that its row of spec/opcode_table.json gives. -/

namespace Sys2Proof.Laws.MaskMatch

/-- A row's `mask` and `match`. -/
structure Row where
  mask : Word
  value : Word
  deriving DecidableEq, Repr

/-- The row of each operation, copied from spec/opcode_table.json (30_encoding.md R87). -/
def row : Instr → Row
  | .iadd _ _ => ⟨0xFFFF0FFF#32, 0x00000001#32⟩
  | .isub _ _ => ⟨0xFFFF0FFF#32, 0x00000002#32⟩
  | .imul _ _ => ⟨0xFFFF0FFF#32, 0x00000003#32⟩
  | .idiv _ _ => ⟨0xFFFF0FFF#32, 0x00000004#32⟩
  | .irem _ _ => ⟨0xFFFF0FFF#32, 0x00000005#32⟩
  | .ineg _ _ => ⟨0xFFFF0FFF#32, 0x00000006#32⟩
  | .iinc _ _ => ⟨0xFFFF0FFF#32, 0x00000007#32⟩
  | .idec _ _ => ⟨0xFFFF0FFF#32, 0x00000008#32⟩
  | .ilnot _ _ => ⟨0xFFFF0FFF#32, 0x00000009#32⟩
  | .inot _ _ => ⟨0xFFFF0FFF#32, 0x0000000A#32⟩
  | .ibool _ _ => ⟨0xFFFF0FFF#32, 0x0000000B#32⟩
  | .ishl _ _ => ⟨0xFFFF0FFF#32, 0x0000000C#32⟩
  | .ishr _ _ => ⟨0xFFFF0FFF#32, 0x0000000D#32⟩
  | .ieq _ _ => ⟨0xFFFF0FFF#32, 0x0000000E#32⟩
  | .ine _ _ => ⟨0xFFFF0FFF#32, 0x0000000F#32⟩
  | .ilt _ _ => ⟨0xFFFF0FFF#32, 0x00000010#32⟩
  | .ile _ _ => ⟨0xFFFF0FFF#32, 0x00000011#32⟩
  | .igt _ _ => ⟨0xFFFF0FFF#32, 0x00000012#32⟩
  | .ige _ _ => ⟨0xFFFF0FFF#32, 0x00000013#32⟩
  | .iadc _ _ => ⟨0xFFFF0FFF#32, 0x00000014#32⟩
  | .isbb _ _ => ⟨0xFFFF0FFF#32, 0x00000015#32⟩
  | .imulx _ _ => ⟨0xFFFF0FFF#32, 0x00000016#32⟩
  | .ibsr _ _ => ⟨0xFFFF0FFF#32, 0x00000017#32⟩
  | .icvt _ _ _ => ⟨0xFFF80FFF#32, 0x00000018#32⟩
  | .fclass _ => ⟨0xFFFFFCFF#32, 0x00000040#32⟩
  | .fmkzero _ => ⟨0xFFFFFCFF#32, 0x00000041#32⟩
  | .fmkinf _ => ⟨0xFFFFFCFF#32, 0x00000042#32⟩
  | .fmknan _ => ⟨0xFFFFFCFF#32, 0x00000043#32⟩
  | .fmksub _ => ⟨0xFFFFFCFF#32, 0x00000044#32⟩
  | .fmknorm _ => ⟨0xFFFFFCFF#32, 0x00000045#32⟩
  | .fneg _ => ⟨0xFFFFFCFF#32, 0x00000046#32⟩
  | .fadd _ => ⟨0xFFFFFCFF#32, 0x00000047#32⟩
  | .fsub _ => ⟨0xFFFFFCFF#32, 0x00000048#32⟩
  | .fmul _ => ⟨0xFFFFFCFF#32, 0x00000049#32⟩
  | .fdiv _ => ⟨0xFFFFFCFF#32, 0x0000004A#32⟩
  | .fcvtFF _ _ => ⟨0xFFFFF0FF#32, 0x0000004B#32⟩
  | .fcvtFI _ _ _ => ⟨0xFFFF0CFF#32, 0x0000004C#32⟩
  | .fcvtIF _ _ _ => ⟨0xFFFF0CFF#32, 0x0000004D#32⟩
  | .feq _ => ⟨0xFFFFFCFF#32, 0x0000004E#32⟩
  | .fne _ => ⟨0xFFFFFCFF#32, 0x0000004F#32⟩
  | .flt _ => ⟨0xFFFFFCFF#32, 0x00000050#32⟩
  | .fle _ => ⟨0xFFFFFCFF#32, 0x00000051#32⟩
  | .fgt _ => ⟨0xFFFFFCFF#32, 0x00000052#32⟩
  | .fge _ => ⟨0xFFFFFCFF#32, 0x00000053#32⟩

/-- The word of the operation matches its own row: `(OPW & mask) = match` (R87). -/
def Statement (i : Instr) : Prop := encode i &&& (row i).mask = (row i).value

theorem iadd (w : Width) (g : Sgn) : Statement (.iadd w g) := by
  cases w <;> cases g <;> rfl

theorem isub (w : Width) (g : Sgn) : Statement (.isub w g) := by
  cases w <;> cases g <;> rfl

theorem imul (w : Width) (g : Sgn) : Statement (.imul w g) := by
  cases w <;> cases g <;> rfl

theorem idiv (w : Width) (g : Sgn) : Statement (.idiv w g) := by
  cases w <;> cases g <;> rfl

theorem irem (w : Width) (g : Sgn) : Statement (.irem w g) := by
  cases w <;> cases g <;> rfl

theorem ineg (w : Width) (g : Sgn) : Statement (.ineg w g) := by
  cases w <;> cases g <;> rfl

theorem iinc (w : Width) (g : Sgn) : Statement (.iinc w g) := by
  cases w <;> cases g <;> rfl

theorem idec (w : Width) (g : Sgn) : Statement (.idec w g) := by
  cases w <;> cases g <;> rfl

theorem ilnot (w : Width) (g : Sgn) : Statement (.ilnot w g) := by
  cases w <;> cases g <;> rfl

theorem inot (w : Width) (g : Sgn) : Statement (.inot w g) := by
  cases w <;> cases g <;> rfl

theorem ibool (w : Width) (g : Sgn) : Statement (.ibool w g) := by
  cases w <;> cases g <;> rfl

theorem ishl (w : Width) (g : Sgn) : Statement (.ishl w g) := by
  cases w <;> cases g <;> rfl

theorem ishr (w : Width) (g : Sgn) : Statement (.ishr w g) := by
  cases w <;> cases g <;> rfl

theorem ieq (w : Width) (g : Sgn) : Statement (.ieq w g) := by
  cases w <;> cases g <;> rfl

theorem ine (w : Width) (g : Sgn) : Statement (.ine w g) := by
  cases w <;> cases g <;> rfl

theorem ilt (w : Width) (g : Sgn) : Statement (.ilt w g) := by
  cases w <;> cases g <;> rfl

theorem ile (w : Width) (g : Sgn) : Statement (.ile w g) := by
  cases w <;> cases g <;> rfl

theorem igt (w : Width) (g : Sgn) : Statement (.igt w g) := by
  cases w <;> cases g <;> rfl

theorem ige (w : Width) (g : Sgn) : Statement (.ige w g) := by
  cases w <;> cases g <;> rfl

theorem iadc (w : Width) (g : Sgn) : Statement (.iadc w g) := by
  cases w <;> cases g <;> rfl

theorem isbb (w : Width) (g : Sgn) : Statement (.isbb w g) := by
  cases w <;> cases g <;> rfl

theorem imulx (w : Width) (g : Sgn) : Statement (.imulx w g) := by
  cases w <;> cases g <;> rfl

theorem ibsr (w : Width) (g : Sgn) : Statement (.ibsr w g) := by
  cases w <;> cases g <;> rfl

theorem icvt (w : Width) (g : Sgn) (w2 : Width) : Statement (.icvt w g w2) := by
  cases w <;> cases g <;> cases w2 <;> rfl

theorem fclass (f : Fmt) : Statement (.fclass f) := by
  cases f <;> rfl

theorem fmkzero (f : Fmt) : Statement (.fmkzero f) := by
  cases f <;> rfl

theorem fmkinf (f : Fmt) : Statement (.fmkinf f) := by
  cases f <;> rfl

theorem fmknan (f : Fmt) : Statement (.fmknan f) := by
  cases f <;> rfl

theorem fmksub (f : Fmt) : Statement (.fmksub f) := by
  cases f <;> rfl

theorem fmknorm (f : Fmt) : Statement (.fmknorm f) := by
  cases f <;> rfl

theorem fneg (f : Fmt) : Statement (.fneg f) := by
  cases f <;> rfl

theorem fadd (f : Fmt) : Statement (.fadd f) := by
  cases f <;> rfl

theorem fsub (f : Fmt) : Statement (.fsub f) := by
  cases f <;> rfl

theorem fmul (f : Fmt) : Statement (.fmul f) := by
  cases f <;> rfl

theorem fdiv (f : Fmt) : Statement (.fdiv f) := by
  cases f <;> rfl

theorem fcvtFF (f : Fmt) (f2 : Fmt) : Statement (.fcvtFF f f2) := by
  cases f <;> cases f2 <;> rfl

theorem fcvtFI (f : Fmt) (w : Width) (g : Sgn) : Statement (.fcvtFI f w g) := by
  cases f <;> cases w <;> cases g <;> rfl

theorem fcvtIF (f : Fmt) (w : Width) (g : Sgn) : Statement (.fcvtIF f w g) := by
  cases f <;> cases w <;> cases g <;> rfl

theorem feq (f : Fmt) : Statement (.feq f) := by
  cases f <;> rfl

theorem fne (f : Fmt) : Statement (.fne f) := by
  cases f <;> rfl

theorem flt (f : Fmt) : Statement (.flt f) := by
  cases f <;> rfl

theorem fle (f : Fmt) : Statement (.fle f) := by
  cases f <;> rfl

theorem fgt (f : Fmt) : Statement (.fgt f) := by
  cases f <;> rfl

theorem fge (f : Fmt) : Statement (.fge f) := by
  cases f <;> rfl

end Sys2Proof.Laws.MaskMatch
end

