-- ==== Sys2Proof/Machine/Program.lean ====
section
/-! DEFINITION. Requester-level programs, in the syntax of 30_encoding.md R92 to R94 as 95_test_vectors.md section 4 reads it: names
bound to values, requests written as bindings, pseudo-forms, and the requester's own control flow. None of this is in the CORE (10_state.md R36,
R37): a program only makes requests. -/

namespace Sys2Proof.Machine

/-- The statements of R92 to R94. -/
inductive Stmt where
  /-- `outs = OP args`: one CORE request. -/
  | request (outs : List String) (op : Instr) (args : List Arg)
  /-- A pseudo-form of R94, with the name its value is bound to if there is one: `a += b`, or `out = a++`. -/
  | pseudo (out : Option String) (p : Pseudo)
  /-- `label:` -/
  | label (l : String)
  /-- `if t goto l` -/
  | ifGoto (t l : String)
  /-- `goto l` -/
  | goto (l : String)
  /-- `halt` -/
  | halt
  deriving DecidableEq, Repr

/-- The names a requester has bound, in the order of their first binding. A name that is not listed was never assigned (R43). -/
abbrev Bindings := List (String × Port)

/-- The value bound to a name. -/
def Bindings.lookup? : Bindings → String → Option Port
  | [], _ => none
  | (m, v) :: rest, n => if m = n then some v else Bindings.lookup? rest n

/-- Binding a name, in its own place when it is bound already. -/
def Bindings.bind : Bindings → String → Port → Bindings
  | [], n, v => [(n, v)]
  | (m, u) :: rest, n, v => if m = n then (n, v) :: rest else (m, u) :: Bindings.bind rest n v

/-- A requester that runs a program: its bindings, the index of its next statement, the CORE it calls, and whether it has halted. -/
structure Runner where
  vars : Bindings
  next : Nat
  core : State
  halted : Bool
  deriving DecidableEq, Repr

/-- The value of an operand. -/
def Arg.value (vars : Bindings) : Arg → Option Port
  | .name n => Bindings.lookup? vars n
  | .literal v => some v

/-- Bit 0 of a value, for port CIN (10_state.md R32). -/
def bitZero (v : Port) : Bool := v.getLsbD 0

/-- Which ports the operands of a request go to, in the order they are written (R92; 30_encoding.md R89). -/
inductive Shape where
  | none
  | cin
  | a
  | ab
  | abCin
  | cinA
  | cinAB
  deriving DecidableEq, Repr

/-- The shape of each operation: `s` of a factory is written first, `cin` of IADC and ISBB last (R92). -/
def shapeOf (i : Instr) : Shape :=
  match i with
  | .fmknorm _ => .cinAB
  | .fmksub _ => .cinA
  | _ =>
    match decide (0 < (portUse i).aBits), decide (0 < (portUse i).bBits), (portUse i).cin with
    | false, _, false => .none
    | false, _, true => .cin
    | true, false, _ => .a
    | true, true, false => .ab
    | true, true, true => .abCin

/-- The request of a statement; none when the number of operands is wrong. A name that is not bound leaves its port unassigned. -/
def requestOf (vars : Bindings) (i : Instr) (args : List Arg) : Option Request :=
  match shapeOf i, args.map (Arg.value vars) with
  | .none, [] => some ⟨encode i, none, none, none⟩
  | .cin, [c] => some ⟨encode i, none, none, c.map bitZero⟩
  | .a, [x] => some ⟨encode i, x, none, none⟩
  | .ab, [x, y] => some ⟨encode i, x, y, none⟩
  | .abCin, [x, y, c] => some ⟨encode i, x, y, c.map bitZero⟩
  | .cinA, [c, x] => some ⟨encode i, x, none, c.map bitZero⟩
  | .cinAB, [c, x, y] => some ⟨encode i, x, y, c.map bitZero⟩
  | _, _ => none

/-- What the second output of a request binds: RES_HI of IMULX and FCLASS, else FLAG (95_test_vectors.md section 4). -/
def secondOutput (i : Instr) (t : State) : Port :=
  match i with
  | .imulx _ _ => t.resHi
  | .fclass _ => t.resHi
  | _ => truth t.flag

/-- The bindings after a request completed: its first output binds RES, its second one RES_HI or FLAG (R92). R92 is silent on two
outputs of the same name and on which operations may be written with one output or with two: the outputs are bound in order, so the
second value stays, and either number is taken for every operation (DESIGN CHOICE, log 16). -/
def bindOutputs (outs : List String) (i : Instr) (t : State) (vars : Bindings) : Option Bindings :=
  match outs with
  | [r] => some (Bindings.bind vars r t.res)
  | [r, h] => some (Bindings.bind (Bindings.bind vars r t.res) h (secondOutput i t))
  | _ => none

/-- The index of a label in a program: its first occurrence. R93 is silent on a label that stands in a program twice; that a jump
then goes to the first one is the model's choice (DESIGN CHOICE, log 16). -/
def labelIndex (l : String) : List Stmt → Option Nat
  | [] => none
  | .label m :: rest => if m = l then some 0 else (labelIndex l rest).map (· + 1)
  | _ :: rest => (labelIndex l rest).map (· + 1)

/-- A jump. -/
def jump (prog : List Stmt) (l : String) (r : Runner) : Host.Outcome Runner Fault Refusal :=
  match labelIndex l prog with
  | some k => .next { r with next := k }
  | none => .refused .malformedProgram

/-- The one CORE request of a statement. A fault is terminal (60_exceptions.md R361), and nothing is bound. The number of operands is
checked before the request is made (DESIGN CHOICE, log 16). -/
def callCore (i : Instr) (args : List Arg) (r : Runner) : Host.Outcome State Fault Refusal :=
  match requestOf r.vars i args with
  | none => .refused .malformedProgram
  | some q =>
    match perform q r.core with
    | .fault e => .fault e
    | .refused e => .refused e
    | .next t => if t.fault = faultCode .none then .next t else .fault (.requestFaulted t.fault)

/-- The runner after a statement whose request left the CORE in `t`. -/
def advance (vars : Bindings) (t : State) (r : Runner) : Runner := { r with vars := vars, next := r.next + 1, core := t }

/-- A request statement. The number of outputs is checked after the request (DESIGN CHOICE, log 16). -/
def runRequest (outs : List String) (i : Instr) (args : List Arg) (r : Runner) : Host.Outcome Runner Fault Refusal :=
  match callCore i args r with
  | .fault e => .fault e
  | .refused e => .refused e
  | .next t =>
    match bindOutputs outs i t r.vars with
    | some vars => .next (advance vars t r)
    | none => .refused .malformedProgram

/-- The value of a pseudo-form whose request left the CORE in `t`, from the bindings before it (R94). -/
def formValue (vars : Bindings) (t : State) : FormValue → Option Port
  | .result => some t.res
  | .old a => Bindings.lookup? vars a

/-- The bindings after a name, if there is one, is bound to a value, if there is one. -/
def bindOptional (out : Option String) (v : Option Port) (vars : Bindings) : Bindings :=
  match out, v with
  | some n, some v => Bindings.bind vars n v
  | some _, none => vars
  | none, _ => vars

/-- A pseudo-form: its one request, whose RES is assigned first; then the value of the form is bound, so in `a = a++` the old value
stays, where R94 is silent (DESIGN CHOICE, log 18). -/
def runPseudo (out : Option String) (p : Pseudo) (r : Runner) : Host.Outcome Runner Fault Refusal :=
  match callCore (expand p).op (expand p).args r with
  | .fault e => .fault e
  | .refused e => .refused e
  | .next t =>
    .next (advance (bindOptional out (formValue r.vars t (expand p).value)
      (bindOptional (expand p).assigns (some t.res) r.vars)) t r)

/-- One statement of a program (R92 to R94). A branch goes when the name holds a value that is not 0, and one on a name never bound is
refused, as a request that reads it is (DESIGN CHOICE, log 16). -/
def runStatement (prog : List Stmt) (r : Runner) : Host.Outcome Runner Fault Refusal :=
  match prog[r.next]? with
  | none => .refused .malformedProgram
  | some (.request outs i args) => runRequest outs i args r
  | some (.pseudo out p) => runPseudo out p r
  | some (.label _) => .next { r with next := r.next + 1 }
  | some (.goto l) => jump prog l r
  | some .halt => .next { r with halted := true }
  | some (.ifGoto t l) =>
    match Bindings.lookup? r.vars t with
    | none => .refused .indeterminateOperand
    | some v => if v = 0 then .next { r with next := r.next + 1 } else jump prog l r

/-- At most `n` statements of a program, ending at `halt`, at a fault or at a refusal. That a refused request ends the program is
the model's choice (DESIGN CHOICE, log 17). -/
def runProgram (prog : List Stmt) : Nat → Runner → Host.Outcome Runner Fault Refusal
  | 0, r => .next r
  | n + 1, r =>
    if r.halted then .next r
    else
      match runStatement prog r with
      | .next r' => runProgram prog n r'
      | .fault e => .fault e
      | .refused e => .refused e

end Sys2Proof.Machine
end

