-- ==== Sys2Proof/Laws/Program.lean ====
section
/-! SUPPORT. What binding a name, a call of the CORE, a pseudo-form and a jump can do in a requester-level program. -/

namespace Sys2Proof.Machine

/-- A name just bound holds the value, and every other name is as before. -/
@[simp] theorem lookup_bind (vars : Bindings) (n m : String) (v : Port) :
    Bindings.lookup? (Bindings.bind vars n v) m = if n = m then some v else Bindings.lookup? vars m := by
  induction vars with
  | nil => rfl
  | cons p rest ih =>
    obtain ⟨k, u⟩ := p
    by_cases hk : k = n
    · subst hk
      by_cases hm : k = m <;> simp [Bindings.bind, Bindings.lookup?, hm]
    · by_cases hm : k = m
      · subst hm
        simp [Bindings.bind, Bindings.lookup?, hk, Ne.symm hk]
      · simp [Bindings.bind, Bindings.lookup?, hk, hm, ih]

/-- What a name holds after a request of two outputs: the second one wins where both have the same name (log 16). -/
theorem lookup_bindOutputs_two (r h m : String) (i : Instr) (t : State) (vars : Bindings) :
    (bindOutputs [r, h] i t vars).bind (Bindings.lookup? · m) =
      if h = m then some (secondOutput i t) else if r = m then some t.res else Bindings.lookup? vars m := by
  simp [bindOutputs]

@[simp] theorem lookup_bindOptional (out : Option String) (v : Port) (vars : Bindings) (m : String) :
    Bindings.lookup? (bindOptional out (some v) vars) m = if out = some m then some v else Bindings.lookup? vars m := by
  cases out <;> simp [bindOptional]

/-- Everything a call of the CORE can do: one accepted request answered with FAULT = 0, or an end of the run. -/
theorem callCore_next {i : Instr} {args : List Arg} {r : Runner} {t : State} (h : callCore i args r = .next t) :
    ∃ q, requestOf r.vars i args = some q ∧ perform q r.core = .next t ∧ t.fault = 0 := by
  unfold callCore at h
  cases hq : requestOf r.vars i args with
  | none => simp [hq] at h
  | some q =>
    cases hp : perform q r.core with
    | fault e => simp [hq, hp] at h
    | refused e => simp [hq, hp] at h
    | next u =>
      simp only [hq, hp] at h
      split at h
      · cases h; exact ⟨q, rfl, hp, ‹_›⟩
      · cases h

/-- What a pseudo-form that completes leaves: the CORE after its one request, RES in the name it assigns, and the value of the form
in the name it is bound to (R94, log 18). -/
theorem runPseudo_next {out : Option String} {p : Pseudo} {r r' : Runner} (h : runPseudo out p r = .next r') :
    ∃ t, callCore (expand p).op (expand p).args r = .next t ∧
      r' = advance (bindOptional out (formValue r.vars t (expand p).value)
        (bindOptional (expand p).assigns (some t.res) r.vars)) t r := by
  unfold runPseudo at h
  cases hc : callCore (expand p).op (expand p).args r with
  | fault e => simp [hc] at h
  | refused e => simp [hc] at h
  | next t =>
    simp only [hc] at h
    cases h
    exact ⟨t, rfl, rfl⟩

/-- A label found stands at the index, and nowhere before it (log 16). -/
theorem labelIndex_some {l : String} {prog : List Stmt} {k : Nat} (h : labelIndex l prog = some k) :
    prog[k]? = some (.label l) ∧ ∀ j < k, prog[j]? ≠ some (.label l) := by
  induction prog generalizing k with
  | nil => cases h
  | cons s rest ih =>
    have later : s ≠ .label l → (labelIndex l rest).map (· + 1) = some k →
        (s :: rest)[k]? = some (.label l) ∧ ∀ j < k, (s :: rest)[j]? ≠ some (.label l) := by
      intro hs hk
      obtain ⟨m, hm, rfl⟩ := Option.map_eq_some_iff.1 hk
      obtain ⟨h1, h2⟩ := ih hm
      refine ⟨h1, fun j hj => ?_⟩
      cases j with
      | zero => simpa using hs
      | succ j => exact h2 j (by omega)
    cases s with
    | label m =>
      by_cases hm : m = l
      · subst hm
        simp only [labelIndex, if_true, Option.some.injEq] at h
        subst h
        exact ⟨rfl, fun j hj => absurd hj (Nat.not_lt_zero j)⟩
      · exact later (by simpa using hm) (by simpa [labelIndex, hm] using h)
    | request outs op args => exact later (by simp) h
    | pseudo out p => exact later (by simp) h
    | ifGoto t m => exact later (by simp) h
    | goto m => exact later (by simp) h
    | halt => exact later (by simp) h

/-- A jump goes to a statement that is its label, and changes nothing else, or is refused. -/
theorem jump_cases (prog : List Stmt) (l : String) (r : Runner) :
    (∃ k, prog[k]? = some (.label l) ∧ jump prog l r = .next { r with next := k }) ∨
      jump prog l r = .refused .malformedProgram := by
  unfold jump
  cases h : labelIndex l prog with
  | none => exact .inr rfl
  | some k => exact .inl ⟨k, (labelIndex_some h).1, rfl⟩

end Sys2Proof.Machine
end

