-- ==== Sys2Proof/Laws/Rounding.lean ====
section
/-! SUPPORT. The lemmas of the float datapath: the fields of a packed float, and what the rounding functions compute over the
rationals. -/

namespace Sys2Proof.Machine

/-! ### Packed fields (43_fp_datapath.md R201) -/

theorem biasedExp_eq (f : Fmt) (x : BitVec f.W) : biasedExp f x = x.toNat / 2 ^ f.S % 2 ^ f.E := by
  simp [biasedExp, BitVec.extractLsb'_toNat, Nat.shiftRight_eq_div_pow]

theorem trailingSig_eq (f : Fmt) (x : BitVec f.W) : trailingSig f x = x.toNat % 2 ^ f.S := by
  simp [trailingSig, BitVec.extractLsb'_toNat]

theorem signBit_eq (f : Fmt) (x : BitVec f.W) : signBit f x = decide (x.toNat / 2 ^ (f.W - 1) % 2 = 1) := by
  simp [signBit, BitVec.getLsbD, Nat.testBit_eq_decide_div_mod_eq]

theorem pow_W_pred (f : Fmt) : 2 ^ (f.W - 1) = 2 ^ f.E * 2 ^ f.S := by
  rw [Fmt.W_pred, pow_add, mul_comm]

theorem pow_W (f : Fmt) : 2 ^ f.W = 2 * (2 ^ f.E * 2 ^ f.S) := by
  rw [← pow_W_pred, ← pow_succ']
  congr 1
  have := Fmt.W_ge f
  omega

/-- The number a packed form is, with fields that fit. -/
theorem pack_toNat (f : Fmt) (s : Bool) {be t : Nat} (hb : be < 2 ^ f.E) (ht : t < 2 ^ f.S) :
    (pack f s be t).toNat = s.toNat * 2 ^ (f.W - 1) + be * 2 ^ f.S + t := by
  unfold pack
  rw [BitVec.toNat_ofNat, Nat.mod_eq_of_lt hb, Nat.mod_eq_of_lt ht]
  apply Nat.mod_eq_of_lt
  rw [pow_W_pred, pow_W]
  have h1 : be * 2 ^ f.S + t < 2 ^ f.E * 2 ^ f.S := by
    calc be * 2 ^ f.S + t < be * 2 ^ f.S + 2 ^ f.S := by omega
      _ = (be + 1) * 2 ^ f.S := by ring
      _ ≤ 2 ^ f.E * 2 ^ f.S := Nat.mul_le_mul_right _ hb
  cases s <;> simp <;> omega

/-- The fields of a number built from fields that fit. -/
theorem fields_of_parts (f : Fmt) {s be t : Nat} (hs : s < 2) (hb : be < 2 ^ f.E) (ht : t < 2 ^ f.S) :
    let x := s * 2 ^ (f.W - 1) + be * 2 ^ f.S + t
    x / 2 ^ (f.W - 1) % 2 = s ∧ x / 2 ^ f.S % 2 ^ f.E = be ∧ x % 2 ^ f.S = t := by
  intro x
  have hpos : 0 < 2 ^ f.S := by positivity
  have hx : x = (s * 2 ^ f.E + be) * 2 ^ f.S + t := by
    simp only [x, pow_W_pred]; ring
  have hlow : be * 2 ^ f.S + t < 2 ^ (f.W - 1) := by
    rw [pow_W_pred]
    calc be * 2 ^ f.S + t < (be + 1) * 2 ^ f.S := by rw [Nat.add_mul]; omega
      _ ≤ 2 ^ f.E * 2 ^ f.S := Nat.mul_le_mul_right _ hb
  refine ⟨?_, ?_, ?_⟩
  · have : x / 2 ^ (f.W - 1) = s := by
      have hx' : x = s * 2 ^ (f.W - 1) + (be * 2 ^ f.S + t) := by simp only [x]; ring
      rw [hx', Nat.add_comm, Nat.add_mul_div_right _ _ (by positivity), Nat.div_eq_of_lt hlow]
      simp
    rw [this, Nat.mod_eq_of_lt hs]
  · rw [hx, Nat.add_comm, Nat.add_mul_div_right _ _ hpos, Nat.div_eq_of_lt ht, Nat.zero_add,
      Nat.add_comm, Nat.add_mul_mod_self_right, Nat.mod_eq_of_lt hb]
  · rw [hx, Nat.add_comm, Nat.add_mul_mod_self_right, Nat.mod_eq_of_lt ht]

@[simp] theorem signBit_pack (f : Fmt) (s : Bool) {be t : Nat} (hb : be < 2 ^ f.E) (ht : t < 2 ^ f.S) :
    signBit f (pack f s be t) = s := by
  have h := (fields_of_parts f (s := s.toNat) (by cases s <;> decide) hb ht).1
  rw [signBit_eq, pack_toNat f s hb ht, h]
  cases s <;> rfl

@[simp] theorem biasedExp_pack (f : Fmt) (s : Bool) {be t : Nat} (hb : be < 2 ^ f.E) (ht : t < 2 ^ f.S) :
    biasedExp f (pack f s be t) = be := by
  rw [biasedExp_eq, pack_toNat f s hb ht]
  exact (fields_of_parts f (by cases s <;> decide) hb ht).2.1

@[simp] theorem trailingSig_pack (f : Fmt) (s : Bool) {be t : Nat} (hb : be < 2 ^ f.E) (ht : t < 2 ^ f.S) :
    trailingSig f (pack f s be t) = t := by
  rw [trailingSig_eq, pack_toNat f s hb ht]
  exact (fields_of_parts f (by cases s <;> decide) hb ht).2.2

theorem biasedExp_lt (f : Fmt) (x : BitVec f.W) : biasedExp f x < 2 ^ f.E := by
  rw [biasedExp_eq]; exact Nat.mod_lt _ (by positivity)

theorem trailingSig_lt (f : Fmt) (x : BitVec f.W) : trailingSig f x < 2 ^ f.S := by
  rw [trailingSig_eq]; exact Nat.mod_lt _ (by positivity)

/-- A pattern is made of its three fields. -/
theorem toNat_of_fields (f : Fmt) (x : BitVec f.W) :
    x.toNat = (signBit f x).toNat * 2 ^ (f.W - 1) + biasedExp f x * 2 ^ f.S + trailingSig f x := by
  have hlt : x.toNat / 2 ^ (f.W - 1) < 2 := by
    rw [Nat.div_lt_iff_lt_mul (by positivity), pow_W_pred, ← pow_W]; exact x.isLt
  have h1 : (signBit f x).toNat = x.toNat / 2 ^ (f.W - 1) := by
    rw [signBit_eq]
    generalize x.toNat / 2 ^ (f.W - 1) = y at hlt
    interval_cases y <;> rfl
  have h2 : x.toNat / 2 ^ f.S / 2 ^ f.E = x.toNat / 2 ^ (f.W - 1) := by
    rw [Nat.div_div_eq_div_mul, pow_W_pred, mul_comm]
  rw [h1, biasedExp_eq, trailingSig_eq, ← h2, pow_W_pred]
  have ha := Nat.div_add_mod (x.toNat / 2 ^ f.S) (2 ^ f.E)
  have hb := Nat.div_add_mod x.toNat (2 ^ f.S)
  calc x.toNat = 2 ^ f.S * (x.toNat / 2 ^ f.S) + x.toNat % 2 ^ f.S := hb.symm
    _ = 2 ^ f.S * (2 ^ f.E * (x.toNat / 2 ^ f.S / 2 ^ f.E) + x.toNat / 2 ^ f.S % 2 ^ f.E) + x.toNat % 2 ^ f.S := by
        rw [ha]
    _ = _ := by ring

/-- Packing the fields of a pattern gives it back. -/
theorem pack_fields (f : Fmt) (x : BitVec f.W) : pack f (signBit f x) (biasedExp f x) (trailingSig f x) = x :=
  BitVec.eq_of_toNat_eq (by
    rw [pack_toNat f _ (biasedExp_lt f x) (trailingSig_lt f x), ← toNat_of_fields])

theorem maxBiased_lt (f : Fmt) : maxBiased f < 2 ^ f.E := by
  unfold maxBiased; have := Fmt.two_pow_E f; omega

/-! ### Decomposition, by class (R203) -/

/-- What a decomposition can be, with the fields that make it so. -/
theorem decompose_cases (f : Fmt) (x : BitVec f.W) :
    (decompose f x = ⟨.zero, signBit f x, 0, 0⟩ ∧ biasedExp f x = 0 ∧ trailingSig f x = 0) ∨
    (decompose f x = ⟨.subnormal, signBit f x, f.emin, trailingSig f x⟩ ∧ biasedExp f x = 0 ∧ trailingSig f x ≠ 0) ∨
    (decompose f x = ⟨.infinity, signBit f x, 0, 0⟩ ∧ biasedExp f x = maxBiased f ∧ trailingSig f x = 0) ∨
    (decompose f x = ⟨.nan, signBit f x, 0, trailingSig f x⟩ ∧ biasedExp f x = maxBiased f ∧ trailingSig f x ≠ 0) ∨
    (decompose f x = ⟨.normal, signBit f x, (biasedExp f x : Int) - f.B, trailingSig f x + 2 ^ f.S⟩ ∧
      biasedExp f x ≠ 0 ∧ biasedExp f x ≠ maxBiased f) := by
  have hmax : maxBiased f ≠ 0 := by unfold maxBiased; have := Fmt.two_pow_E f; omega
  have hor : trailingSig f x ||| 1 <<< f.S = trailingSig f x + 2 ^ f.S := by
    have := Nat.two_pow_add_eq_or_of_lt (trailingSig_lt f x) 1
    rw [Nat.one_shiftLeft, Nat.lor_comm]
    simpa [Nat.add_comm] using this.symm
  unfold decompose
  by_cases h0 : biasedExp f x = 0
  · by_cases ht : trailingSig f x = 0
    · left; simp [h0, ht]
    · right; left; simp [h0, ht]
  · by_cases h1 : biasedExp f x = maxBiased f
    · by_cases ht : trailingSig f x = 0
      · right; right; left; simp [h1, ht, hmax]
      · right; right; right; left; simp [h1, ht, hmax]
    · right; right; right; right
      simp [h0, h1, hor]

/-! ### Rounding (R210, R211) -/

/-- `atLeastOne` compares p / q × 2^k with 1. -/
theorem atLeastOne_iff {p q : Nat} (hq : 0 < q) (k : Int) :
    atLeastOne p q k = true ↔ (1 : ℚ) ≤ (p : ℚ) / q * 2 ^ k := by
  have hq' : (0 : ℚ) < q := by exact_mod_cast hq
  unfold atLeastOne
  split
  · rename_i h
    obtain ⟨m, rfl⟩ := Int.eq_ofNat_of_zero_le h
    rw [decide_eq_true_iff]
    simp only [Int.toNat_natCast, zpow_natCast]
    rw [div_mul_eq_mul_div, le_div_iff₀ hq', one_mul]
    constructor
    · intro h; exact_mod_cast h
    · intro h; exact_mod_cast h
  · rename_i h
    obtain ⟨m, hm⟩ := Int.eq_ofNat_of_zero_le (show 0 ≤ -k by omega)
    have hk : k = -(m : Int) := by omega
    subst hk
    rw [decide_eq_true_iff]
    have h2 : (0 : ℚ) < 2 ^ m := by positivity
    simp only [neg_neg, Int.toNat_natCast, zpow_neg, zpow_natCast]
    rw [← div_eq_mul_inv, div_div, le_div_iff₀ (by positivity), one_mul]
    constructor
    · intro h; exact_mod_cast h
    · intro h; exact_mod_cast h

/-- `floorLog2` is the exponent of R211: `2^e ≤ v < 2^(e+1)`. -/
theorem floorLog2_spec (v : Magnitude) (hn : 0 < v.num) (hd : 0 < v.den) :
    (2 : ℚ) ^ floorLog2 v ≤ (v.num : ℚ) / v.den * 2 ^ v.exp ∧
    (v.num : ℚ) / v.den * 2 ^ v.exp < 2 ^ (floorLog2 v + 1) := by
  have hd' : (0 : ℚ) < v.den := by exact_mod_cast hd
  have two : (2 : ℚ) ≠ 0 := by norm_num
  have hpn : (2 : ℚ) ^ (v.num.log2 : Int) ≤ v.num ∧ (v.num : ℚ) < 2 ^ ((v.num.log2 : Int) + 1) := by
    constructor
    · rw [zpow_natCast]; exact_mod_cast Nat.log2_self_le (by omega)
    · have := Nat.lt_log2_self (n := v.num)
      rw [show (v.num.log2 : Int) + 1 = ((v.num.log2 + 1 : Nat) : Int) by push_cast; ring, zpow_natCast]
      exact_mod_cast this
  have hpd : (2 : ℚ) ^ (v.den.log2 : Int) ≤ v.den ∧ (v.den : ℚ) < 2 ^ ((v.den.log2 : Int) + 1) := by
    constructor
    · rw [zpow_natCast]; exact_mod_cast Nat.log2_self_le (by omega)
    · have := Nat.lt_log2_self (n := v.den)
      rw [show (v.den.log2 : Int) + 1 = ((v.den.log2 + 1 : Nat) : Int) by push_cast; ring, zpow_natCast]
      exact_mod_cast this
  set k : Int := (v.num.log2 : Int) - v.den.log2 with hk
  have hlow : (2 : ℚ) ^ (k - 1) ≤ (v.num : ℚ) / v.den := by
    rw [le_div_iff₀ hd']
    calc (2 : ℚ) ^ (k - 1) * v.den ≤ 2 ^ (k - 1) * 2 ^ ((v.den.log2 : Int) + 1) := by
          gcongr; exact hpd.2.le
      _ = 2 ^ (v.num.log2 : Int) := by rw [← zpow_add₀ two]; congr 1; omega
      _ ≤ _ := hpn.1
  have hhigh : (v.num : ℚ) / v.den < 2 ^ (k + 1) := by
    rw [div_lt_iff₀ hd']
    calc (v.num : ℚ) < 2 ^ ((v.num.log2 : Int) + 1) := hpn.2
      _ = 2 ^ (k + 1) * 2 ^ (v.den.log2 : Int) := by rw [← zpow_add₀ two]; congr 1; omega
      _ ≤ _ := by gcongr; exact hpd.1
  have hiff := atLeastOne_iff (p := v.num) hd (-k)
  have hone : (1 : ℚ) ≤ (v.num : ℚ) / v.den * 2 ^ (-k) ↔ (2 : ℚ) ^ k ≤ (v.num : ℚ) / v.den := by
    rw [zpow_neg, ← div_eq_mul_inv, le_div_iff₀ (by positivity), one_mul]
  rw [hone] at hiff
  have key : ∀ e : Int, (2 : ℚ) ^ e ≤ (v.num : ℚ) / v.den → (v.num : ℚ) / v.den < 2 ^ (e + 1) →
      (2 : ℚ) ^ (e + v.exp) ≤ (v.num : ℚ) / v.den * 2 ^ v.exp ∧
        (v.num : ℚ) / v.den * 2 ^ v.exp < 2 ^ (e + v.exp + 1) := by
    intro e h1 h2
    constructor
    · rw [zpow_add₀ two]; gcongr
    · rw [show e + v.exp + 1 = (e + 1) + v.exp by ring, zpow_add₀ two]; gcongr
  unfold floorLog2
  simp only [← hk]
  split
  · rename_i h
    exact key k (hiff.1 h) hhigh
  · rename_i h
    exact key (k - 1) hlow (by
      rw [sub_add_cancel]
      exact lt_of_not_ge fun hge => h (hiff.2 hge))

/-- `roundNearestEven` is R210 over the rationals. -/
theorem roundNearestEven_eq_rne {p q : Nat} (hq : 0 < q) :
    (roundNearestEven p q : Int) = Exact.rne ((p : ℚ) / q) := by
  have hq' : (0 : ℚ) < q := by exact_mod_cast hq
  have hfloor : ⌊(p : ℚ) / q⌋ = ((p / q : Nat) : Int) := by
    have h := Rat.floor_intCast_div_natCast (p : Int) q
    rw [Int.cast_natCast] at h
    rw [h, Int.natCast_div]
  have hfract : Int.fract ((p : ℚ) / q) = ((p % q : Nat) : ℚ) / q := by
    have h := Nat.div_add_mod p q
    rw [Int.fract, hfloor, eq_div_iff hq'.ne', sub_mul, div_mul_cancel₀ _ hq'.ne', Int.cast_natCast]
    have : (p : ℚ) = q * ((p / q : Nat) : ℚ) + ((p % q : Nat) : ℚ) := by exact_mod_cast h.symm
    linarith
  unfold Exact.rne roundNearestEven
  rw [hfloor, hfract]
  have h1 : (1 : ℚ) / 2 < ((p % q : Nat) : ℚ) / q ↔ q < 2 * (p % q) := by
    rw [lt_div_iff₀ hq', div_mul_eq_mul_div, div_lt_iff₀ (by norm_num), one_mul]
    constructor
    · intro h; rw [mul_comm]; exact_mod_cast h
    · intro h; rw [mul_comm] at h; exact_mod_cast h
  have h2 : ((p % q : Nat) : ℚ) / q = 1 / 2 ↔ 2 * (p % q) = q := by
    rw [div_eq_div_iff hq'.ne' (by norm_num), one_mul]
    constructor
    · intro h; rw [mul_comm]; exact_mod_cast h
    · intro h; rw [mul_comm] at h; exact_mod_cast h
  have h3 : ((p / q : Nat) : Int) % 2 = 1 ↔ p / q % 2 = 1 := by omega
  simp only [h1, h2, h3]
  by_cases ha : q < 2 * (p % q)
  · simp [ha]
  · by_cases hb : 2 * (p % q) = q ∧ p / q % 2 = 1
    · simp [hb]
    · simp [ha, hb]

/-- `roundScaled` rounds the magnitude times a power of two. -/
theorem roundScaled_eq_rne (v : Magnitude) (hd : 0 < v.den) (d : Int) :
    (roundScaled v d : Int) = Exact.rne ((v.num : ℚ) / v.den * 2 ^ v.exp * 2 ^ d) := by
  have hd' : (0 : ℚ) < v.den := by exact_mod_cast hd
  have two : (2 : ℚ) ≠ 0 := by norm_num
  unfold roundScaled
  rw [mul_assoc, ← zpow_add₀ two]
  by_cases h : 0 ≤ v.exp + d
  · obtain ⟨m, hm⟩ := Int.eq_ofNat_of_zero_le h
    simp only [hm, Int.natCast_nonneg, if_true, Int.toNat_natCast, zpow_natCast]
    rw [roundNearestEven_eq_rne hd]
    congr 1
    push_cast
    ring
  · obtain ⟨m, hm⟩ := Int.eq_ofNat_of_zero_le (show 0 ≤ -(v.exp + d) by omega)
    have hk : v.exp + d = -(m : Int) := by omega
    have hneg : ¬ (0 : Int) ≤ -(m : Int) := by omega
    simp only [hk, hneg, if_false, neg_neg, Int.toNat_natCast, zpow_neg, zpow_natCast]
    rw [roundNearestEven_eq_rne (by positivity)]
    congr 1
    push_cast
    field_simp

/-! ### Constants as numbers -/

theorem pack_exact (f : Fmt) (s : Bool) {be t : Nat} (hb : be < 2 ^ f.E) (ht : t < 2 ^ f.S) :
    (pack f s be t).toNat = Exact.packed f s.toNat be t := pack_toNat f s hb ht

theorem infF_exact (f : Fmt) (s : Bool) : (infF f s).toNat = Exact.inf f s.toNat := by
  rw [infF, pack_toNat f s (maxBiased_lt f) (by positivity)]; simp [Exact.inf, maxBiased]

theorem zeroF_exact (f : Fmt) (s : Bool) : (zeroF f s).toNat = Exact.zero f s.toNat := by
  rw [zeroF, pack_toNat f s (by positivity) (by positivity)]; simp [Exact.zero]

/-! ### Bounds of RNE and of the exponent -/

theorem rne_nonneg {q : ℚ} (h : 0 ≤ q) : 0 ≤ Exact.rne q := by
  have := Int.floor_nonneg.2 h
  unfold Exact.rne; split <;> omega

theorem rne_le_of_lt {q : ℚ} {k : Int} (h : q < k) : Exact.rne q ≤ k := by
  have := Int.floor_lt.2 h
  unfold Exact.rne; split <;> omega

theorem le_rne_of_le {q : ℚ} {k : Int} (h : (k : ℚ) ≤ q) : k ≤ Exact.rne q := by
  have := Int.le_floor.2 h
  unfold Exact.rne; split <;> omega

/-- `floorLog2` is the logarithm of the rational value. -/
theorem log_eq_floorLog2 (v : Magnitude) (hn : 0 < v.num) (hd : 0 < v.den) :
    Int.log 2 ((v.num : ℚ) / v.den * 2 ^ v.exp) = floorLog2 v := by
  obtain ⟨h1, h2⟩ := floorLog2_spec v hn hd
  have hpos : (0 : ℚ) < (v.num : ℚ) / v.den * 2 ^ v.exp := by positivity
  apply le_antisymm
  · have := (Int.zpow_log_le_self (b := 2) (by norm_num) hpos)
    have h3 := lt_of_le_of_lt this (by exact_mod_cast h2)
    have := (zpow_lt_zpow_iff_right₀ (by norm_num : (1 : ℚ) < ((2 : ℕ) : ℚ))).1 h3
    omega
  · have := Int.lt_zpow_succ_log_self (b := 2) (by norm_num) ((v.num : ℚ) / v.den * 2 ^ v.exp)
    have h3 := lt_of_le_of_lt (by exact_mod_cast h1) this
    have := (zpow_lt_zpow_iff_right₀ (by norm_num : (1 : ℚ) < ((2 : ℕ) : ℚ))).1 h3
    omega

end Sys2Proof.Machine
end

