-- ==== Sys2Proof/Tests/Slice0.lean ====
section
/-! SUPPORT. The model's own tests: ill-formed operations, words written out from 30_encoding.md, vectors of 95_test_vectors.md, and a
witness for every statement that has hypotheses. -/

namespace Sys2Proof.Tests

open Sys2Proof.Machine Sys2Proof.Safety

set_option Elab.async false

/-! ### Helpers -/

/-- A request on the ports of the default build. -/
def request (opw : Word) (a b : Nat) (cin : Bool) : State :=
  { State.reset with opw := opw, a := BitVec.ofNat 128 a, b := BitVec.ofNat 128 b, cin := cin }

/-- The step answers this completed response. -/
def gives (s : State) (res hi : Nat) (flag : Bool) : Bool :=
  decide (responseOf (step s) = some ⟨BitVec.ofNat 128 res, BitVec.ofNat 128 hi, flag, 0⟩)

/-- The step answers the fault response with this code. -/
def raises (s : State) (code : Nat) : Bool :=
  decide (responseOf (step s) = some ⟨0, 0, false, BitVec.ofNat 3 code⟩)

/-! ### WellFormed: 8 bits is no width of the integer engine (30_encoding.md R84) -/

theorem test_wellFormed_refuses_8_bit_engine :
    ([
      Instr.iadd .w8 .unsigned, Instr.isub .w8 .signed, Instr.imul .w8 .unsigned, Instr.idiv .w8 .signed, Instr.irem .w8 .unsigned,
      Instr.ineg .w8 .signed, Instr.iinc .w8 .unsigned, Instr.idec .w8 .signed, Instr.ilnot .w8 .unsigned, Instr.inot .w8 .signed,
      Instr.ibool .w8 .unsigned, Instr.ishl .w8 .signed, Instr.ishr .w8 .unsigned, Instr.ieq .w8 .signed, Instr.ine .w8 .unsigned,
      Instr.ilt .w8 .signed, Instr.ile .w8 .unsigned, Instr.igt .w8 .signed, Instr.ige .w8 .unsigned, Instr.iadc .w8 .signed,
      Instr.isbb .w8 .unsigned, Instr.imulx .w8 .signed, Instr.ibsr .w8 .unsigned].all fun i => !i.wellFormed) = true := by decide

theorem test_wellFormed_accepts_8_bit_conversions :
    (Instr.icvt .w8 .signed .w128).wellFormed = true ∧ (Instr.icvt .w128 .unsigned .w8).wellFormed = true ∧
    (Instr.fcvtFI .h .w8 .signed).wellFormed = true ∧ (Instr.fcvtIF .d .w8 .unsigned).wellFormed = true := by decide

/-- The decoder refuses the word an ill-formed term would have (R84, R90). -/
theorem test_decode_refuses_8_bit_engine : decode 0x00000001#32 = .error .illegalWidth := by decide +kernel

/-! ### Decoding: a word for every operation, bit by bit from the encodings of R80 to R87 -/

theorem test_decode_arithmetic_1 :
    decode 0b00000000000000000010000000000001#32 = .ok (.iadd .w32 .unsigned) ∧
    decode 0b00000000000000001001000000000010#32 = .ok (.isub .w16 .signed) ∧
    decode 0b00000000000000000100000000000011#32 = .ok (.imul .w128 .unsigned) ∧
    decode 0b00000000000000001011000000000100#32 = .ok (.idiv .w64 .signed) ∧
    decode 0b00000000000000000010000000000101#32 = .ok (.irem .w32 .unsigned) ∧
    decode 0b00000000000000001001000000000110#32 = .ok (.ineg .w16 .signed) ∧
    decode 0b00000000000000000100000000000111#32 = .ok (.iinc .w128 .unsigned) ∧
    decode 0b00000000000000001011000000001000#32 = .ok (.idec .w64 .signed) := by decide +kernel

theorem test_decode_arithmetic_2 :
    decode 0b00000000000000000010000000001001#32 = .ok (.ilnot .w32 .unsigned) ∧
    decode 0b00000000000000001001000000001010#32 = .ok (.inot .w16 .signed) ∧
    decode 0b00000000000000000100000000001011#32 = .ok (.ibool .w128 .unsigned) ∧
    decode 0b00000000000000001011000000010100#32 = .ok (.iadc .w64 .signed) ∧
    decode 0b00000000000000000010000000010101#32 = .ok (.isbb .w32 .unsigned) ∧
    decode 0b00000000000000001001000000010110#32 = .ok (.imulx .w16 .signed) := by decide +kernel

theorem test_decode_compare_shift_1 :
    decode 0b00000000000000001011000000001100#32 = .ok (.ishl .w64 .signed) ∧
    decode 0b00000000000000000010000000001101#32 = .ok (.ishr .w32 .unsigned) ∧
    decode 0b00000000000000001001000000001110#32 = .ok (.ieq .w16 .signed) ∧
    decode 0b00000000000000000100000000001111#32 = .ok (.ine .w128 .unsigned) ∧
    decode 0b00000000000000001011000000010000#32 = .ok (.ilt .w64 .signed) ∧
    decode 0b00000000000000000010000000010001#32 = .ok (.ile .w32 .unsigned) ∧
    decode 0b00000000000000001001000000010010#32 = .ok (.igt .w16 .signed) ∧
    decode 0b00000000000000000100000000010011#32 = .ok (.ige .w128 .unsigned) := by decide +kernel

theorem test_decode_compare_shift_2 :
    decode 0b00000000000000000100000000010111#32 = .ok (.ibsr .w128 .unsigned) := by decide +kernel

theorem test_decode_float_1 :
    decode 0b00000000000000000000000001000000#32 = .ok (.fclass .h) ∧
    decode 0b00000000000000000000000101000001#32 = .ok (.fmkzero .s) ∧
    decode 0b00000000000000000000001001000010#32 = .ok (.fmkinf .d) ∧
    decode 0b00000000000000000000000001000011#32 = .ok (.fmknan .h) ∧
    decode 0b00000000000000000000000101000100#32 = .ok (.fmksub .s) ∧
    decode 0b00000000000000000000001001000101#32 = .ok (.fmknorm .d) ∧
    decode 0b00000000000000000000000001000110#32 = .ok (.fneg .h) ∧
    decode 0b00000000000000000000000101000111#32 = .ok (.fadd .s) := by decide +kernel

theorem test_decode_float_2 :
    decode 0b00000000000000000000001001001000#32 = .ok (.fsub .d) ∧
    decode 0b00000000000000000000000001001001#32 = .ok (.fmul .h) ∧
    decode 0b00000000000000000000000101001010#32 = .ok (.fdiv .s) ∧
    decode 0b00000000000000000000001001001110#32 = .ok (.feq .d) ∧
    decode 0b00000000000000000000000001001111#32 = .ok (.fne .h) ∧
    decode 0b00000000000000000000000101010000#32 = .ok (.flt .s) ∧
    decode 0b00000000000000000000001001010001#32 = .ok (.fle .d) ∧
    decode 0b00000000000000000000000001010010#32 = .ok (.fgt .h) := by decide +kernel

theorem test_decode_float_3 :
    decode 0b00000000000000000000000101010011#32 = .ok (.fge .s) := by decide +kernel

theorem test_decode_convert_1 :
    decode 0b00000000000000111000000000011000#32 = .ok (.icvt .w8 .signed .w64) ∧
    decode 0b00000000000000000000001001001011#32 = .ok (.fcvtFF .d .h) ∧
    decode 0b00000000000000000100000001001100#32 = .ok (.fcvtFI .h .w128 .unsigned) ∧
    decode 0b00000000000000001010000101001101#32 = .ok (.fcvtIF .s .w32 .signed) := by decide +kernel

/-- One word per check of R88 (95_test_vectors.md section 3.1). -/
theorem test_decode_refuses_by_name :
    decode 0x00000000#32 = .error .unlistedOp ∧ decode 0x00000054#32 = .error .unlistedOp ∧
    decode 0x00081001#32 = .error .unusedBits ∧ decode 0x00011001#32 = .error .unusedBits ∧
    decode 0x00005001#32 = .error .illegalWidth ∧ decode 0x00051018#32 = .error .illegalWidth2 ∧
    decode 0x00000347#32 = .error .reservedFmt ∧ decode 0x00000C4B#32 = .error .reservedFmt2 := by decide +kernel

/-- The illegal word is answered with ILLEGAL_OP (95_test_vectors.md section 3.1). -/
theorem test_step_illegal_word : raises (request 0x00000101 0x1 0x2 false) 1 = true := by decide +kernel

theorem test_withFetchWord_runs_the_word :
    responseOf (step (State.reset.withFetchWord 32 0x00000143)) = some ⟨0xFFC00000, 0, false, 0⟩ := by decide +kernel

/-! ### One step each: vectors of 95_test_vectors.md section 3 -/

theorem test_iadd_wraps :
    gives (request 0x00001001 0xFFFF 0x1 false) 0x0 0x0 false = true := by decide +kernel

theorem test_iadd_ignores_high_port_bits :
    gives (request 0x00001001 0x10005 0xF0003 false) 0x8 0x0 false = true := by decide +kernel

theorem test_isub_borrows_around :
    gives (request 0x00001002 0x0 0x1 false) 0xFFFF 0x0 false = true := by decide +kernel

theorem test_isub_wraps_min :
    gives (request 0x0000B002 0x8000000000000000 0x1 false) 0x7FFFFFFFFFFFFFFF 0x0 false = true := by decide +kernel

theorem test_imul_signed :
    gives (request 0x00009003 0xFFFD 0x7 false) 0xFFEB 0x0 false = true := by decide +kernel

theorem test_imul_wide :
    gives (request 0x00004003 0x80000000000000000000000000000003 0x5 false) 0x8000000000000000000000000000000F 0x0 false = true := by decide +kernel

theorem test_idiv_toward_zero :
    gives (request 0x00009004 0xFFF9 0x2 false) 0xFFFD 0x0 false = true := by decide +kernel

theorem test_idiv_zero_divisor :
    raises (request 0x0000A004 0x80000000 0x0 false) 2 = true := by decide +kernel

theorem test_irem_sign_of_dividend :
    gives (request 0x00009005 0x7 0xFFFE false) 0x1 0x0 false = true := by decide +kernel

theorem test_irem_zero_divisor :
    raises (request 0x0000B005 0x0 0x0 false) 2 = true := by decide +kernel

theorem test_ineg_carries_over_limbs :
    gives (request 0x00001006 0x100 0x0 false) 0xFF00 0x0 false = true := by decide +kernel

theorem test_ineg_min :
    gives (request 0x00009006 0x8000 0x0 false) 0x8000 0x0 false = true := by decide +kernel

theorem test_iinc_overflow :
    gives (request 0x00009007 0x7FFF 0x0 false) 0x8000 0x0 false = true := by decide +kernel

theorem test_iinc_wraps :
    gives (request 0x00001007 0xFFFF 0x0 false) 0x0 0x0 false = true := by decide +kernel

theorem test_idec_wraps :
    gives (request 0x0000C008 0x0 0x0 false) 0xFFFFFFFFFFFFFFFFFFFFFFFFFFFFFFFF 0x0 false = true := by decide +kernel

theorem test_ilnot_zero :
    gives (request 0x00002009 0x0 0x0 false) 0x1 0x0 true = true := by decide +kernel

theorem test_ilnot_nonzero :
    gives (request 0x00002009 0x5 0x0 false) 0x0 0x0 false = true := by decide +kernel

theorem test_inot :
    gives (request 0x0000100A 0xFF 0x0 false) 0xFF00 0x0 false = true := by decide +kernel

theorem test_ibool_zero :
    gives (request 0x0000300B 0x0 0x0 false) 0x0 0x0 false = true := by decide +kernel

theorem test_ibool_high_bit :
    gives (request 0x0000400B 0x80000000000000000000000000000000 0x0 false) 0x1 0x0 true = true := by decide +kernel

theorem test_ishl_across_limbs :
    gives (request 0x0000300C 0xFFFFFFFF 0x20 false) 0xFFFFFFFF00000000 0x0 false = true := by decide +kernel

theorem test_ishl_negative_amount :
    raises (request 0x0000900C 0x1 0xFFFF false) 3 = true := by decide +kernel

theorem test_ishr_arithmetic :
    gives (request 0x0000900D 0x8000 0xF false) 0xFFFF 0x0 false = true := by decide +kernel

theorem test_ishr_range :
    raises (request 0x0000300D 0x123 0x40 false) 3 = true := by decide +kernel

theorem test_ieq_ignores_high_port_bits :
    gives (request 0x0000900E 0xFFFF 0x1FFFF false) 0x1 0x0 true = true := by decide +kernel

theorem test_ine_equal :
    gives (request 0x0000100F 0x5 0x5 false) 0x0 0x0 false = true := by decide +kernel

theorem test_ine_different :
    gives (request 0x0000200F 0x5 0x6 false) 0x1 0x0 true = true := by decide +kernel

theorem test_ilt_unsigned :
    gives (request 0x00001010 0xFFFF 0x1 false) 0x0 0x0 false = true := by decide +kernel

theorem test_ilt_signed :
    gives (request 0x00009010 0xFFFF 0x1 false) 0x1 0x0 true = true := by decide +kernel

theorem test_ile_equal :
    gives (request 0x0000A011 0x80000000 0x80000000 false) 0x1 0x0 true = true := by decide +kernel

theorem test_ile_greater :
    gives (request 0x00003011 0x2 0x1 false) 0x0 0x0 false = true := by decide +kernel

theorem test_igt_unsigned :
    gives (request 0x00002012 0x80000000 0x7FFFFFFF false) 0x1 0x0 true = true := by decide +kernel

theorem test_igt_signed :
    gives (request 0x0000A012 0x80000000 0x7FFFFFFF false) 0x0 0x0 false = true := by decide +kernel

theorem test_ige_signed :
    gives (request 0x0000C013 0x80000000000000000000000000000000 0x7FFFFFFFFFFFFFFFFFFFFFFFFFFFFFFF false) 0x0 0x0 false = true := by decide +kernel

theorem test_ige_unsigned :
    gives (request 0x00004013 0x80000000000000000000000000000000 0x7FFFFFFFFFFFFFFFFFFFFFFFFFFFFFFF false) 0x1 0x0 true = true := by decide +kernel

theorem test_iadc_largest_sum :
    gives (request 0x00001014 0xFFFF 0xFFFF true) 0xFFFF 0x0 true = true := by decide +kernel

theorem test_iadc_no_unsigned_carry :
    gives (request 0x0000A014 0x7FFFFFFF 0x1 false) 0x80000000 0x0 false = true := by decide +kernel

theorem test_isbb_borrow_in :
    gives (request 0x00001015 0x3 0x3 true) 0xFFFF 0x0 true = true := by decide +kernel

theorem test_isbb_no_borrow_out :
    gives (request 0x00001015 0x5 0x3 true) 0x1 0x0 false = true := by decide +kernel

theorem test_imulx_unsigned :
    gives (request 0x00001016 0xFFFF 0xFFFF false) 0x1 0xFFFE false = true := by decide +kernel

theorem test_imulx_signed :
    gives (request 0x00009016 0xFFFF 0x1 false) 0xFFFF 0xFFFF false = true := by decide +kernel

theorem test_ibsr_top_bit :
    gives (request 0x00009017 0xFFFF 0x0 false) 0xF 0x0 true = true := by decide +kernel

theorem test_ibsr_zero :
    gives (request 0x00002017 0x0 0x0 false) 0x0 0x0 false = true := by decide +kernel

theorem test_icvt_sign_extends :
    gives (request 0x00039018 0x8001 0x0 false) 0xFFFFFFFFFFFF8001 0x0 false = true := by decide +kernel

theorem test_icvt_narrows :
    gives (request 0x00002018 0x12345678 0x0 false) 0x78 0x0 false = true := by decide +kernel

theorem test_fclass_subnormal :
    gives (request 0x00000040 0x1 0x0 false) 0x1 0xFFFFFFF200000004 false = true := by decide +kernel

theorem test_fclass_nan :
    gives (request 0x00000140 0x7FC00001 0x0 false) 0x400001 0x0 false = true := by decide +kernel

theorem test_fmkzero_negative :
    gives (request 0x00000141 0x0 0x0 true) 0x80000000 0x0 false = true := by decide +kernel

theorem test_fmkinf_negative :
    gives (request 0x00000242 0x0 0x0 true) 0xFFF0000000000000 0x0 false = true := by decide +kernel

theorem test_fmknan :
    gives (request 0x00000143 0x0 0x0 false) 0xFFC00000 0x0 false = true := by decide +kernel

theorem test_fmksub_smallest :
    gives (request 0x00000044 0x1 0x0 true) 0x8001 0x0 false = true := by decide +kernel

theorem test_fmksub_too_large :
    raises (request 0x00000044 0x400 0x0 false) 4 = true := by decide +kernel

theorem test_fmknorm_max :
    gives (request 0x00000045 0x7FF 0xF true) 0xFBFF 0x0 false = true := by decide +kernel

theorem test_fmknorm_below_emin :
    raises (request 0x00000045 0x400 0xFFFFFFF1 false) 4 = true := by decide +kernel

theorem test_fneg_nan :
    gives (request 0x00000046 0xFE00 0x0 false) 0x7E00 0x0 false = true := by decide +kernel

theorem test_fneg_zero :
    gives (request 0x00000146 0x0 0x0 false) 0x80000000 0x0 false = true := by decide +kernel

theorem test_fadd_tie_to_even :
    gives (request 0x00000147 0x3F800001 0x33800000 false) 0x3F800002 0x0 false = true := by decide +kernel

theorem test_fadd_signalling_nan :
    gives (request 0x00000147 0x7F800001 0x40400000 false) 0x7F800001 0x0 false = true := by decide +kernel

theorem test_fsub_subnormal_result :
    gives (request 0x00000048 0x400 0x3FF false) 0x1 0x0 false = true := by decide +kernel

theorem test_fsub_right_nan_negated :
    gives (request 0x00000148 0x3F800000 0x7FC00000 false) 0xFFC00000 0x0 false = true := by decide +kernel

theorem test_fmul_subnormal_tie :
    gives (request 0x00000149 0x3 0x3F000000 false) 0x2 0x0 false = true := by decide +kernel

theorem test_fmul_zero_times_inf :
    gives (request 0x00000149 0x80000000 0x7F800000 false) 0xFFC00000 0x0 false = true := by decide +kernel

theorem test_fdiv_one_third :
    gives (request 0x0000004A 0x3C00 0x4200 false) 0x3555 0x0 false = true := by decide +kernel

theorem test_fdiv_by_negative_zero :
    gives (request 0x0000014A 0x3F800000 0x80000000 false) 0xFF800000 0x0 false = true := by decide +kernel

theorem test_fcvt_narrow_above_tie :
    gives (request 0x0000014B 0x33000001 0x0 false) 0x1 0x0 false = true := by decide +kernel

theorem test_fcvt_narrow_nan_quiet_bit :
    gives (request 0x0000014B 0x7F800001 0x0 false) 0x7E00 0x0 false = true := by decide +kernel

theorem test_fcvt_from_int_tie :
    gives (request 0x0000A14C 0x1000003 0x0 false) 0x4B800002 0x0 false = true := by decide +kernel

theorem test_fcvt_from_unsigned :
    gives (request 0x0000214C 0xFFFFFFFF 0x0 false) 0x4F800000 0x0 false = true := by decide +kernel

theorem test_fcvt_to_int_truncates :
    gives (request 0x0000A14D 0xBFC00000 0x0 false) 0xFFFFFFFF 0x0 false = true := by decide +kernel

theorem test_fcvt_to_int_sentinel :
    gives (request 0x0000214D 0x4F800000 0x0 false) 0x0 0x0 false = true := by decide +kernel

theorem test_feq_signed_zeros :
    gives (request 0x0000014E 0x0 0x80000000 false) 0x1 0x0 true = true := by decide +kernel

theorem test_feq_nan :
    gives (request 0x0000014E 0x7FC00000 0x7FC00000 false) 0x0 0x0 false = true := by decide +kernel

theorem test_fne_nan :
    gives (request 0x0000004F 0x7E00 0x7E00 false) 0x1 0x0 true = true := by decide +kernel

theorem test_fne_signed_zeros :
    gives (request 0x0000014F 0x0 0x80000000 false) 0x0 0x0 false = true := by decide +kernel

theorem test_flt_negative_infinity :
    gives (request 0x00000150 0xFF800000 0xFF7FFFFF false) 0x1 0x0 true = true := by decide +kernel

theorem test_flt_signed_zeros :
    gives (request 0x00000150 0x80000000 0x0 false) 0x0 0x0 false = true := by decide +kernel

theorem test_fle_signed_zeros :
    gives (request 0x00000151 0x80000000 0x0 false) 0x1 0x0 true = true := by decide +kernel

theorem test_fle_nan :
    gives (request 0x00000151 0x3F800000 0x7F800001 false) 0x0 0x0 false = true := by decide +kernel

theorem test_fgt_greater :
    gives (request 0x00000152 0x40000000 0x3F800000 false) 0x1 0x0 true = true := by decide +kernel

theorem test_fgt_less :
    gives (request 0x00000052 0xFC00 0x7C00 false) 0x0 0x0 false = true := by decide +kernel

theorem test_fge_mixed_signs :
    gives (request 0x00000053 0x1 0x8001 false) 0x1 0x0 true = true := by decide +kernel

theorem test_fge_nan :
    gives (request 0x00000253 0xFFF8000000000000 0xFFF8000000000000 false) 0x0 0x0 false = true := by decide +kernel

/-- 95_test_vectors.md section 3.15: the portable build. -/
theorem test_fcvt_to_int_portable :
    responseOf (step { request 0x0000914D 0x471C4000 0 false with cfg := Config.portable }) = some ⟨0x7FFF, 0, false, 0⟩ := by
  decide +kernel

/-! ### Spelling, programs, bytes -/

/-- The examples of 30_encoding.md R92. -/
theorem test_spelling :
    spelling (.iadd .w16 .unsigned) = "IADD.U16" ∧ spelling (.icvt .w16 .signed .w64) = "ICVT.64.I16" ∧
    spelling (.fcvtFF .h .s) = "FCVT.S.H" ∧ spelling (.fcvtFI .s .w32 .signed) = "FCVT.S.I32" ∧
    spelling (.fcvtIF .s .w32 .signed) = "FCVT.I32.S" ∧ spelling (.fmknorm .h) = "FMKNORM.H" := by decide +kernel

/-- The pseudo-form `a %= b` of R94 is `a = IREM.I32 a, b`. -/
theorem test_expand_compound_assign :
    expand (.intRemAssign ⟨.w32, .signed⟩ "a" (.name "b")) = ⟨.irem .w32 .signed, [.name "a", .name "b"], some "a", .result⟩ := by
  decide

/-- `normal(sign, unbiased_exp, sig_with_implicit)` of R94 with the parts of program P7 of 95_test_vectors.md section 4: the exponent
and the significand change places. -/
theorem test_expand_normal :
    expand (.normal .s (.literal 1) (.literal 3) (.literal 0x00C00000))
      = ⟨.fmknorm .s, [.literal 1, .literal 0x00C00000, .literal 3], none, .result⟩ := by decide

/-- `b = a++` and `b = ++a` at the largest 16-bit value: `a` wraps to 0, and `b` is the old or the new value (R94, R128). -/
theorem test_postfix_and_prefix_increment :
    let start : Runner := ⟨[("a", 0xFFFF)], 0, State.reset, false⟩
    let vars := fun p => match runStatement [.pseudo (some "b") p] start with | .next r => r.vars | _ => []
    vars (.postIncrement ⟨.w16, .unsigned⟩ "a") = [("a", 0), ("b", 0xFFFF)] ∧
      vars (.preIncrement ⟨.w16, .unsigned⟩ "a") = [("a", 0), ("b", 0)] := by decide +kernel

/-- The first statement of program P7 of 95_test_vectors.md section 4: sign, significand and exponent go to CIN, A and B. -/
theorem test_program_statement :
    (requestOf [] (.fmknorm .s) [.literal 1, .literal 0x00C00000, .literal 3]).map (fun r => respond Config.default r)
      = some (some ⟨0xC1400000, 0, false, 0⟩) := by decide +kernel

/-- A statement that reads a name never bound is turned away (10_state.md R43). -/
theorem test_program_unbound_name :
    (requestOf [] (.iinc .w32 .unsigned) [.name "n"]).map readsUnassigned = some true := by decide +kernel

/-- 20_memory.md R61. -/
theorem test_bytes_little_endian : bytesOf 4 0x12345678#128 = [0x78, 0x56, 0x34, 0x12] := by decide +kernel

/-! ### Witnesses: the hypotheses of the statements can be met, clause by clause, at the ends of their ranges -/

theorem witness_DecodeReadsBackEncode : (Instr.icvt .w8 .signed .w128).wellFormed = true := by decide

theorem witness_AcceptedWordIsTheEncoding : decode 0x0004B018#32 = .ok (.icvt .w64 .signed .w128) := by decide +kernel

theorem witness_LegalExactlyByMaskMatchAndRange :
    LegalWord 0x0000C013#32 ∧ LegalWord 0x00044018#32 ∧ LegalWord 0x0000024A#32 ∧ LegalWord 0x00000A4B#32 ∧
      LegalWord 0x0000C24D#32 ∧ ¬ LegalWord 0x00000019#32 := by
  refine ⟨?_, ?_, ?_, ?_, ?_, ?_⟩ <;> (simp only [LegalWord]; decide +kernel)

theorem witness_IllegalWordRaisesIllegalOp : ¬ LegalWord (request 0x00000001 5 6 false).opw := by
  simp only [LegalWord]; decide +kernel

theorem witness_StepRunsTheDecodedOperation : decode (request 0x00000147 1 2 false).opw = .ok (.fadd .s) := by decide +kernel

/-- The two states differ in every port bit that IADC.U16 does not read and in the build. -/
theorem witness_ResponseReadsOnlyListedPorts :
    let i := Instr.iadc .w16 .unsigned
    let s := request 0x00001014 0x10005 0xF0003 true
    let t := { request 0x00000000 0x5 0x3 true with cfg := Config.portable }
    s ≠ t ∧ portA (portUse i).aBits s = portA (portUse i).aBits t ∧ portB (portUse i).bBits s = portB (portUse i).bBits t ∧
      ((portUse i).cin = true → s.cin = t.cin) ∧ ((∃ f w g, i = .fcvtIF f w g) → s.cfg = t.cfg) := by
  refine ⟨by decide, by decide, by decide, fun _ => rfl, ?_⟩
  rintro ⟨_, _, _, h⟩
  cases h

theorem witness_SignednessMattersOnlyWhereListed : Width.w64.bits < Width.w128.bits ∧ Width.w8.bits < Width.w16.bits := by decide

theorem witness_EveryStepLeavesALegalResponse : ∃ t, step (request 0x00000149 1 2 false) = .next t := ⟨_, rfl⟩

/-- The divisor is the low 16 bits of port B: bit 16 does not count. -/
theorem witness_Divide_and_Remainder_clauses :
    portB Width.w16.bits (request 0 7 0x10000 false) = 0 ∧ portB Width.w16.bits (request 0 7 0xFFFF false) ≠ 0 ∧
      portB Width.w128.bits (request 0 7 1 false) ≠ 0 := by decide +kernel

/-- MIN / −1. -/
theorem witness_QuotientAndRemainderRecombine :
    let s := request 0x00009004 0x8000 0xFFFF false
    portB Width.w16.bits s ≠ 0 ∧ (∃ t, exec (.idiv .w16 .signed) s = .next t) ∧ ∃ u, exec (.irem .w16 .signed) s = .next u :=
  ⟨by decide +kernel, ⟨_, rfl⟩, ⟨_, rfl⟩⟩

/-- Carry and borrow both go from the first request into the second. -/
theorem witness_CarryChainIsDoubleWidth :
    (∃ t1 t2 s2, exec (.iadc .w16 .unsigned) (request 0 0xFFFF 0xFFFF true) = .next t1 ∧ t1.flag = true ∧ s2.cin = t1.flag ∧
      exec (.iadc .w16 .unsigned) s2 = .next t2) ∧
    (∃ t1 t2 s2, exec (.isbb .w16 .unsigned) (request 0 0 0 true) = .next t1 ∧ t1.flag = true ∧ s2.cin = t1.flag ∧
      exec (.isbb .w16 .unsigned) s2 = .next t2) :=
  ⟨⟨_, _, request 0 1 2 true, rfl, by decide +kernel, by decide +kernel, rfl⟩,
    ⟨_, _, request 0 1 2 true, rfl, by decide +kernel, by decide +kernel, rfl⟩⟩

theorem witness_ShiftsAndShiftRange_clauses :
    Width.w16.bits ≤ portB Width.w16.bits (request 0 1 16 false) ∧ portB Width.w16.bits (request 0 1 15 false) < Width.w16.bits ∧
      portB Width.w16.bits (request 0 1 0x10000 false) < Width.w16.bits := by decide +kernel

theorem witness_BitScanFindsHighestBit_clauses :
    portA Width.w16.bits (request 0 0x10000 0 false) = 0 ∧ portA Width.w16.bits (request 0 1 0 false) ≠ 0 ∧
      portA Width.w16.bits (request 0 0xFFFF 0 false) ≠ 0 := by decide +kernel

/-- A truth value of 1 and one of 0, for the statements that say `AnswersTruth`. -/
theorem witness_LogicalNotAndToBool_clauses :
    portA Width.w16.bits (request 0 0x10000 0 false) = 0 ∧ portA Width.w16.bits (request 0 0x8000 0 false) ≠ 0 := by
  decide +kernel

/-- −1 < 1 as signed numbers and not as unsigned ones. -/
theorem witness_IntegerComparisons_clauses :
    readAs .signed 16 0xFFFF < readAs .signed 16 1 ∧ ¬ readAs .unsigned 16 0xFFFF < readAs .unsigned 16 1 ∧
      readAs .signed 16 0x8000 ≤ readAs .signed 16 0x8000 := by decide +kernel

theorem witness_RestoringDivisionIsExact :
    (0 < 1 ∧ 2 ^ 8 - 1 < 2 ^ 8) ∧ (1#8 : BitVec (limbBits 0)) ≠ 0 ∧ (0xFFFF#16 : BitVec (limbBits 1)) ≠ 0 := by decide +kernel

theorem witness_LimbShifterIsWholeValue : 0 < 8 + 8 ∧ 8 < 8 + 8 ∧ 15 < 8 + 8 := by decide

theorem witness_DecomposeByClass_clauses :
    Exact.IsZero .h 0x8000 ∧ Exact.IsSubnormal .h 0x0001 ∧ Exact.IsSubnormal .h 0x03FF ∧ Exact.IsInf .h 0xFC00 ∧
      Exact.IsNaN .h 0x7C01 ∧ Exact.IsNaN .h 0xFFFF ∧ Exact.IsNormal .h 0x0400 ∧ Exact.IsNormal .h 0x7BFF := by
  decide +kernel

theorem witness_FactoriesCheckTheirParts_subnormal :
    (0 < portA 16 (request 0 1 0 false) ∧ portA 16 (request 0 1 0 false) < 2 ^ Fmt.h.S) ∧
      (0 < portA 16 (request 0 0x3FF 0 false) ∧ portA 16 (request 0 0x3FF 0 false) < 2 ^ Fmt.h.S) ∧
      ¬ (0 < portA 16 (request 0 0 0 false)) ∧ ¬ portA 16 (request 0 0x400 0 false) < 2 ^ Fmt.h.S := by decide +kernel

theorem witness_FactoriesCheckTheirParts_normal :
    (Fmt.h.emin ≤ signedOf 32 (portB 32 (request 0 0 0xFFFFFFF2 false)) ∧ signedOf 32 (portB 32 (request 0 0 0xF false)) ≤ Fmt.h.emax) ∧
      2 ^ Fmt.h.S ≤ portA 16 (request 0 0x400 0 false) ∧ portA 16 (request 0 0x7FF 0 false) < 2 ^ (Fmt.h.S + 1) ∧
      ¬ Fmt.h.emin ≤ signedOf 32 (portB 32 (request 0 0 0xFFFFFFF1 false)) ∧
      ¬ signedOf 32 (portB 32 (request 0 0 0x10 false)) ≤ Fmt.h.emax ∧
      ¬ 2 ^ Fmt.h.S ≤ portA 16 (request 0 0x3FF 0 false) ∧ ¬ portA 16 (request 0 0x800 0 false) < 2 ^ (Fmt.h.S + 1) := by
  decide +kernel

theorem witness_ClassifyInvertsNormalFactory :
    ∃ t u : State, exec (.fmknorm .h) (request 0 0x7FF 0xF true) = .next t ∧ t.fault = 0 ∧ u.a = t.res :=
  ⟨_, request 0 0xFBFF 0 false, rfl, by decide +kernel, by decide +kernel⟩

theorem witness_RoundPackIsTheExactRule : 0 < (Magnitude.mk 1 3 0).num ∧ 0 < (Magnitude.mk 1 3 0).den := by decide

/-- binary16: 65520 is the overflow threshold and 2^−25 the underflow one; both sides of each equivalence occur. -/
theorem witness_OverflowAndUnderflowThresholds :
    roundPack .h false ⟨65520, 1, 0⟩ = infF .h false ∧ roundPack .h false ⟨65519, 1, 0⟩ ≠ infF .h false ∧
      roundPack .h false ⟨1, 1, -25⟩ = zeroF .h false ∧ roundPack .h false ⟨3, 2, -25⟩ ≠ zeroF .h false := by
  decide +kernel

/-- 1/3 in binary16, compared with the float above its rounding. -/
theorem witness_RoundPackIsNearestTiesToEven :
    |((-1) ^ false.toNat * ((1 : ℚ) / 3 * 2 ^ (0 : Int)) : ℚ)| < (2 - 2 ^ (-(Fmt.h.S : Int) - 1)) * 2 ^ Fmt.h.emax ∧
      0x3556 < 2 ^ Fmt.h.W ∧ Exact.IsFinite .h 0x3556 := by
  refine ⟨?_, by decide, by decide +kernel⟩
  rw [show -(Fmt.h.S : Int) - 1 = -11 by decide, show Fmt.h.emax = 15 by decide]
  norm_num

/-- A significand with bit S set at the ends of its range, and one below emin's binade. -/
theorem witness_RoundUnitIsRoundPack :
    let ok := fun (e : Int) (p q : Nat) => 0 < p ∧ 0 < q ∧
      (2 ^ Fmt.h.S ≤ p / q ∧ p / q < 2 ^ (Fmt.h.S + 1) ∧ Fmt.h.emin ≤ e ∨ e = Fmt.h.emin ∧ p / q < 2 ^ Fmt.h.S)
    ok 15 2047 1 ∧ ok (-14) 3073 3 ∧ ok (-14) 1 3 := by decide +kernel

theorem witness_AddAndMultiplyCommute :
    let s := request 0 0x8000 0x7C00 false
    let t := request 0 0x7C00 0x8000 false
    t.a = s.b ∧ t.b = s.a ∧ ¬ Exact.IsNaN .h (portA 16 s) ∧ ¬ Exact.IsNaN .h (portB 16 s) := by decide +kernel

/-- Inf − Inf makes the indeterminate NaN; a NaN converts to a NaN; an integer converts. -/
theorem witness_NoOtherNaNIsCreated :
    (∃ t, exec (.fadd .h) (request 0 0x7C00 0xFC00 false) = .next t ∧ Exact.IsNaN .h t.res.toNat) ∧
      (∃ t, exec (.fsub .h) (request 0 0x7C00 0x7C00 false) = .next t ∧ Exact.IsNaN .h t.res.toNat) ∧
      (∃ t, exec (.fmul .h) (request 0 0x7C00 0 false) = .next t ∧ Exact.IsNaN .h t.res.toNat) ∧
      (∃ t, exec (.fdiv .h) (request 0 0 0 false) = .next t ∧ Exact.IsNaN .h t.res.toNat) ∧
      (∃ t, exec (.fcvtFF .s .h) (request 0 0x7F800001 0 false) = .next t ∧ Exact.IsNaN .h t.res.toNat) ∧
      ∃ t, exec (.fcvtFI .h .w128 .unsigned) (request 0 (2 ^ 128 - 1) 0 false) = .next t :=
  ⟨⟨_, rfl, by decide +kernel⟩, ⟨_, rfl, by decide +kernel⟩, ⟨_, rfl, by decide +kernel⟩, ⟨_, rfl, by decide +kernel⟩,
    ⟨_, rfl, by decide +kernel⟩, ⟨_, rfl⟩⟩

theorem witness_WidenNarrowRoundTrip :
    Fmt.h.S < Fmt.s.S ∧ ∃ t u : State, exec (.fcvtFF .h .s) (request 0 0xFC01 0 false) = .next t ∧ u.a = t.res :=
  ⟨by decide, _, request 0 0xFF802000 0 false, rfl, by decide +kernel⟩

/-- 2^(S+1) itself, in binary16. -/
theorem witness_IntegerRoundTrip :
    (readAs .signed Width.w16.bits (portA Width.w16.bits (request 0 2048 0 false))).natAbs ≤ 2 ^ (Fmt.h.S + 1) ∧
      ∃ t u : State, exec (.fcvtFI .h .w16 .signed) (request 0 2048 0 false) = .next t ∧ u.a = t.res :=
  ⟨by decide +kernel, _, request 0 0x6800 0 false, rfl, by decide +kernel⟩

/-- Neither operand a NaN, and one a NaN. -/
theorem witness_FloatComparisonConsistency_clauses :
    ¬ (Exact.IsNaN .h 0x7C00 ∨ Exact.IsNaN .h 0xFC00) ∧ (Exact.IsNaN .h 0x3C00 ∨ Exact.IsNaN .h 0x7C01) := by decide +kernel

theorem witness_ConverterStagesAreExact : (2 ^ 128 - 1 : Int).natAbs < 2 ^ 128 ∧ (-(2 ^ 127) : Int).natAbs < 2 ^ 128 := by
  decide +kernel

/-- A run that completes and one that a fault ends (95_test_vectors.md section 3.3). -/
theorem witness_FaultIsTerminalForItsRequester :
    serve [⟨0x00001004, some 7, some 2, none⟩] State.reset = [some ⟨3, 0, false, 0⟩] ∧
      serve [⟨0x00001004, some 5, some 0, none⟩] State.reset = [some ⟨0, 0, false, 2⟩] := by decide +kernel

/-- Each port of FMKNORM unassigned in turn, and an illegal word, which reads none. -/
theorem witness_IndeterminateOperandIsRefused :
    readsUnassigned ⟨0x00000045, none, some 0, some false⟩ = true ∧ readsUnassigned ⟨0x00000045, some 0, none, some false⟩ = true ∧
      readsUnassigned ⟨0x00000045, some 0, some 0, none⟩ = true ∧ readsUnassigned ⟨0x00000043, none, none, none⟩ = false ∧
      readsUnassigned ⟨0x00000000, none, none, none⟩ = false := by decide +kernel

theorem witness_ByteViewIsLittleEndian : 16 ≤ 16 ∧ 15 < 16 ∧ 0 ≤ 16 := by decide

end Sys2Proof.Tests
end

section
/-! The words the decoder accepts are the legal words of 30_encoding.md R87: each code table accepts a range of codes, each group's
decoder accepts a mask, a match and those ranges, and the operation codes of the groups do not overlap (R81). -/

namespace Sys2Proof.Encoding

open Sys2Proof.Safety

/-! ### The code tables accept ranges (R81 to R84) -/

theorem exists_engineOp_iff (op : BitVec 8) :
    (∃ mk, engineOp op = some mk) ↔ 0x01 ≤ op.toNat ∧ op.toNat ≤ 0x17 := by
  rw [← Option.isSome_iff_exists]; revert op; decide

theorem exists_floatOp_iff (op : BitVec 8) :
    (∃ mk, floatOp op = some mk) ↔ 0x40 ≤ op.toNat ∧ op.toNat ≤ 0x4A ∨ 0x4E ≤ op.toNat ∧ op.toNat ≤ 0x53 := by
  rw [← Option.isSome_iff_exists]; revert op; decide

theorem exists_convertOp_iff (op : BitVec 8) :
    (∃ mk, convertOp op = some mk) ↔ op.toNat = 0x4C ∨ op.toNat = 0x4D := by
  rw [← Option.isSome_iff_exists]; revert op; decide

theorem exists_fmtOfCode_iff (c : BitVec 2) : (∃ f, fmtOfCode c = some f) ↔ c.toNat ≤ 2 := by
  rw [← Option.isSome_iff_exists]; revert c; decide

theorem exists_widthOfCode_iff (c : BitVec 3) : (∃ n, widthOfCode c = some n) ↔ c.toNat ≤ 4 := by
  rw [← Option.isSome_iff_exists]; revert c; decide

theorem exists_engineWidthOfCode_iff (c : BitVec 3) :
    (∃ n, engineWidthOfCode c = some n) ↔ 1 ≤ c.toNat ∧ c.toNat ≤ 4 := by
  rw [← Option.isSome_iff_exists]; revert c; decide

/-! ### What each group's decoder accepts (R88) -/

theorem decodeEngine_accepts_iff (w : Word) (mk : Width → Sgn → Instr) :
    (∃ i, decodeEngine w mk = .ok i) ↔
      matchesMask w engineMask ∧ 1 ≤ (iwField w).toNat ∧ (iwField w).toNat ≤ 4 := by
  rw [← exists_engineWidthOfCode_iff]
  unfold decodeEngine
  split
  · split <;> simp [*]
  · simp [*]

theorem decodeIcvt_accepts_iff (w : Word) :
    (∃ i, decodeIcvt w = .ok i) ↔
      matchesMask w icvtMask ∧ (iwField w).toNat ≤ 4 ∧ (iw2Field w).toNat ≤ 4 := by
  rw [← exists_widthOfCode_iff, ← exists_widthOfCode_iff]
  unfold decodeIcvt
  split
  · split <;> simp [*]
  · simp [*]

theorem decodeFloat_accepts_iff (w : Word) (mk : Fmt → Instr) :
    (∃ i, decodeFloat w mk = .ok i) ↔ matchesMask w floatMask ∧ (fmtField w).toNat ≤ 2 := by
  rw [← exists_fmtOfCode_iff]
  unfold decodeFloat
  split
  · split <;> simp [*]
  · simp [*]

theorem decodeFcvtFF_accepts_iff (w : Word) :
    (∃ i, decodeFcvtFF w = .ok i) ↔
      matchesMask w fcvtFFMask ∧ (fmtField w).toNat ≤ 2 ∧ (fmt2Field w).toNat ≤ 2 := by
  rw [← exists_fmtOfCode_iff, ← exists_fmtOfCode_iff]
  unfold decodeFcvtFF
  split
  · split <;> simp [*]
  · simp [*]

theorem decodeConvert_accepts_iff (w : Word) (mk : Fmt → Width → Sgn → Instr) :
    (∃ i, decodeConvert w mk = .ok i) ↔
      matchesMask w convertMask ∧ (fmtField w).toNat ≤ 2 ∧ (iwField w).toNat ≤ 4 := by
  rw [← exists_fmtOfCode_iff, ← exists_widthOfCode_iff]
  unfold decodeConvert
  split
  · split <;> simp [*]
  · simp [*]

/-! ### `LegalWord` in the decoder's fields -/

theorem opField_toNat (w : Word) : (opField w).toNat = w.toNat % 2 ^ 8 := by
  simp [opField]

theorem fmtField_toNat (w : Word) : (fmtField w).toNat = w.toNat / 2 ^ 8 % 2 ^ 2 := by
  simp [fmtField, Nat.shiftRight_eq_div_pow]

theorem fmt2Field_toNat (w : Word) : (fmt2Field w).toNat = w.toNat / 2 ^ 10 % 2 ^ 2 := by
  simp [fmt2Field, Nat.shiftRight_eq_div_pow]

theorem iwField_toNat (w : Word) : (iwField w).toNat = w.toNat / 2 ^ 12 % 2 ^ 3 := by
  simp [iwField, Nat.shiftRight_eq_div_pow]

theorem iw2Field_toNat (w : Word) : (iw2Field w).toNat = w.toNat / 2 ^ 16 % 2 ^ 3 := by
  simp [iw2Field, Nat.shiftRight_eq_div_pow]

theorem matchesMask_iff (w mask : Word) :
    matchesMask w mask ↔ w &&& mask = BitVec.ofNat 32 (opField w).toNat := by
  simp [matchesMask]

/-- The five rows of R87 in the decoder's fields and masks. -/
theorem legalWord_iff_fields (w : Word) :
    LegalWord w ↔
      (0x01 ≤ (opField w).toNat ∧ (opField w).toNat ≤ 0x17 ∧ matchesMask w engineMask ∧
        1 ≤ (iwField w).toNat ∧ (iwField w).toNat ≤ 4) ∨
      ((opField w).toNat = 0x18 ∧ matchesMask w icvtMask ∧ (iwField w).toNat ≤ 4 ∧ (iw2Field w).toNat ≤ 4) ∨
      ((0x40 ≤ (opField w).toNat ∧ (opField w).toNat ≤ 0x4A ∨ 0x4E ≤ (opField w).toNat ∧ (opField w).toNat ≤ 0x53) ∧
        matchesMask w floatMask ∧ (fmtField w).toNat ≤ 2) ∨
      ((opField w).toNat = 0x4B ∧ matchesMask w fcvtFFMask ∧ (fmtField w).toNat ≤ 2 ∧ (fmt2Field w).toNat ≤ 2) ∨
      (((opField w).toNat = 0x4C ∨ (opField w).toNat = 0x4D) ∧ matchesMask w convertMask ∧
        (fmtField w).toNat ≤ 2 ∧ (iwField w).toNat ≤ 4) := by
  simp only [LegalWord, ← opField_toNat, ← fmtField_toNat, ← fmt2Field_toNat, ← iwField_toNat, ← iw2Field_toNat,
    matchesMask_iff, engineMask, icvtMask, floatMask, fcvtFFMask, convertMask]
  -- The rows of ICVT and FCVT.F.F write their match as a literal, the decoder writes every match as OP.
  refine or_congr_right (or_congr (and_congr_right fun hop => ?icvt) (or_congr_right (or_congr_left
    (and_congr_right fun hop => ?fcvtFF))))
  case icvt => rw [hop]
  case fcvtFF => rw [hop]

/-! ### The obligation -/

/-- Settles O3: each branch of the decoder is one row of R87, and the operation codes of that branch rule out the other rows. -/
theorem legalExactlyByMaskMatchAndRange : Obligations.LegalExactlyByMaskMatchAndRange := by
  unfold Obligations.LegalExactlyByMaskMatchAndRange
  intro w
  rw [legalWord_iff_fields]
  unfold decode
  split
  next mk hmk =>
    have hop := (exists_engineOp_iff (opField w)).1 ⟨mk, hmk⟩
    rw [decodeEngine_accepts_iff]
    grind
  next hEngine =>
  split
  next mk hmk =>
    have hop := (exists_floatOp_iff (opField w)).1 ⟨mk, hmk⟩
    rw [decodeFloat_accepts_iff]
    grind
  next hFloat =>
  split
  next mk hmk =>
    have hop := (exists_convertOp_iff (opField w)).1 ⟨mk, hmk⟩
    rw [decodeConvert_accepts_iff]
    grind
  next hConvert =>
  split
  next hIcvt =>
    have hop : (opField w).toNat = 0x18 := congrArg BitVec.toNat hIcvt
    rw [decodeIcvt_accepts_iff]
    grind
  next hIcvt =>
  split
  next hFcvtFF =>
    have hop : (opField w).toNat = 0x4B := congrArg BitVec.toNat hFcvtFF
    rw [decodeFcvtFF_accepts_iff]
    grind
  next hFcvtFF =>
    have hEngine := mt (exists_engineOp_iff (opField w)).2 (by simp [hEngine])
    have hFloat := mt (exists_floatOp_iff (opField w)).2 (by simp [hFloat])
    have hConvert := mt (exists_convertOp_iff (opField w)).2 (by simp [hConvert])
    have hIcvt : (opField w).toNat ≠ 0x18 := mt (BitVec.eq_of_toNat_eq (y := 0x18#8)) hIcvt
    have hFcvtFF : (opField w).toNat ≠ 0x4B := mt (BitVec.eq_of_toNat_eq (y := 0x4B#8)) hFcvtFF
    grind

end Sys2Proof.Encoding
end

section
/-! The integer arithmetic of 40_int_arith.md R120 to R135: each result as a number mod 2^N, each flag as a comparison of numbers,
and from these what each operation answers. -/

namespace Sys2Proof.IntArith

open Sys2Proof.Machine Sys2Proof.Safety

/-! ### The results as numbers (R120) -/

/-- The pattern of a natural number needs no signed remainder. -/
theorem pattern_natCast_toNat (n v : Nat) : (pattern n (v : Int)).toNat = v % 2 ^ n :=
  (pattern_eq_wrap n v).trans (wrap_natCast n v)

theorem addMod_toNat {n : Nat} (a b : BitVec n) : (addMod a b).toNat = (uval a + uval b) % 2 ^ n :=
  pattern_natCast_toNat n (uval a + uval b)

theorem subMod_toNat {n : Nat} (a b : BitVec n) : (subMod a b).toNat = wrap n ((uval a : Int) - uval b) :=
  pattern_eq_wrap n _

theorem mulMod_toNat {n : Nat} (a b : BitVec n) : (mulMod a b).toNat = uval a * uval b % 2 ^ n :=
  pattern_natCast_toNat n (uval a * uval b)

/-- An operand is below 2^N, so the difference of R127 is a natural number. -/
theorem negMod_toNat {n : Nat} (a : BitVec n) : (negMod a).toNat = (2 ^ n - uval a) % 2 ^ n := by
  have hcast : (2 ^ n - uval a : Int) = ((2 ^ n - uval a : Nat) : Int) := by
    rw [Nat.cast_sub (uval_lt a).le, two_pow_cast]
  rw [negMod, hcast, pattern_natCast_toNat]

theorem incMod_toNat {n : Nat} (a : BitVec n) : (incMod a).toNat = (uval a + 1) % 2 ^ n :=
  pattern_natCast_toNat n (uval a + 1)

theorem decMod_toNat {n : Nat} (a : BitVec n) : (decMod a).toNat = wrap n ((uval a : Int) - 1) :=
  pattern_eq_wrap n _

theorem complement_toNat {n : Nat} (a : BitVec n) : (complement a).toNat = 2 ^ n - 1 - uval a :=
  BitVec.toNat_not

theorem addCarry_toNat {n : Nat} (a b : BitVec n) (c : Bool) :
    (addCarry a b c).toNat = (uval a + uval b + c.toNat) % 2 ^ n :=
  pattern_natCast_toNat n (uval a + uval b + c.toNat)

theorem subBorrow_toNat {n : Nat} (a b : BitVec n) (c : Bool) :
    (subBorrow a b c).toNat = wrap n ((uval a : Int) - uval b - c.toNat) :=
  pattern_eq_wrap n _

/-! ### The flags (R130, R132, R134) -/

theorem isZeroFlag_iff {n : Nat} (a : BitVec n) : isZeroFlag a = true ↔ uval a = 0 := decide_eq_true_iff

theorem isNonzeroFlag_iff {n : Nat} (a : BitVec n) : isNonzeroFlag a = true ↔ uval a ≠ 0 := decide_eq_true_iff

/-- A negative difference, without negative numbers. -/
theorem borrowFlag_eq {n : Nat} (a b : BitVec n) (c : Bool) :
    borrowFlag a b c = decide (uval a < uval b + c.toNat) :=
  decide_eq_decide.2 (by omega)

/-! ### The halves of the 2N-bit product (R135) -/

theorem extract_low_toNat {n : Nat} (p : BitVec (2 * n)) : (p.extractLsb' 0 n).toNat = p.toNat % 2 ^ n := by
  rw [BitVec.extractLsb'_toNat, Nat.shiftRight_zero]

/-- Above the low half of a 2N-bit pattern there are N bits only, so nothing is cut off. -/
theorem extract_high_toNat {n : Nat} (p : BitVec (2 * n)) : (p.extractLsb' n n).toNat = p.toNat / 2 ^ n := by
  have hp : p.toNat < 2 ^ n * 2 ^ n := by rw [← pow_add, ← two_mul]; exact p.isLt
  rw [BitVec.extractLsb'_toNat, Nat.shiftRight_eq_div_pow, Nat.mod_eq_of_lt (Nat.div_lt_of_lt_mul hp)]

/-! ### Results of the operands read with a signedness (R125, R126, R135) -/

theorem quotient_operands_toNat (w : Width) (g : Sgn) (s : State) :
    (pattern w.bits (quotient g (operandA w.bits s) (operandB w.bits s))).toNat =
      wrap w.bits (Int.tdiv (readAs g w.bits (portA w.bits s)) (readAs g w.bits (portB w.bits s))) := by
  rw [pattern_eq_wrap, quotient_eq_tdiv, ival_operandA, ival_operandB]

theorem remainder_operands_toNat (w : Width) (g : Sgn) (s : State) :
    (pattern w.bits (remainder g (operandA w.bits s) (operandB w.bits s))).toNat =
      wrap w.bits (Int.tmod (readAs g w.bits (portA w.bits s)) (readAs g w.bits (portB w.bits s))) := by
  rw [pattern_eq_wrap, remainder_eq_tmod, ival_operandA, ival_operandB]

theorem mulExtended_operands_toNat (w : Width) (g : Sgn) (s : State) :
    (mulExtended g (operandA w.bits s) (operandB w.bits s)).toNat =
      wrap (2 * w.bits) (readAs g w.bits (portA w.bits s) * readAs g w.bits (portB w.bits s)) := by
  rw [mulExtended, pattern_eq_wrap, ival_operandA, ival_operandB]

/-- The zero-divisor test that IDIV and IREM share: a fault, or the result. -/
theorem divisorTest_faults_or_answers {w : Width} {s : State} {o : Host.Outcome State Fault Refusal} {r : BitVec w.bits} {v : Nat}
    (ho : o = if uval (operandB w.bits s) = 0 then completeFault .intDivZero s else completeRes r s) (hr : r.toNat = v) :
    (portB w.bits s = 0 → FaultsWith o s 2) ∧ (portB w.bits s ≠ 0 → Answers o s v 0 false) := by
  rw [uval_operandB] at ho
  refine ⟨fun hzero => ?_, fun hne => ?_⟩
  · rw [ho, if_pos hzero]
    exact completeFault_faults .intDivZero s
  · rw [ho, if_neg hne]
    exact completeRes_answers w.bits_le s hr

/-! ### The obligations -/

/-- Settles O12: each of the three writes the pattern of the exact sum, difference or product. -/
theorem addSubMulAreModular : Obligations.AddSubMulAreModular := by
  unfold Obligations.AddSubMulAreModular
  intro w g s
  refine ⟨?iadd, ?isub, ?imul⟩
  case iadd => exact completeRes_answers w.bits_le s (by rw [addMod_toNat, uval_operandA, uval_operandB])
  case isub => exact completeRes_answers w.bits_le s (by rw [subMod_toNat, uval_operandA, uval_operandB])
  case imul => exact completeRes_answers w.bits_le s (by rw [mulMod_toNat, uval_operandA, uval_operandB])

/-- Settles O13: the quotient of magnitudes with the sign of R125 is the truncated quotient (`quotient_eq_tdiv`). -/
theorem divideTruncatesTowardZero : Obligations.DivideTruncatesTowardZero := by
  unfold Obligations.DivideTruncatesTowardZero
  intro w g s
  exact divisorTest_faults_or_answers rfl (quotient_operands_toNat w g s)

/-- Settles O14: the dividend less quotient times divisor is the truncated remainder (`remainder_eq_tmod`). -/
theorem remainderMatchesQuotient : Obligations.RemainderMatchesQuotient := by
  unfold Obligations.RemainderMatchesQuotient
  intro w g s
  exact divisorTest_faults_or_answers rfl (remainder_operands_toNat w g s)

/-- Settles O16: three patterns of exact results, and the complement, which cannot leave the N bits. -/
theorem unaryArithmeticResults : Obligations.UnaryArithmeticResults := by
  unfold Obligations.UnaryArithmeticResults
  intro w g s
  refine ⟨?ineg, ?iinc, ?idec, ?inot⟩
  case ineg => exact completeRes_answers w.bits_le s (by rw [negMod_toNat, uval_operandA])
  case iinc => exact completeRes_answers w.bits_le s (by rw [incMod_toNat, uval_operandA])
  case idec => exact completeRes_answers w.bits_le s (by rw [decMod_toNat, uval_operandA])
  case inot => exact completeRes_answers w.bits_le s (by rw [complement_toNat, uval_operandA])

/-- Settles O17: the flag of each operation decides its proposition about the operand. -/
theorem logicalNotAndToBool : Obligations.LogicalNotAndToBool := by
  unfold Obligations.LogicalNotAndToBool
  intro w g s
  refine ⟨?ilnot, ?ibool⟩
  case ilnot => exact completeTruth_answers (by rw [isZeroFlag_iff, uval_operandA]) s
  case ibool => exact completeTruth_answers (by rw [isNonzeroFlag_iff, uval_operandA]) s

/-- Settles O18: the carry flag is the statement's comparison as it stands, the borrow flag by `borrowFlag_eq`. -/
theorem carryAndBorrow : Obligations.CarryAndBorrow := by
  unfold Obligations.CarryAndBorrow
  intro w g s
  refine ⟨?iadc, ?isbb⟩
  case iadc =>
    exact completeResFlag_answers w.bits_le s (by rw [addCarry_toNat, uval_operandA, uval_operandB, carryIn])
      (by rw [carryFlag, uval_operandA, uval_operandB, carryIn])
  case isbb =>
    exact completeResFlag_answers w.bits_le s (by rw [subBorrow_toNat, uval_operandA, uval_operandB, carryIn])
      (by rw [borrowFlag_eq, uval_operandA, uval_operandB, carryIn])

/-- Settles O20: RES and RES_HI are the low and the high half of the 2N-bit pattern of the product. -/
theorem extendedProduct : Obligations.ExtendedProduct := by
  unfold Obligations.ExtendedProduct
  intro w g s p
  have hp : (mulExtended g (operandA w.bits s) (operandB w.bits s)).toNat = p := mulExtended_operands_toNat w g s
  exact completeResHi_answers w.bits_le w.bits_le s (by rw [extract_low_toNat, hp]) (by rw [extract_high_toNat, hp])

end Sys2Proof.IntArith
end

section
/-! The integer shifts and the bit scan of 41_int_shift_scan.md R160 to R163: each result as a number, the range test the shifts share,
and from these what each operation answers. -/

namespace Sys2Proof.IntShift

open Sys2Proof.Machine Sys2Proof.Safety

/-! ### The shifts (R160, R161, R162) -/

theorem shiftLeft_toNat {n : Nat} (a : BitVec n) (k : Nat) : (shiftLeft a k).toNat = uval a * 2 ^ k % 2 ^ n := by
  rw [shiftLeft, pattern_eq_wrap, wrap_natCast]

/-- The divisor is positive, so the model's quotient is the floor. -/
theorem shiftRight_toNat {n : Nat} (g : Sgn) (a : BitVec n) (k : Nat) :
    (shiftRight g a k).toNat = wrap n (Int.fdiv (ival g a) (2 ^ k)) := by
  rw [shiftRight, pattern_eq_wrap, Int.fdiv_eq_ediv_of_nonneg _ (by positivity)]

/-- The range test that ISHL and ISHR share: a fault, or the result. -/
theorem rangeTest_faults_or_answers {w : Width} {s : State} {o : Host.Outcome State Fault Refusal} {r : BitVec w.bits} {v : Nat}
    (ho : o = if w.bits ≤ shiftAmount w.bits s then completeFault .shiftRange s else completeRes r s) (hr : r.toNat = v) :
    (w.bits ≤ portB w.bits s → FaultsWith o s 3) ∧ (portB w.bits s < w.bits → Answers o s v 0 false) := by
  rw [shiftAmount, uval_operandB] at ho
  refine ⟨fun hrange => ?_, fun hlegal => ?_⟩
  · rw [ho, if_pos hrange]
    exact completeFault_faults .shiftRange s
  · rw [ho, if_neg hlegal.not_ge]
    exact completeRes_answers w.bits_le s hr

/-! ### The bit scan (R163) -/

theorem foundFlag_eq {n : Nat} (a : BitVec n) : foundFlag a = decide (uval a ≠ 0) := by
  rw [foundFlag, Bool.eq_iff_iff, decide_eq_true_iff, ← Option.ne_none_iff_isSome, ne_eq, highestSet_none (uval_lt a)]

theorem bitScan_of_zero {n : Nat} {a : BitVec n} (h0 : uval a = 0) : bitScan a = 0 := by
  rw [bitScan, (highestSet_none (uval_lt a)).2 h0, Option.getD_none]

theorem bitScan_bounds {n : Nat} {a : BitVec n} (h0 : uval a ≠ 0) :
    bitScan a < n ∧ 2 ^ bitScan a ≤ uval a ∧ uval a < 2 ^ (bitScan a + 1) := by
  obtain ⟨k, hk, hbounds⟩ := highestSet_of_pos (uval_lt a) h0
  rwa [bitScan, hk, Option.getD_some]

theorem bitScan_le {n : Nat} (a : BitVec n) : bitScan a ≤ n := by
  by_cases h0 : uval a = 0
  · rw [bitScan_of_zero h0]
    exact n.zero_le
  · exact (bitScan_bounds h0).1.le

/-- An index is far below 2^128, so RES holds it whole. -/
theorem bitScan_pattern_toNat {n : Nat} (hn : n ≤ 128) (a : BitVec n) : (pattern 128 (bitScan a)).toNat = bitScan a := by
  have hle := bitScan_le a
  rw [pattern_eq_wrap, wrap_natCast, Nat.mod_eq_of_lt (by omega)]

theorem ibsr_answers (w : Width) (g : Sgn) (s : State) :
    Answers (exec (.ibsr w g) s) s (bitScan (operandA w.bits s)) 0 (decide (portA w.bits s ≠ 0)) :=
  completeResFlag_answers le_rfl s (bitScan_pattern_toNat w.bits_le _) (by rw [foundFlag_eq, uval_operandA])

/-! ### The obligations -/

/-- Settles O21: the range test decides between fault and result, and each result is the pattern of the shifted number. -/
theorem shiftsAndShiftRange : Obligations.ShiftsAndShiftRange := by
  unfold Obligations.ShiftsAndShiftRange
  intro w g s
  have hshl : (shiftLeft (operandA w.bits s) (shiftAmount w.bits s)).toNat =
      portA w.bits s * 2 ^ portB w.bits s % 2 ^ w.bits := by
    rw [shiftLeft_toNat, shiftAmount, uval_operandA, uval_operandB]
  have hshr : (shiftRight g (operandA w.bits s) (shiftAmount w.bits s)).toNat =
      wrap w.bits (Int.fdiv (readAs g w.bits (portA w.bits s)) (2 ^ portB w.bits s)) := by
    rw [shiftRight_toNat, shiftAmount, ival_operandA, uval_operandB]
  obtain ⟨hshlFault, hshlAnswer⟩ := rangeTest_faults_or_answers (o := exec (.ishl w g) s) rfl hshl
  obtain ⟨hshrFault, hshrAnswer⟩ := rangeTest_faults_or_answers (o := exec (.ishr w g) s) rfl hshr
  exact ⟨fun hrange => ⟨hshlFault hrange, hshrFault hrange⟩, fun hlegal => ⟨hshlAnswer hlegal, hshrAnswer hlegal⟩⟩

/-- Settles O22: the index answered is `bitScan`, which is 0 for a zero operand and else has the two bounds. -/
theorem bitScanFindsHighestBit : Obligations.BitScanFindsHighestBit := by
  unfold Obligations.BitScanFindsHighestBit
  intro w g s
  have hanswers := ibsr_answers w g s
  refine ⟨fun h0 => ?zero, fun h0 => ?nonzero⟩
  case zero => simpa [h0, bitScan_of_zero] using hanswers
  case nonzero =>
    obtain ⟨-, hlow, hhigh⟩ := bitScan_bounds (a := operandA w.bits s) (by rwa [uval_operandA])
    rw [uval_operandA] at hlow hhigh
    exact ⟨_, hlow, hhigh, by simpa [h0] using hanswers⟩

end Sys2Proof.IntShift
end

section
/-! The integer comparisons and the width conversion of 42_int_compare_convert.md R181 to R187: each truth value as a relation of
numbers, the converted pattern as a number, and from these what each operation answers. -/

namespace Sys2Proof.IntCompare

open Sys2Proof.Machine Sys2Proof.Safety

/-! ### The truth values (R181 to R186) -/

theorem intEq_iff {n : Nat} (a b : BitVec n) : intEq a b = true ↔ uval a = uval b :=
  decide_eq_true_iff.trans BitVec.toNat_inj.symm

theorem not_intEq_iff {n : Nat} (a b : BitVec n) : (!intEq a b) = true ↔ uval a ≠ uval b := by
  rw [Bool.not_eq_true', ← Bool.not_eq_true, intEq_iff]

theorem intLt_iff {n : Nat} (g : Sgn) (a b : BitVec n) : intLt g a b = true ↔ ival g a < ival g b := decide_eq_true_iff

theorem intLe_iff {n : Nat} (g : Sgn) (a b : BitVec n) : intLe g a b = true ↔ ival g a ≤ ival g b := decide_eq_true_iff

/-! ### The width conversion (R187) -/

/-- Sign extension writes the two's-complement pattern of the number that the source is read as. -/
theorem signExtend_toNat {n : Nat} (a : BitVec n) (n2 : Nat) : (a.signExtend n2).toNat = wrap n2 (ival .signed a) := by
  rw [BitVec.signExtend, ← sval_eq_toInt]
  exact pattern_eq_wrap n2 (sval a)

/-- Zero extension writes the pattern of the number read unsigned. -/
theorem zeroExtend_toNat {n : Nat} (a : BitVec n) (n2 : Nat) : (a.setWidth n2).toNat = wrap n2 (ival .unsigned a) :=
  (BitVec.toNat_setWidth n2 a).trans (wrap_natCast n2 (uval a)).symm

theorem convertWidth_toNat {n : Nat} (g : Sgn) (a : BitVec n) (n2 : Nat) :
    (convertWidth g a n2).toNat = if n ≤ n2 then wrap n2 (ival g a) else uval a % 2 ^ n2 := by
  unfold convertWidth
  split
  case isTrue =>
    cases g with
    | signed => exact signExtend_toNat a n2
    | unsigned => exact zeroExtend_toNat a n2
  case isFalse => rw [BitVec.extractLsb'_toNat, Nat.shiftRight_zero, uval]

/-! ### The obligations -/

/-- Settles O23: each truth value decides its relation of the operands as numbers. IGT and IGE are ILT and ILE of the exchanged
operands. -/
theorem integerComparisons : Obligations.IntegerComparisons := by
  unfold Obligations.IntegerComparisons
  intro w g s a b
  refine ⟨?ieq, ?ine, ?ilt, ?ile, ?igt, ?ige⟩
  case ieq => exact completeTruth_answers (by rw [intEq_iff, uval_operandA, uval_operandB]) s
  case ine => exact completeTruth_answers (by rw [not_intEq_iff, uval_operandA, uval_operandB]) s
  case ilt => exact completeTruth_answers (by rw [intLt_iff, ival_operandA, ival_operandB]) s
  case ile => exact completeTruth_answers (by rw [intLe_iff, ival_operandA, ival_operandB]) s
  case igt => exact completeTruth_answers (by rw [intLt_iff, ival_operandA, ival_operandB]) s
  case ige => exact completeTruth_answers (by rw [intLe_iff, ival_operandA, ival_operandB]) s

/-- Settles O24: ICVT writes the converted pattern, whose number is the one stated for wide and for narrow results. -/
theorem widthConversion : Obligations.WidthConversion := by
  unfold Obligations.WidthConversion
  intro w g w2 s
  exact completeRes_answers w2.bits_le s (by rw [convertWidth_toNat, ival_operandA, uval_operandA])

end Sys2Proof.IntCompare
end

section
/-! The float datapath of 43_fp_datapath.md R203 to R232: the decomposition of each class, what FCLASS, the factories and FNEG make of
their operands as numbers, and the machine's rounding as R211 over the rationals. -/

namespace Sys2Proof.FpDatapath

open Sys2Proof.Machine Sys2Proof.Safety

/-! ### Fields and classes of a pattern (R201, R203) -/

theorem biasedExp_exact (f : Fmt) (x : BitVec f.W) : biasedExp f x = Exact.biased f x.toNat := biasedExp_eq f x

theorem trailingSig_exact (f : Fmt) (x : BitVec f.W) : trailingSig f x = Exact.trailing f x.toNat := trailingSig_eq f x

theorem signBit_exact (f : Fmt) (x : BitVec f.W) : signBit f x = decide (Exact.sign f x.toNat = 1) := signBit_eq f x

theorem signBit_toNat (f : Fmt) (x : BitVec f.W) : (signBit f x).toNat = Exact.sign f x.toNat := by
  have hbit : Exact.sign f x.toNat < 2 := Nat.mod_lt _ two_pos
  rw [signBit_exact]
  by_cases h1 : Exact.sign f x.toNat = 1
  · simp [h1]
  · simp only [h1, decide_false, Bool.toNat_false]
    omega

/-- The exponent field of an Infinity or NaN is not that of a Zero or Subnormal. -/
theorem two_pow_E_pred_ne_zero (f : Fmt) : 2 ^ f.E - 1 ≠ 0 := by
  rw [← Fmt.two_B]
  exact Nat.succ_ne_zero _

/-- Every pattern is of one of the five classes. -/
theorem class_cases (f : Fmt) (n : Nat) :
    Exact.IsZero f n ∨ Exact.IsSubnormal f n ∨ Exact.IsInf f n ∨ Exact.IsNaN f n ∨ Exact.IsNormal f n := by
  by_cases hzero : Exact.biased f n = 0
  · by_cases ht : Exact.trailing f n = 0
    · exact .inl ⟨hzero, ht⟩
    · exact .inr (.inl ⟨hzero, ht⟩)
  · by_cases hmax : Exact.biased f n = 2 ^ f.E - 1
    · by_cases ht : Exact.trailing f n = 0
      · exact .inr (.inr (.inl ⟨hmax, ht⟩))
      · exact .inr (.inr (.inr (.inl ⟨hmax, ht⟩)))
    · exact .inr (.inr (.inr (.inr ⟨hzero, hmax⟩)))

/-! ### Decomposition, class by class (R203) -/

theorem decompose_sign (f : Fmt) (x : BitVec f.W) : (decompose f x).sign = signBit f x := by
  obtain ⟨hd, -⟩ | ⟨hd, -⟩ | ⟨hd, -⟩ | ⟨hd, -⟩ | ⟨hd, -⟩ := decompose_cases f x <;> rw [hd]

/-- A significand has at most the S trailing bits and the implicit bit. -/
theorem decompose_sig_lt (f : Fmt) (x : BitVec f.W) : (decompose f x).sig < 2 ^ (f.S + 1) := by
  have ht := trailingSig_lt f x
  rw [pow_succ]
  obtain ⟨hd, -⟩ | ⟨hd, -⟩ | ⟨hd, -⟩ | ⟨hd, -⟩ | ⟨hd, -⟩ := decompose_cases f x <;> simp only [hd] <;> omega

section
variable {f : Fmt} {x : BitVec f.W}

theorem decompose_of_isZero (h : Exact.IsZero f x.toNat) : decompose f x = ⟨.zero, signBit f x, 0, 0⟩ := by
  obtain ⟨hbiased, htrailing⟩ := h
  simp [decompose, biasedExp_exact, trailingSig_exact, hbiased, htrailing]

theorem decompose_of_isSubnormal (h : Exact.IsSubnormal f x.toNat) :
    decompose f x = ⟨.subnormal, signBit f x, f.emin, Exact.trailing f x.toNat⟩ := by
  obtain ⟨hbiased, htrailing⟩ := h
  simp [decompose, biasedExp_exact, trailingSig_exact, hbiased, htrailing]

theorem decompose_of_isInf (h : Exact.IsInf f x.toNat) : decompose f x = ⟨.infinity, signBit f x, 0, 0⟩ := by
  obtain ⟨hbiased, htrailing⟩ := h
  simp [decompose, biasedExp_exact, trailingSig_exact, hbiased, htrailing, maxBiased, two_pow_E_pred_ne_zero]

theorem decompose_of_isNaN (h : Exact.IsNaN f x.toNat) :
    decompose f x = ⟨.nan, signBit f x, 0, Exact.trailing f x.toNat⟩ := by
  obtain ⟨hbiased, htrailing⟩ := h
  simp [decompose, biasedExp_exact, trailingSig_exact, hbiased, htrailing, maxBiased, two_pow_E_pred_ne_zero]

/-- The implicit bit of a Normal, set by an OR, is added to the trailing bits below it. -/
theorem decompose_of_isNormal (h : Exact.IsNormal f x.toNat) :
    decompose f x =
      ⟨.normal, signBit f x, (Exact.biased f x.toNat : Int) - f.B, Exact.trailing f x.toNat + 2 ^ f.S⟩ := by
  obtain ⟨hzero, hmax⟩ := h
  have himplicit : Exact.trailing f x.toNat ||| 1 <<< f.S = Exact.trailing f x.toNat + 2 ^ f.S := by
    have htrailing : Exact.trailing f x.toNat < 2 ^ f.S := Nat.mod_lt _ (Nat.two_pow_pos _)
    rw [Nat.lor_comm, ← Nat.shiftLeft_add_eq_or_of_lt htrailing, Nat.one_shiftLeft, Nat.add_comm]
  simp [decompose, biasedExp_exact, trailingSig_exact, hzero, hmax, maxBiased, himplicit]

end

/-! ### The parts that FCLASS reports (R226) -/

theorem decompose_sig (f : Fmt) (x : BitVec f.W) :
    (decompose f x).sig = if Exact.IsFinite f x.toNat then Exact.significand f x.toNat else Exact.trailing f x.toNat := by
  have hmax := two_pow_E_pred_ne_zero f
  obtain h | h | h | h | h := class_cases f x.toNat
  · simp [decompose_of_isZero h, Exact.significand, h, hmax.symm]
  · simp [decompose_of_isSubnormal h, Exact.significand, h, hmax.symm]
  · simp [decompose_of_isInf h, h]
  · simp [decompose_of_isNaN h, h]
  · simp [decompose_of_isNormal h, Exact.significand, h, Nat.add_comm]

theorem decompose_exp (f : Fmt) (x : BitVec f.W) :
    (decompose f x).exp =
      if Exact.IsNormal f x.toNat ∨ Exact.IsSubnormal f x.toNat then Exact.exponent f x.toNat else 0 := by
  have hmax := two_pow_E_pred_ne_zero f
  obtain h | h | h | h | h := class_cases f x.toNat
  · simp [decompose_of_isZero h, h]
  · simp [decompose_of_isSubnormal h, Exact.exponent, h]
  · simp [decompose_of_isInf h, h]
  · simp [decompose_of_isNaN h, h, hmax]
  · simp [decompose_of_isNormal h, Exact.exponent, h]

theorem classCode_decompose (f : Fmt) (x : BitVec f.W) :
    (classCode (decompose f x).cls).toNat =
      if Exact.IsNaN f x.toNat then 0 else if Exact.IsInf f x.toNat then 1 else if Exact.IsZero f x.toNat then 2
      else if Exact.IsSubnormal f x.toNat then 4 else 3 := by
  have hmax := two_pow_E_pred_ne_zero f
  simp only [Exact.IsNaN, Exact.IsInf, Exact.IsZero, Exact.IsSubnormal]
  obtain h | h | h | h | h := class_cases f x.toNat
  · simp [decompose_of_isZero h, h, hmax.symm, classCode]
  · simp [decompose_of_isSubnormal h, h, hmax.symm, classCode]
  · simp [decompose_of_isInf h, h, classCode]
  · simp [decompose_of_isNaN h, h, classCode]
  · simp [decompose_of_isNormal h, h, classCode]

/-! ### The responses of FCLASS and the factories as numbers (R226 to R231) -/

theorem classWord_toNat (d : Decomposed) :
    (classWord d).toNat = wrap 32 d.exp * 2 ^ 32 + d.sign.toNat * 8 + (classCode d.cls).toNat := by
  have hcode := (classCode d.cls).isLt
  have hsign := (BitVec.ofBool d.sign).isLt
  rw [classWord, BitVec.toNat_append, BitVec.toNat_append, BitVec.toNat_append, pattern_eq_wrap,
    ← Nat.shiftLeft_add_eq_or_of_lt hcode, ← Nat.shiftLeft_add_eq_or_of_lt hsign, ← Nat.shiftLeft_add_eq_or_of_lt (by decide)]
  simp only [Nat.shiftLeft_eq, BitVec.toNat_ofNat, BitVec.toNat_ofBool]
  ring

/-- RES holds a significand whole: it is narrower than the format. -/
theorem fclass_answers (f : Fmt) (s : State) :
    let d := decompose f (operandA f.W s)
    Answers (exec (.fclass f) s) s d.sig (wrap 32 d.exp * 2 ^ 32 + d.sign.toNat * 8 + (classCode d.cls).toNat) false := by
  intro d
  have hwidth : f.S + 1 ≤ f.W := Nat.le_of_succ_le f.S_add_two_le_W
  have hsig : d.sig < 2 ^ f.W := (decompose_sig_lt f _).trans_le (Nat.pow_le_pow_right two_pos hwidth)
  exact completeResHi_answers f.W_le (by decide) s (by rw [BitVec.toNat_ofNat, Nat.mod_eq_of_lt hsig]) (classWord_toNat d)

theorem indNaN_exact (f : Fmt) : (indNaN f).toNat = Exact.indNaN f := by
  have hquiet : 2 ^ (f.S - 1) < 2 ^ f.S := Nat.pow_lt_pow_right (by decide) (by have := f.S_ge; omega)
  rw [indNaN, pack_exact f true (maxBiased_lt f) hquiet]
  simp [Exact.packed, Exact.indNaN, maxBiased]

/-- The precondition test that FMKSUB and FMKNORM share: the packed form, or a fault. -/
theorem partsTest_answers_or_faults {f : Fmt} {s : State} {o : Host.Outcome State Fault Refusal} {ok : Bool} {P : Prop}
    {r : BitVec f.W} {v : Nat} (ho : o = if ok then completeRes r s else completeFault .operandConstraint s)
    (hok : ok = true ↔ P) (hr : P → r.toNat = v) : (P → Answers o s v 0 false) ∧ (¬ P → FaultsWith o s 4) := by
  refine ⟨fun hP => ?_, fun hP => ?_⟩
  · rw [ho, if_pos (hok.2 hP)]
    exact completeRes_answers f.W_le s (hr hP)
  · rw [ho, if_neg (mt hok.1 hP)]
    exact completeFault_faults .operandConstraint s

theorem subnormalSigOk_iff (f : Fmt) (m : Nat) : subnormalSigOk f m = true ↔ 0 < m ∧ m < 2 ^ f.S := by
  simp [subnormalSigOk]

theorem normalPartsOk_iff (f : Fmt) (e : Int) (m : Nat) :
    normalPartsOk f e m = true ↔ f.emin ≤ e ∧ e ≤ f.emax ∧ 2 ^ f.S ≤ m ∧ m < 2 ^ (f.S + 1) := by
  simp [normalPartsOk, and_assoc]

theorem exponentB_eq (s : State) : exponentB s = signedOf 32 (portB 32 s) := by
  rw [exponentB, sval_eq_signedOf (by decide), operandB_toNat, portB]

/-- The re-biased exponent of a float up to emax fits the exponent field. -/
theorem biased_lt_of_le_emax {f : Fmt} {e : Int} (h : e ≤ f.emax) : (e + f.B).toNat < 2 ^ f.E := by
  rw [f.emax_eq] at h
  rw [f.two_pow_E]
  omega

/-- Masking off bit S of a Normal's significand takes 2^S away (R215). -/
theorem recompose_exact {f : Fmt} {e : Int} {m : Nat} (s : Bool) (he : e ≤ f.emax) (hlow : 2 ^ f.S ≤ m)
    (hhigh : m < 2 ^ (f.S + 1)) : (recompose f s e m).toNat = Exact.packed f s.toNat (e + f.B).toNat (m - 2 ^ f.S) := by
  have hrest : m - 2 ^ f.S < 2 ^ f.S := by rw [pow_succ] at hhigh; omega
  rw [recompose, Nat.mod_eq_sub_mod hlow, Nat.mod_eq_of_lt hrest, pack_exact f s (biased_lt_of_le_emax he) hrest]

/-! ### The sign unit (R232) -/

/-- Adding 2^(W−1) mod 2^W flips bit W−1 and keeps every other bit. -/
theorem negateF_exact (f : Fmt) (x : BitVec f.W) : (negateF f x).toNat = Exact.negate f x.toNat := by
  have hW : f.W - 1 < f.W := Nat.sub_one_lt (by have := f.W_ge; omega)
  have hx := x.isLt
  have htop : 2 ^ (f.W - 1) < 2 ^ f.W := Nat.pow_lt_pow_right (by decide) hW
  refine Nat.eq_of_testBit_eq fun i => ?_
  rw [negateF, Exact.negate, BitVec.toNat_xor, BitVec.toNat_ofNat, Nat.mod_eq_of_lt htop, Nat.testBit_xor,
    Nat.testBit_mod_two_pow, Nat.add_comm]
  obtain hlow | rfl | hhigh := lt_trichotomy i (f.W - 1)
  · rw [Nat.testBit_two_pow_add_gt hlow, Nat.testBit_two_pow_of_ne hlow.ne']
    simp [hlow.trans hW]
  · rw [Nat.testBit_two_pow_add_eq, Nat.testBit_two_pow_self]
    simp [hW]
  · have hi : f.W ≤ i := by omega
    rw [Nat.testBit_two_pow_of_ne hhigh.ne, Nat.testBit_lt_two_pow (hx.trans_le (Nat.pow_le_pow_right two_pos hi))]
    simp [hi]

/-! ### Exact rounding (R211) -/

/-- The integer significand of R211 divides by 2^(e − S); the machine scales by 2^(S − e). -/
theorem roundScaled_exact (f : Fmt) (v : Magnitude) (hd : 0 < v.den) (e : Int) :
    roundScaled v (f.S - e) = (Exact.rne ((v.num : ℚ) / v.den * 2 ^ v.exp / 2 ^ (e - f.S))).toNat := by
  rw [div_eq_mul_inv _ ((2 : ℚ) ^ (e - f.S)), ← zpow_neg, neg_sub, ← roundScaled_eq_rne v hd, Int.toNat_natCast]

/-- Rounded at an exponent that is not below its own, a magnitude has at most S + 1 bits, or carried to 2^(S+1). -/
theorem roundScaled_le (f : Fmt) (v : Magnitude) (hn : 0 < v.num) (hd : 0 < v.den) {e : Int} (he : floorLog2 v ≤ e) :
    roundScaled v (f.S - e) ≤ 2 ^ (f.S + 1) := by
  obtain ⟨-, hhigh⟩ := floorLog2_spec v hn hd
  have hlt : (v.num : ℚ) / v.den * 2 ^ v.exp * 2 ^ (f.S - e) < ((2 ^ (f.S + 1) : Nat) : Int) :=
    calc (v.num : ℚ) / v.den * 2 ^ v.exp * 2 ^ (f.S - e) < 2 ^ (floorLog2 v + 1) * 2 ^ (f.S - e) := by gcongr
      _ ≤ 2 ^ (e + 1) * 2 ^ (f.S - e) := by gcongr; norm_num
      _ = 2 ^ (((f.S + 1 : Nat) : Int)) := by rw [← zpow_add₀ two_ne_zero]; congr 1; push_cast; ring
      _ = ((2 ^ (f.S + 1) : Nat) : Int) := by rw [zpow_natCast]; push_cast; rfl
  have hrne := rne_le_of_lt hlt
  rw [← roundScaled_eq_rne v hd] at hrne
  exact_mod_cast hrne

/-! ### The obligations -/

/-- Settles O30: the fields decide the class, and each class has its own decomposition. -/
theorem decomposeByClass : Obligations.DecomposeByClass := by
  unfold Obligations.DecomposeByClass
  intro f x d n
  refine ⟨?sign, fun hzero => ?zero, fun hsubnormal => ?subnormal, fun hinf => ?infinity, fun hnan => ?nan,
    fun hnormal => ?normal⟩
  case sign => exact (decompose_sign f x).trans (signBit_exact f x)
  case zero => simp [d, decompose_of_isZero hzero]
  case subnormal => simp [d, n, decompose_of_isSubnormal hsubnormal]
  case infinity => simp [d, decompose_of_isInf hinf]
  case nan => simp [d, n, decompose_of_isNaN hnan]
  case normal => simp [d, n, decompose_of_isNormal hnormal]

/-- Settles O31: RES and RES_HI are packed from the decomposition, and each of its parts is the stated one in every class. -/
theorem classifyReportsTheParts : Obligations.ClassifyReportsTheParts := by
  unfold Obligations.ClassifyReportsTheParts
  intro f s
  have hanswers := fclass_answers f s
  dsimp only at hanswers
  rwa [decompose_sig, decompose_exp, decompose_sign, signBit_toNat, classCode_decompose, operandA_toNat] at hanswers

/-- Settles O32: each constant fits its fields, so it is the number of R206. -/
theorem factoriesOfConstants : Obligations.FactoriesOfConstants := by
  unfold Obligations.FactoriesOfConstants
  intro f s
  refine ⟨?fmkzero, ?fmkinf, ?fmknan⟩
  case fmkzero => exact completeRes_answers f.W_le s (zeroF_exact f s.cin)
  case fmkinf => exact completeRes_answers f.W_le s (infF_exact f s.cin)
  case fmknan => exact completeRes_answers f.W_le s (indNaN_exact f)

/-- Settles O33: each precondition test is the stated one, and where it passes the packed form has the stated parts. -/
theorem factoriesCheckTheirParts : Obligations.FactoriesCheckTheirParts := by
  unfold Obligations.FactoriesCheckTheirParts
  intro f s m e
  have hm : uval (operandA f.W s) = m := uval_operandA f.W s
  obtain ⟨hsubAnswer, hsubFault⟩ := partsTest_answers_or_faults (o := exec (.fmksub f) s) rfl (subnormalSigOk_iff f _)
    fun ⟨_, hlt⟩ => pack_exact f (signIn s) (Nat.two_pow_pos _) hlt
  obtain ⟨hnormAnswer, hnormFault⟩ := partsTest_answers_or_faults (o := exec (.fmknorm f) s) rfl (normalPartsOk_iff f _ _)
    fun ⟨_, hemax, hlow, hhigh⟩ => recompose_exact (signIn s) hemax hlow hhigh
  rw [hm] at hsubAnswer hsubFault
  rw [hm, exponentB_eq] at hnormAnswer hnormFault
  exact ⟨hsubAnswer, hsubFault, hnormAnswer, hnormFault⟩

/-- Settles O35: flipping bit W−1 is adding 2^(W−1) mod 2^W (`negateF_exact`). -/
theorem negationFlipsTheSignBit : Obligations.NegationFlipsTheSignBit := by
  unfold Obligations.NegationFlipsTheSignBit
  intro f s
  exact completeRes_answers f.W_le s (by rw [negateF_exact, operandA_toNat, portA])

/-- Settles O36: the machine's exponent and integer significand are those of R211, and the fields of each packed result fit. -/
theorem roundPackIsTheExactRule : Obligations.RoundPackIsTheExactRule := by
  unfold Obligations.RoundPackIsTheExactRule
  intro f s v hn hd
  rw [Exact.roundPack, log_eq_floorLog2 v hn hd]
  have hle := roundScaled_le f v hn hd (le_max_left (floorLog2 v) f.emin)
  simp only [← roundScaled_exact f v hd, roundPack, beq_iff_eq]
  generalize max (floorLog2 v) f.emin = e1 at hle
  generalize roundScaled v (f.S - e1) = n at hle
  have hsig : (if n = 2 ^ (f.S + 1) then 2 ^ f.S else n) < 2 ^ (f.S + 1) := by
    split
    · exact Nat.pow_lt_pow_succ one_lt_two
    · omega
  generalize (if n = 2 ^ (f.S + 1) then 2 ^ f.S else n) = n' at hsig
  generalize (if n = 2 ^ (f.S + 1) then e1 + 1 else e1) = e2
  rw [pow_succ] at hsig
  by_cases hover : f.emax < e2
  case pos => rw [if_pos hover, if_pos hover, infF_exact]
  case neg =>
    rw [if_neg hover, if_neg hover]
    by_cases hnormal : 2 ^ f.S ≤ n'
    case pos => rw [if_pos hnormal, if_pos hnormal, pack_exact f s (biased_lt_of_le_emax (not_lt.1 hover)) (by omega)]
    case neg => rw [if_neg hnormal, if_neg hnormal, pack_exact f s (Nat.two_pow_pos _) (not_le.1 hnormal)]

end Sys2Proof.FpDatapath
end

section
/-! The float adder and subtractor of 44_fp_addsub.md R240, R241: the class tests and the value of a decomposed pattern over the
rationals, the exact sum as the sum of the values, and the order of the special cases. -/

namespace Sys2Proof.FpAddSub

open Sys2Proof.Machine Sys2Proof.Safety Sys2Proof.FpDatapath

/-! ### The tests on a pattern (R203) -/

section
variable (f : Fmt) (x y : BitVec f.W)

/-- In each class, the tests that the filters make are those of the rules. -/
theorem classTests_iff : (isNaN f x = true ↔ Exact.IsNaN f x.toNat) ∧ (isInf f x = true ↔ Exact.IsInf f x.toNat) ∧
    (isZero f x = true ↔ Exact.IsZero f x.toNat) := by
  have hmax := two_pow_E_pred_ne_zero f
  simp only [isNaN, isInf, isZero, Exact.IsNaN, Exact.IsInf, Exact.IsZero]
  obtain h | h | h | h | h := class_cases f x.toNat
  · simp [decompose_of_isZero h, h, hmax.symm]
  · simp [decompose_of_isSubnormal h, h, hmax.symm]
  · simp [decompose_of_isInf h, h, hmax]
  · simp [decompose_of_isNaN h, h]
  · simp [decompose_of_isNormal h, h]

theorem isNaN_iff : isNaN f x = true ↔ Exact.IsNaN f x.toNat := (classTests_iff f x).1
theorem isInf_iff : isInf f x = true ↔ Exact.IsInf f x.toNat := (classTests_iff f x).2.1
theorem isZero_iff : isZero f x = true ↔ Exact.IsZero f x.toNat := (classTests_iff f x).2.2

theorem signBit_bne_iff : (signBit f x != signBit f y) = true ↔ Exact.sign f x.toNat ≠ Exact.sign f y.toNat := by
  have hinjective : Function.Injective Bool.toNat := by decide
  rw [← signBit_toNat, ← signBit_toNat, bne_iff_ne, hinjective.ne_iff]

/-- Past the special cases a pattern is a Normal or a Subnormal. -/
theorem isNormal_or_isSubnormal {n : Nat} (hnan : ¬ Exact.IsNaN f n) (hinf : ¬ Exact.IsInf f n) (hzero : ¬ Exact.IsZero f n) :
    Exact.IsNormal f n ∨ Exact.IsSubnormal f n := by
  obtain h | h | h | h | h := class_cases f n
  · exact absurd h hzero
  · exact .inr h
  · exact absurd h hinf
  · exact absurd h hnan
  · exact .inl h

theorem isFinite_of_isNormal_or_isSubnormal {n : Nat} (h : Exact.IsNormal f n ∨ Exact.IsSubnormal f n) : Exact.IsFinite f n := by
  obtain ⟨-, hmax⟩ | ⟨hbiased, -⟩ := h
  · exact hmax
  · rw [Exact.IsFinite, hbiased]
    exact (two_pow_E_pred_ne_zero f).symm

end

/-! ### The value of a decomposed pattern (R205) -/

theorem signedSig_cast (d : Decomposed) : (signedSig d : ℚ) = (-1) ^ d.sign.toNat * d.sig := by
  unfold signedSig
  cases d.sign <;> simp

/-- `val(F, x)` from the decomposition, for a Normal or a Subnormal. -/
theorem val_decompose (f : Fmt) (x : BitVec f.W) (h : Exact.IsNormal f x.toNat ∨ Exact.IsSubnormal f x.toNat) :
    Exact.val f x.toNat = signedSig (decompose f x) * 2 ^ ((decompose f x).exp - f.S) := by
  rw [signedSig_cast, decompose_sign, decompose_sig, decompose_exp, signBit_toNat, if_pos h,
    if_pos (isFinite_of_isNormal_or_isSubnormal f h), Exact.val, mul_assoc]

/-! ### The exact sum (R240) -/

/-- A significand aligned to the lower exponent `k` keeps its value. -/
theorem aligned_mul_zpow (m e k c : Int) (h : k ≤ e) :
    (m : ℚ) * 2 ^ (e - k).toNat * 2 ^ (k - c) = m * 2 ^ (e - c) := by
  rw [mul_assoc, ← zpow_natCast, ← zpow_add₀ two_ne_zero, Int.toNat_of_nonneg (by omega), sub_add_sub_cancel]

theorem exactSum_mul_zpow (dx dy : Decomposed) (c : Int) :
    (exactSum dx dy : ℚ) * 2 ^ (min dx.exp dy.exp - c) =
      signedSig dx * 2 ^ (dx.exp - c) + signedSig dy * 2 ^ (dy.exp - c) := by
  rw [exactSum]
  push_cast
  rw [add_mul, aligned_mul_zpow _ _ _ _ (min_le_left ..), aligned_mul_zpow _ _ _ _ (min_le_right ..)]

/-- The finite case of addition, for the number `q` that the decompositions sum to. -/
theorem addFinite_exact (f : Fmt) (dx dy : Decomposed) {q : ℚ}
    (hq : (exactSum dx dy : ℚ) * 2 ^ (min dx.exp dy.exp - f.S) = q) :
    (addFinite f dx dy).toNat = if q = 0 then Exact.zero f 0 else Exact.roundPack f (Exact.signOf q) |q| := by
  subst q
  rw [addFinite]
  generalize exactSum dx dy = v
  have hpos : (0 : ℚ) < 2 ^ (min dx.exp dy.exp - (f.S : Int)) := by positivity
  by_cases hv : v = 0
  · simp [hv, zeroF_exact]
  · have hsign : (decide (v < 0)).toNat = Exact.signOf ((v : ℚ) * 2 ^ (min dx.exp dy.exp - (f.S : Int))) := by
      by_cases hneg : v < 0 <;> simp [Exact.signOf, hneg, mul_neg_iff, hpos, hpos.not_gt]
    have hround := roundPackIsTheExactRule f (decide (v < 0)) ⟨v.natAbs, 1, min dx.exp dy.exp - f.S⟩
      (Int.natAbs_pos.2 hv) one_pos
    simp only [Nat.cast_natAbs, Int.cast_abs, Nat.cast_one, div_one] at hround
    rw [if_neg hv, if_neg (mul_ne_zero (Int.cast_ne_zero.2 hv) hpos.ne'), hround, hsign, abs_mul, abs_of_pos hpos]

/-! ### Addition and subtraction (R240, R241) -/

/-- The machine makes the tests of R240 in the order of the rule. -/
theorem addF_exact (f : Fmt) (x y : BitVec f.W) : (addF f x y).toNat = Exact.add f x.toNat y.toNat := by
  simp only [addF, addFilter, Exact.add, Bool.and_eq_true, isNaN_iff, isInf_iff, isZero_iff, signBit_bne_iff]
  by_cases hxNaN : Exact.IsNaN f x.toNat
  · simp only [if_pos hxNaN]
  by_cases hyNaN : Exact.IsNaN f y.toNat
  · simp only [if_neg hxNaN, if_pos hyNaN]
  simp only [if_neg hxNaN, if_neg hyNaN]
  by_cases hzeros : Exact.IsZero f x.toNat ∧ Exact.IsZero f y.toNat
  · simp only [if_pos hzeros, apply_ite BitVec.toNat, zeroF_exact, Bool.toNat_false]
  by_cases hxZero : Exact.IsZero f x.toNat
  · simp only [if_neg hzeros, if_pos hxZero]
  by_cases hyZero : Exact.IsZero f y.toNat
  · simp only [if_neg hzeros, if_neg hxZero, if_pos hyZero]
  simp only [if_neg hzeros, if_neg hxZero, if_neg hyZero]
  by_cases hxInf : Exact.IsInf f x.toNat
  · simp only [if_pos hxInf, apply_ite BitVec.toNat, indNaN_exact]
  by_cases hyInf : Exact.IsInf f y.toNat
  · simp only [if_neg hxInf, if_pos hyInf]
  simp only [if_neg hxInf, if_neg hyInf]
  have hsum := exactSum_mul_zpow (decompose f x) (decompose f y) f.S
  rw [← val_decompose f x (isNormal_or_isSubnormal f hxNaN hxInf hxZero),
    ← val_decompose f y (isNormal_or_isSubnormal f hyNaN hyInf hyZero)] at hsum
  exact addFinite_exact f _ _ hsum

theorem subF_exact (f : Fmt) (x y : BitVec f.W) : (subF f x y).toNat = Exact.sub f x.toNat y.toNat := by
  rw [subF, addF_exact, negateF_exact, Exact.sub]

/-! ### The obligations -/

/-- Settles O40: the machine's sum is that of R240 (`addF_exact`). -/
theorem floatAddResult : Obligations.FloatAddResult := by
  unfold Obligations.FloatAddResult
  intro f s
  exact completeRes_answers f.W_le s (by rw [addF_exact, operandA_toNat, operandB_toNat, portA, portB])

/-- Settles O41: the machine's difference is that of R241 (`subF_exact`), NaN operands included. -/
theorem floatSubtractResult : Obligations.FloatSubtractResult := by
  unfold Obligations.FloatSubtractResult
  intro f s
  exact completeRes_answers f.W_le s (by rw [subF_exact, operandA_toNat, operandB_toNat, portA, portB])

end Sys2Proof.FpAddSub
end

section
/-! The float multiplier of 45_fp_mul.md R270: the sign, the magnitude of a Normal or Subnormal and the exact product over the
rationals, and the order of the special cases. -/

namespace Sys2Proof.FpMul

open Sys2Proof.Machine Sys2Proof.Safety Sys2Proof.FpDatapath Sys2Proof.FpAddSub

/-- The sign of a product or quotient, the exclusive or of two bits, is their sum mod 2. -/
theorem xorSign_toNat (f : Fmt) (x y : BitVec f.W) : (xorSign f x y).toNat = Exact.xorSign f x.toNat y.toNat := by
  rw [xorSign, Exact.xorSign, ← signBit_toNat, ← signBit_toNat]
  cases signBit f x <;> cases signBit f y <;> rfl

/-! ### The magnitude of a Normal or Subnormal (R203, R205) -/

section
variable {f : Fmt} {x y : BitVec f.W}

/-- A Normal has the implicit bit, and a Subnormal a trailing bit. -/
theorem decompose_sig_pos (h : Exact.IsNormal f x.toNat ∨ Exact.IsSubnormal f x.toNat) : 0 < (decompose f x).sig := by
  obtain hnormal | hsubnormal := h
  · rw [decompose_of_isNormal hnormal]
    positivity
  · rw [decompose_of_isSubnormal hsubnormal]
    exact Nat.pos_of_ne_zero hsubnormal.2

theorem abs_val (h : Exact.IsNormal f x.toNat ∨ Exact.IsSubnormal f x.toNat) :
    |Exact.val f x.toNat| = (decompose f x).sig * 2 ^ ((decompose f x).exp - f.S) := by
  have hpos : (0 : ℚ) < 2 ^ ((decompose f x).exp - (f.S : Int)) := by positivity
  rw [val_decompose f x h, signedSig_cast, abs_mul, abs_mul, abs_neg_one_pow, one_mul, Nat.abs_cast, abs_of_pos hpos]

/-! ### The exact product (R270) -/

/-- The magnitude that the multiplier rounds is that of the product of the values: the exponents add, and so do the scales 2^S. -/
theorem exactProduct_value (hx : Exact.IsNormal f x.toNat ∨ Exact.IsSubnormal f x.toNat)
    (hy : Exact.IsNormal f y.toNat ∨ Exact.IsSubnormal f y.toNat) :
    let v := exactProduct f (decompose f x) (decompose f y)
    (v.num : ℚ) / v.den * 2 ^ v.exp = |Exact.val f x.toNat * Exact.val f y.toNat| := by
  have hexp : (decompose f x).exp + (decompose f y).exp - 2 * f.S =
      ((decompose f x).exp - f.S) + ((decompose f y).exp - f.S) := by ring
  rw [abs_mul, abs_val hx, abs_val hy, mul_mul_mul_comm, ← zpow_add₀ two_ne_zero, ← hexp]
  simp only [exactProduct, Nat.cast_mul, Nat.cast_one, div_one]

/-- The finite case of multiplication: the exact product, rounded. -/
theorem roundPack_exactProduct (s : Bool) (hx : Exact.IsNormal f x.toNat ∨ Exact.IsSubnormal f x.toNat)
    (hy : Exact.IsNormal f y.toNat ∨ Exact.IsSubnormal f y.toNat) :
    (roundPack f s (exactProduct f (decompose f x) (decompose f y))).toNat =
      Exact.roundPack f s.toNat |Exact.val f x.toNat * Exact.val f y.toNat| := by
  have hnum : 0 < (decompose f x).sig * (decompose f y).sig := Nat.mul_pos (decompose_sig_pos hx) (decompose_sig_pos hy)
  rw [roundPackIsTheExactRule f s (exactProduct f _ _) hnum one_pos, exactProduct_value hx hy]

end

/-! ### Multiplication (R270) -/

/-- The machine makes the tests of R270 in the order of the rule. -/
theorem mulF_exact (f : Fmt) (x y : BitVec f.W) : (mulF f x y).toNat = Exact.mul f x.toNat y.toNat := by
  simp only [mulF, mulFilter, Exact.mul, Bool.or_eq_true, Bool.and_eq_true, isNaN_iff, isInf_iff, isZero_iff]
  by_cases hxNaN : Exact.IsNaN f x.toNat
  · simp only [if_pos hxNaN]
  by_cases hyNaN : Exact.IsNaN f y.toNat
  · simp only [if_neg hxNaN, if_pos hyNaN]
  simp only [if_neg hxNaN, if_neg hyNaN]
  by_cases hinvalid : Exact.IsInf f x.toNat ∧ Exact.IsZero f y.toNat ∨ Exact.IsZero f x.toNat ∧ Exact.IsInf f y.toNat
  · simp only [if_pos hinvalid, indNaN_exact]
  by_cases hinf : Exact.IsInf f x.toNat ∨ Exact.IsInf f y.toNat
  · simp only [if_neg hinvalid, if_pos hinf, infF_exact, xorSign_toNat]
  by_cases hzero : Exact.IsZero f x.toNat ∨ Exact.IsZero f y.toNat
  · simp only [if_neg hinvalid, if_neg hinf, if_pos hzero, zeroF_exact, xorSign_toNat]
  simp only [if_neg hinvalid, if_neg hinf, if_neg hzero]
  obtain ⟨hxInf, hyInf⟩ := not_or.1 hinf
  obtain ⟨hxZero, hyZero⟩ := not_or.1 hzero
  rw [roundPack_exactProduct _ (isNormal_or_isSubnormal f hxNaN hxInf hxZero)
    (isNormal_or_isSubnormal f hyNaN hyInf hyZero), xorSign_toNat]

/-! ### The obligation -/

/-- Settles O42: the machine's product is that of R270 (`mulF_exact`). -/
theorem floatMultiplyResult : Obligations.FloatMultiplyResult := by
  unfold Obligations.FloatMultiplyResult
  intro f s
  exact completeRes_answers f.W_le s (by rw [mulF_exact, operandA_toNat, operandB_toNat, portA, portB])

end Sys2Proof.FpMul
end

section
/-! The float divider of 46_fp_div.md R290: the exact quotient over the rationals, and the order of the special cases. -/

namespace Sys2Proof.FpDiv

open Sys2Proof.Machine Sys2Proof.Safety Sys2Proof.FpDatapath Sys2Proof.FpAddSub Sys2Proof.FpMul

/-! ### The exact quotient (R290) -/

section
variable {f : Fmt} {x y : BitVec f.W}

/-- The magnitude that the divider rounds is that of the quotient of the values: the exponents subtract, and the scales 2^S cancel. -/
theorem exactQuotient_value (hx : Exact.IsNormal f x.toNat ∨ Exact.IsSubnormal f x.toNat)
    (hy : Exact.IsNormal f y.toNat ∨ Exact.IsSubnormal f y.toNat) :
    let v := exactQuotient (decompose f x) (decompose f y)
    (v.num : ℚ) / v.den * 2 ^ v.exp = |Exact.val f x.toNat / Exact.val f y.toNat| := by
  rw [abs_div, abs_val hx, abs_val hy, mul_div_mul_comm, ← zpow_sub₀ two_ne_zero, sub_sub_sub_cancel_right]
  rfl

/-- The finite case of division: the exact quotient, rounded. The divisor is no Zero, so its significand is a denominator. -/
theorem roundPack_exactQuotient (s : Bool) (hx : Exact.IsNormal f x.toNat ∨ Exact.IsSubnormal f x.toNat)
    (hy : Exact.IsNormal f y.toNat ∨ Exact.IsSubnormal f y.toNat) :
    (roundPack f s (exactQuotient (decompose f x) (decompose f y))).toNat =
      Exact.roundPack f s.toNat |Exact.val f x.toNat / Exact.val f y.toNat| := by
  rw [roundPackIsTheExactRule f s (exactQuotient _ _) (decompose_sig_pos hx) (decompose_sig_pos hy), exactQuotient_value hx hy]

end

/-! ### Division (R290) -/

/-- The machine makes the tests of R290 in the order of the rule. -/
theorem divF_exact (f : Fmt) (x y : BitVec f.W) : (divF f x y).toNat = Exact.div f x.toNat y.toNat := by
  simp only [divF, divFilter, Exact.div, Bool.or_eq_true, Bool.and_eq_true, isNaN_iff, isInf_iff, isZero_iff]
  by_cases hxNaN : Exact.IsNaN f x.toNat
  · simp only [if_pos hxNaN]
  by_cases hyNaN : Exact.IsNaN f y.toNat
  · simp only [if_neg hxNaN, if_pos hyNaN]
  simp only [if_neg hxNaN, if_neg hyNaN]
  by_cases hinvalid : Exact.IsZero f x.toNat ∧ Exact.IsZero f y.toNat ∨ Exact.IsInf f x.toNat ∧ Exact.IsInf f y.toNat
  · simp only [if_pos hinvalid, indNaN_exact]
  simp only [if_neg hinvalid]
  by_cases hyZero : Exact.IsZero f y.toNat
  · simp only [if_pos hyZero, infF_exact, xorSign_toNat]
  by_cases hxZero : Exact.IsZero f x.toNat
  · simp only [if_neg hyZero, if_pos hxZero, zeroF_exact, xorSign_toNat]
  simp only [if_neg hyZero, if_neg hxZero]
  by_cases hxInf : Exact.IsInf f x.toNat
  · simp only [if_pos hxInf, infF_exact, xorSign_toNat]
  by_cases hyInf : Exact.IsInf f y.toNat
  · simp only [if_neg hxInf, if_pos hyInf, zeroF_exact, xorSign_toNat]
  simp only [if_neg hxInf, if_neg hyInf]
  rw [roundPack_exactQuotient _ (isNormal_or_isSubnormal f hxNaN hxInf hxZero)
    (isNormal_or_isSubnormal f hyNaN hyInf hyZero), xorSign_toNat]

/-! ### The obligation -/

/-- Settles O43: the machine's quotient is that of R290 (`divF_exact`), a zero divisor included. -/
theorem floatDivideResult : Obligations.FloatDivideResult := by
  unfold Obligations.FloatDivideResult
  intro f s
  exact completeRes_answers f.W_le s (by rw [divF_exact, operandA_toNat, operandB_toNat, portA, portB])

end Sys2Proof.FpDiv
end

section
/-! The converters of 47_fp_convert.md R310 to R322: the payload of a converted NaN, the rounded magnitude of a converted float or
integer, the truncated value and the sentinels as numbers, and the order of the classes in each conversion. -/

namespace Sys2Proof.FpConvert

open Sys2Proof.Machine Sys2Proof.Safety Sys2Proof.IntArith Sys2Proof.FpDatapath Sys2Proof.FpAddSub Sys2Proof.FpMul

/-! ### The payload of a NaN (R311) -/

theorem convertPayload_exact (f g : Fmt) (t : Nat) : convertPayload f g t = Exact.payload f g t := rfl

/-- A shifted payload, or the quiet bit, fits the trailing significand of the result. -/
theorem convertPayload_lt (f g : Fmt) {t : Nat} (ht : t < 2 ^ f.S) : convertPayload f g t < 2 ^ g.S := by
  simp only [convertPayload]
  split_ifs with hwiden hlost
  case pos =>
    calc t * 2 ^ (g.S - f.S) < 2 ^ f.S * 2 ^ (g.S - f.S) := Nat.mul_lt_mul_of_pos_right ht (Nat.two_pow_pos _)
      _ = 2 ^ g.S := by rw [← pow_add, Nat.add_sub_cancel' hwiden.le]
  case pos => exact Nat.pow_lt_pow_right one_lt_two (by have := g.S_ge; omega)
  case neg =>
    apply Nat.div_lt_of_lt_mul
    rwa [← pow_add, Nat.sub_add_cancel (not_lt.1 hwiden)]

theorem convertNaN_exact (f g : Fmt) (x : BitVec f.W) :
    (convertNaN f g x).toNat =
      Exact.packed g (Exact.sign f x.toNat) (2 ^ g.E - 1) (Exact.payload f g (Exact.trailing f x.toNat)) := by
  rw [convertNaN, pack_exact g _ (maxBiased_lt g) (convertPayload_lt f g (trailingSig_lt f x)), signBit_toNat, trailingSig_exact,
    convertPayload_exact, maxBiased]

/-! ### Float to float (R310) -/

/-- A Normal or Subnormal, rounded to another format. -/
theorem roundPack_magnitudeOf {f : Fmt} {x : BitVec f.W} (g : Fmt) (h : Exact.IsNormal f x.toNat ∨ Exact.IsSubnormal f x.toNat) :
    (roundPack g (decompose f x).sign (magnitudeOf f (decompose f x))).toNat =
      Exact.roundPack g (Exact.sign f x.toNat) |Exact.val f x.toNat| := by
  rw [roundPackIsTheExactRule g _ (magnitudeOf f _) (decompose_sig_pos h) one_pos, abs_val h, decompose_sign, signBit_toNat]
  simp only [magnitudeOf, Nat.cast_one, div_one]

/-- The machine's match on the class makes the tests of R310. -/
theorem convertFF_exact (f g : Fmt) (x : BitVec f.W) : (convertFF f g x).toNat = Exact.convertFF f g x.toNat := by
  unfold convertFF Exact.convertFF
  by_cases hsame : f = g
  · subst hsame
    rw [if_pos rfl, if_pos rfl, BitVec.setWidth_eq]
  rw [if_neg hsame, if_neg hsame]
  by_cases hnan : Exact.IsNaN f x.toNat
  · simp only [if_pos hnan, decompose_of_isNaN hnan, convertNaN_exact]
  by_cases hinf : Exact.IsInf f x.toNat
  · simp only [if_neg hnan, if_pos hinf, decompose_of_isInf hinf, infF_exact, signBit_toNat]
  by_cases hzero : Exact.IsZero f x.toNat
  · simp only [if_neg hnan, if_neg hinf, if_pos hzero, decompose_of_isZero hzero, zeroF_exact, signBit_toNat]
  have hfinite := isNormal_or_isSubnormal f hnan hinf hzero
  rw [if_neg hnan, if_neg hinf, if_neg hzero, ← roundPack_magnitudeOf g hfinite]
  obtain hnormal | hsubnormal := hfinite
  · simp only [decompose_of_isNormal hnormal]
  · simp only [decompose_of_isSubnormal hsubnormal]

/-! ### Integer to float (R315) -/

theorem decide_neg_toNat (v : Int) : (decide (v < 0)).toNat = Exact.signOf v := by
  by_cases hneg : v < 0 <;> simp [Exact.signOf, hneg]

theorem convertFI_exact (f : Fmt) (v : Int) : (convertFI f v).toNat = Exact.convertFI f v := by
  unfold convertFI Exact.convertFI
  by_cases hzero : v = 0
  · rw [if_pos hzero, if_pos hzero, zeroF_exact, Bool.toNat_false]
  · rw [if_neg hzero, if_neg hzero, roundPackIsTheExactRule f _ _ (Int.natAbs_pos.2 hzero) one_pos, decide_neg_toNat]
    simp only [Nat.cast_natAbs, Int.cast_abs, Nat.cast_one, div_one, zpow_zero, mul_one]

/-! ### The truncated value (R320) -/

/-- The magnitude shifted by its exponent, to the left exactly and to the right without the bits shifted out, is its floor. -/
theorem truncMagnitude_eq_floor (f : Fmt) (d : Decomposed) :
    (truncMagnitude f d : Int) = ⌊(d.sig : ℚ) * 2 ^ (d.exp - f.S)⌋ := by
  unfold truncMagnitude
  generalize d.exp - (f.S : Int) = k
  by_cases hk : 0 ≤ k
  · lift k to Nat using hk
    simp only [Int.natCast_nonneg, if_true, Int.toNat_natCast, zpow_natCast]
    simpa using (Int.floor_natCast (R := ℚ) (d.sig * 2 ^ k)).symm
  · obtain ⟨j, rfl⟩ : ∃ j : Nat, k = -j := ⟨(-k).toNat, by omega⟩
    simp only [hk, if_false, neg_neg, Int.toNat_natCast, zpow_neg, zpow_natCast, ← div_eq_mul_inv]
    simpa using (Rat.floor_intCast_div_natCast d.sig (2 ^ j)).symm

theorem trunc_of_nonneg {q : ℚ} (h : 0 ≤ q) : Exact.trunc q = ⌊q⌋ := if_neg h.not_gt

theorem trunc_neg_of_nonneg {q : ℚ} (h : 0 ≤ q) : Exact.trunc (-q) = -⌊q⌋ := by
  obtain rfl | hpos := h.eq_or_lt
  · simp [Exact.trunc]
  · rw [Exact.trunc, if_pos (neg_lt_zero.2 hpos), neg_neg]

/-- `trunc(val(F, x))` of a Normal or Subnormal: the truncated magnitude with the sign. -/
theorem trunc_val {f : Fmt} {x : BitVec f.W} (h : Exact.IsNormal f x.toNat ∨ Exact.IsSubnormal f x.toNat) :
    Exact.trunc (Exact.val f x.toNat) =
      if (decompose f x).sign then -(truncMagnitude f (decompose f x) : Int) else truncMagnitude f (decompose f x) := by
  have hmag : (0 : ℚ) ≤ (decompose f x).sig * 2 ^ ((decompose f x).exp - (f.S : Int)) := by positivity
  rw [val_decompose f x h, signedSig_cast, mul_assoc, truncMagnitude_eq_floor]
  cases (decompose f x).sign
  case false => simpa using trunc_of_nonneg hmag
  case true => simpa using trunc_neg_of_nonneg hmag

/-! ### The sentinels and the range test (R320, R322) -/

theorem intMin_exact (w : Width) (g : Sgn) : intMin w g = Exact.lowest g w.bits := by cases g <;> rfl
theorem intMax_exact (w : Width) (g : Sgn) : intMax w g = Exact.highest g w.bits := by cases g <;> rfl

/-- The two transcriptions of the Intel-emulation table agree row by row. -/
theorem intelSentinel_exact (w : Width) (g : Sgn) : intelSentinel w g = (Exact.intelSentinel g w.bits : Int) := by
  cases w <;> cases g <;> rfl

theorem intelSentinel_lt (w : Width) (g : Sgn) : Exact.intelSentinel g w.bits < 2 ^ w.bits := by
  have htop : 2 ^ (w.bits - 1) < 2 ^ w.bits := Nat.pow_lt_pow_right one_lt_two (Nat.sub_one_lt w.bits_pos.ne')
  unfold Exact.intelSentinel
  split_ifs
  · exact Nat.two_pow_pos _
  · exact Nat.two_pow_pos _
  · exact htop

section
variable (c : Config) (w : Width) (g : Sgn)

theorem sentinel_toNat (kind : SentinelKind) :
    (sentinel c w g kind).toNat =
      if c.emulateIntel then Exact.intelSentinel g w.bits else wrap w.bits (portableSentinel w g kind) := by
  rw [sentinel, pattern_eq_wrap]
  split
  case isTrue => rw [intelSentinel_exact, wrap_natCast, Nat.mod_eq_of_lt (intelSentinel_lt w g)]
  case isFalse => rfl

theorem sentinel_nan : (sentinel c w g .nan).toNat = Exact.nanSentinel c.emulateIntel g w.bits := by
  rw [sentinel_toNat, Exact.nanSentinel, portableSentinel, wrap, Int.zero_emod, Int.toNat_zero]

theorem sentinel_below : (sentinel c w g .below).toNat = Exact.belowSentinel c.emulateIntel g w.bits := by
  rw [sentinel_toNat, Exact.belowSentinel, portableSentinel, intMin_exact, wrap]

theorem sentinel_above : (sentinel c w g .above).toNat = Exact.aboveSentinel c.emulateIntel g w.bits := by
  rw [sentinel_toNat, Exact.aboveSentinel, portableSentinel, intMax_exact, wrap]

theorem rangeTest_exact (t : Int) :
    (rangeTest c w g t).toNat =
      if t < Exact.lowest g w.bits then Exact.belowSentinel c.emulateIntel g w.bits
      else if Exact.highest g w.bits < t then Exact.aboveSentinel c.emulateIntel g w.bits
      else (t % 2 ^ w.bits).toNat := by
  simp only [rangeTest, intMin_exact, intMax_exact, apply_ite BitVec.toNat, sentinel_below, sentinel_above, pattern_toNat]

end

/-! ### Float to integer (R320) -/

/-- The machine's match on the class makes the tests of R320. -/
theorem convertIF_exact (c : Config) (f : Fmt) (w : Width) (g : Sgn) (x : BitVec f.W) :
    (convertIF c f w g x).toNat = Exact.convertIF c.emulateIntel f g w.bits x.toNat := by
  unfold convertIF Exact.convertIF
  by_cases hnan : Exact.IsNaN f x.toNat
  · simp only [if_pos hnan, decompose_of_isNaN hnan, sentinel_nan]
  by_cases hinf : Exact.IsInf f x.toNat
  · simp only [if_neg hnan, if_pos hinf, decompose_of_isInf hinf, signBit_exact, decide_eq_true_iff, apply_ite (sentinel c w g),
      apply_ite BitVec.toNat, sentinel_below, sentinel_above]
  by_cases hzero : Exact.IsZero f x.toNat
  · simp only [if_neg hnan, if_neg hinf, if_pos hzero, decompose_of_isZero hzero, pattern_toNat, Int.zero_emod, Int.toNat_zero]
  have hfinite := isNormal_or_isSubnormal f hnan hinf hzero
  rw [if_neg hnan, if_neg hinf, if_neg hzero, trunc_val hfinite, ← rangeTest_exact]
  obtain hnormal | hsubnormal := hfinite
  · simp only [decompose_of_isNormal hnormal]
  · simp only [decompose_of_isSubnormal hsubnormal]

/-! ### The obligations -/

/-- Settles O46: the machine's conversion is that of R310 (`convertFF_exact`), with the payload of R311. -/
theorem floatToFloatResult : Obligations.FloatToFloatResult := by
  unfold Obligations.FloatToFloatResult
  intro f g s
  exact completeRes_answers g.W_le s (by rw [convertFF_exact, operandA_toNat, portA])

/-- Settles O48: the machine's conversion is that of R315 (`convertFI_exact`), on the operand as an integer. -/
theorem integerToFloatResult : Obligations.IntegerToFloatResult := by
  unfold Obligations.IntegerToFloatResult
  intro f w g s
  exact completeRes_answers f.W_le s (by rw [convertFI_exact, ival_operandA])

/-- Settles O49: the machine's conversion is that of R320 (`convertIF_exact`), with the sentinels of R322 in either build. -/
theorem floatToIntegerResult : Obligations.FloatToIntegerResult := by
  unfold Obligations.FloatToIntegerResult
  intro f w g s
  exact completeRes_answers w.bits_le s (by rw [convertIF_exact, operandA_toNat, portA])

end Sys2Proof.FpConvert
end

section
/-! The encoder and the decoder are inverse to each other (30_encoding.md R80 to R90): the fields of an assembled word, the masks of
R87 as bits that must be 0, and for each group of R87 the two directions of the round trip. -/

namespace Sys2Proof.EncodingRoundTrip

open Sys2Proof.Machine Sys2Proof.Safety Sys2Proof.Encoding

/-! ### The fields of an assembled word (R80) -/

theorem sgnField_toNat (w : Word) : (sgnField w).toNat = w.toNat / 2 ^ 15 % 2 := by
  simp [sgnField, Nat.shiftRight_eq_div_pow]

section
variable (op : BitVec 8) (fmt fmt2 : BitVec 2) (iw : BitVec 3) (sgn : BitVec 1) (iw2 : BitVec 3)

theorem assemble_toNat :
    (assemble op fmt fmt2 iw sgn iw2).toNat =
      op.toNat + 2 ^ 8 * fmt.toNat + 2 ^ 10 * fmt2.toNat + 2 ^ 12 * iw.toNat + 2 ^ 15 * sgn.toNat + 2 ^ 16 * iw2.toNat := by
  rw [assemble]
  simp only [BitVec.toNat_append]
  rw [← Nat.shiftLeft_add_eq_or_of_lt op.isLt, ← Nat.shiftLeft_add_eq_or_of_lt fmt.isLt,
    ← Nat.shiftLeft_add_eq_or_of_lt fmt2.isLt, ← Nat.shiftLeft_add_eq_or_of_lt iw.isLt,
    ← Nat.shiftLeft_add_eq_or_of_lt sgn.isLt, ← Nat.shiftLeft_add_eq_or_of_lt iw2.isLt]
  simp only [Nat.shiftLeft_eq, BitVec.toNat_ofNat]
  omega

theorem fields_assemble :
    let w := assemble op fmt fmt2 iw sgn iw2
    opField w = op ∧ fmtField w = fmt ∧ fmt2Field w = fmt2 ∧ iwField w = iw ∧ sgnField w = sgn ∧ iw2Field w = iw2 := by
  simp only [← BitVec.toNat_inj, opField_toNat, fmtField_toNat, fmt2Field_toNat, iwField_toNat, sgnField_toNat, iw2Field_toNat,
    assemble_toNat]
  omega

end

/-- A word whose reserved bits are 0 is assembled from its fields (R80, R86). -/
theorem assemble_fields {w : Word} (hreserved : w.toNat < 2 ^ 19) :
    assemble (opField w) (fmtField w) (fmt2Field w) (iwField w) (sgnField w) (iw2Field w) = w := by
  rw [← BitVec.toNat_inj, assemble_toNat, opField_toNat, fmtField_toNat, fmt2Field_toNat, iwField_toNat, sgnField_toNat,
    iw2Field_toNat]
  omega

/-! ### The masks as bits that must be 0 (R87) -/

theorem div_mod_two_pow_eq_zero_iff (n lo k : Nat) :
    n / 2 ^ lo % 2 ^ k = 0 ↔ ∀ i, lo ≤ i → i < lo + k → n.testBit i = false := by
  constructor
  · intro h i hlo hi
    have hbit := congrArg (·.testBit (i - lo)) h
    simpa [Nat.testBit_mod_two_pow, Nat.testBit_div_two_pow, show i - lo < k by omega, hlo] using hbit
  · intro h
    refine Nat.zero_of_testBit_eq_false fun i => ?_
    by_cases hi : i < k
    · simp [Nat.testBit_mod_two_pow, Nat.testBit_div_two_pow, h (i + lo) (by omega) (by omega)]
    · simp [Nat.testBit_mod_two_pow, hi]

/-- Every mask of R87 has the bits of OP, bits `lo` to `mid - 1` and bits `top` to 31: a word matches when the latter two are 0. -/
theorem matchesMask_iff_zero {mask : Word} (lo mid top : Nat) (horder : 8 ≤ lo ∧ lo ≤ mid ∧ mid ≤ top ∧ top ≤ 32)
    (hmask : ∀ i : Fin 32, mask.getLsbD i = decide (i.1 < 8 ∨ lo ≤ i.1 ∧ i.1 < mid ∨ top ≤ i.1)) (w : Word) :
    matchesMask w mask = true ↔ w.toNat / 2 ^ lo % 2 ^ (mid - lo) = 0 ∧ w.toNat / 2 ^ top % 2 ^ (32 - top) = 0 := by
  obtain ⟨hop, hlomid, hmidtop, htop⟩ := horder
  have hbits : matchesMask w mask = true ↔
      ∀ i, i < 32 → (w.toNat.testBit i && mask.getLsbD i) = (w.toNat.testBit i && decide (i < 8)) := by
    rw [matchesMask, beq_iff_eq, BitVec.eq_of_getLsbD_eq_iff]
    refine forall_congr' fun i => forall_congr' fun hi => ?_
    simp [hi, opField, Bool.and_comm, BitVec.testBit_toNat]
  have hzero : ∀ i, i < 32 → ((w.toNat.testBit i && mask.getLsbD i) = (w.toNat.testBit i && decide (i < 8)) ↔
      (lo ≤ i ∧ i < mid ∨ top ≤ i → w.toNat.testBit i = false)) := by
    intro i hi
    rw [hmask ⟨i, hi⟩]
    cases w.toNat.testBit i
    · simp
    · simp; omega
  rw [hbits, forall₂_congr hzero, div_mod_two_pow_eq_zero_iff, div_mod_two_pow_eq_zero_iff]
  refine ⟨fun h => ⟨fun i h1 h2 => h i (by omega) (by omega), fun i h1 h2 => h i (by omega) (.inr h1)⟩, ?_⟩
  rintro ⟨hgap, habove⟩ i hi (⟨h1, h2⟩ | h1)
  · exact hgap i h1 (by omega)
  · exact habove i h1 (by omega)

theorem engineMask_iff (w : Word) : matchesMask w engineMask = true ↔ w.toNat / 2 ^ 8 % 2 ^ 4 = 0 ∧ w.toNat / 2 ^ 16 % 2 ^ 16 = 0 :=
  matchesMask_iff_zero 8 12 16 (by decide) (by decide) w

theorem icvtMask_iff (w : Word) : matchesMask w icvtMask = true ↔ w.toNat / 2 ^ 8 % 2 ^ 4 = 0 ∧ w.toNat / 2 ^ 19 % 2 ^ 13 = 0 :=
  matchesMask_iff_zero 8 12 19 (by decide) (by decide) w

theorem floatMask_iff (w : Word) : matchesMask w floatMask = true ↔ w.toNat / 2 ^ 10 % 2 ^ 22 = 0 := by
  simpa [Nat.mod_one] using matchesMask_iff_zero (mask := floatMask) 10 10 10 (by decide) (by decide) w

theorem fcvtFFMask_iff (w : Word) : matchesMask w fcvtFFMask = true ↔ w.toNat / 2 ^ 12 % 2 ^ 20 = 0 := by
  simpa [Nat.mod_one] using matchesMask_iff_zero (mask := fcvtFFMask) 12 12 12 (by decide) (by decide) w

theorem convertMask_iff (w : Word) : matchesMask w convertMask = true ↔
    w.toNat / 2 ^ 10 % 2 ^ 2 = 0 ∧ w.toNat / 2 ^ 16 % 2 ^ 16 = 0 :=
  matchesMask_iff_zero 10 12 16 (by decide) (by decide) w

/-! ### The code tables (R81 to R85) -/

theorem fmtOfCode_fmtCode (f : Fmt) : fmtOfCode (fmtCode f) = some f := by cases f <;> rfl
theorem widthOfCode_widthCode (w : Width) : widthOfCode (widthCode w) = some w := by cases w <;> rfl
theorem sgnOfCode_sgnCode (g : Sgn) : sgnOfCode (sgnCode g) = g := by cases g <;> rfl

theorem engineWidthOfCode_widthCode {w : Width} (h : w.isEngine = true) : engineWidthOfCode (widthCode w) = some w := by
  rw [engineWidthOfCode, widthOfCode_widthCode]
  exact if_pos h

theorem fmtCode_of_fmtOfCode {c : BitVec 2} {f : Fmt} (h : fmtOfCode c = some f) : fmtCode f = c := by
  revert c f; decide
theorem widthCode_of_widthOfCode {c : BitVec 3} {w : Width} (h : widthOfCode c = some w) : widthCode w = c := by
  revert c; cases w <;> decide
theorem sgnCode_sgnOfCode (c : BitVec 1) : sgnCode (sgnOfCode c) = c := by
  revert c; decide

theorem of_engineWidthOfCode {c : BitVec 3} {w : Width} (h : engineWidthOfCode c = some w) :
    widthCode w = c ∧ w.isEngine = true := by
  unfold engineWidthOfCode at h
  split at h
  next n hn =>
    split at h
    next he => cases h; exact ⟨widthCode_of_widthOfCode hn, he⟩
    next => cases h
  next => cases h

/-! ### The operation codes (R81) -/

theorem engineOp_eq_none {op : BitVec 8} (h : 0x17 < op.toNat) : engineOp op = none := by
  rw [Option.eq_none_iff_forall_ne_some]
  intro mk hmk
  have := (exists_engineOp_iff op).1 ⟨mk, hmk⟩
  omega

theorem floatOp_eq_none {op : BitVec 8} (h : op.toNat < 0x40 ∨ 0x4A < op.toNat ∧ op.toNat < 0x4E) : floatOp op = none := by
  rw [Option.eq_none_iff_forall_ne_some]
  intro mk hmk
  have := (exists_floatOp_iff op).1 ⟨mk, hmk⟩
  omega

/-- Each row of the engine table: the encoder writes its code, and the one check left is the width. -/
theorem encode_of_engineOp {op : BitVec 8} {mk : Width → Sgn → Instr} (h : engineOp op = some mk) (w : Width) (g : Sgn) :
    encode (mk w g) = engineWord op w g ∧ (mk w g).wellFormed = w.isEngine := by
  unfold engineOp at h
  split at h <;> cases h <;> exact ⟨rfl, rfl⟩

theorem encode_of_floatOp {op : BitVec 8} {mk : Fmt → Instr} (h : floatOp op = some mk) (f : Fmt) :
    encode (mk f) = floatWord op f ∧ (mk f).wellFormed = true := by
  unfold floatOp at h
  split at h <;> cases h <;> exact ⟨rfl, rfl⟩

theorem encode_of_convertOp {op : BitVec 8} {mk : Fmt → Width → Sgn → Instr} (h : convertOp op = some mk) (f : Fmt) (w : Width)
    (g : Sgn) : encode (mk f w g) = convertWord op f w g ∧ (mk f w g).wellFormed = true := by
  unfold convertOp at h
  split at h <;> cases h <;> exact ⟨rfl, rfl⟩

/-! ### Which group's decoder a code selects (R88) -/

section
variable {w : Word}

theorem decode_of_engineOp {mk : Width → Sgn → Instr} (h : engineOp (opField w) = some mk) : decode w = decodeEngine w mk := by
  simp only [decode, h]

theorem decode_of_floatOp {mk : Fmt → Instr} (h : floatOp (opField w) = some mk) : decode w = decodeFloat w mk := by
  have hcode := (exists_floatOp_iff _).1 ⟨mk, h⟩
  simp only [decode, engineOp_eq_none (op := opField w) (by omega), h]

theorem decode_of_convertOp {mk : Fmt → Width → Sgn → Instr} (h : convertOp (opField w) = some mk) :
    decode w = decodeConvert w mk := by
  have hcode := (exists_convertOp_iff _).1 ⟨mk, h⟩
  simp only [decode, engineOp_eq_none (op := opField w) (by omega), floatOp_eq_none (op := opField w) (by omega), h]

theorem decode_of_icvt (h : opField w = 0x18#8) : decode w = decodeIcvt w := by
  rw [decode, h]
  rfl

theorem decode_of_fcvtFF (h : opField w = 0x4B#8) : decode w = decodeFcvtFF w := by
  rw [decode, h]
  rfl

end

/-! ### Decoding the word of an operation, group by group -/

theorem decode_engineWord {op : BitVec 8} {mk : Width → Sgn → Instr} (hop : engineOp op = some mk) {w : Width}
    (hw : w.isEngine = true) (g : Sgn) : decode (engineWord op w g) = .ok (mk w g) := by
  obtain ⟨hopF, -, -, hiw, hsgn, -⟩ := fields_assemble op 0 0 (widthCode w) (sgnCode g) 0
  have hmask : matchesMask (engineWord op w g) engineMask = true := by
    rw [engineMask_iff, engineWord, assemble_toNat]
    simp only [BitVec.ofNat_eq_ofNat, BitVec.toNat_ofNat]
    omega
  rw [engineWord] at hmask ⊢
  rw [decode_of_engineOp (hopF.symm ▸ hop)]
  simp only [decodeEngine, hmask, if_true, hiw, hsgn, engineWidthOfCode_widthCode hw, sgnOfCode_sgnCode]

theorem decode_floatWord {op : BitVec 8} {mk : Fmt → Instr} (hop : floatOp op = some mk) (f : Fmt) :
    decode (floatWord op f) = .ok (mk f) := by
  obtain ⟨hopF, hfmt, -, -, -, -⟩ := fields_assemble op (fmtCode f) 0 0 0 0
  have hmask : matchesMask (floatWord op f) floatMask = true := by
    rw [floatMask_iff, floatWord, assemble_toNat]
    simp only [BitVec.ofNat_eq_ofNat, BitVec.toNat_ofNat]
    omega
  rw [floatWord] at hmask ⊢
  rw [decode_of_floatOp (hopF.symm ▸ hop)]
  simp only [decodeFloat, hmask, if_true, hfmt, fmtOfCode_fmtCode]

theorem decode_convertWord {op : BitVec 8} {mk : Fmt → Width → Sgn → Instr} (hop : convertOp op = some mk) (f : Fmt) (w : Width)
    (g : Sgn) : decode (convertWord op f w g) = .ok (mk f w g) := by
  obtain ⟨hopF, hfmt, -, hiw, hsgn, -⟩ := fields_assemble op (fmtCode f) 0 (widthCode w) (sgnCode g) 0
  have hmask : matchesMask (convertWord op f w g) convertMask = true := by
    rw [convertMask_iff, convertWord, assemble_toNat]
    simp only [BitVec.ofNat_eq_ofNat, BitVec.toNat_ofNat]
    omega
  rw [convertWord] at hmask ⊢
  rw [decode_of_convertOp (hopF.symm ▸ hop)]
  simp only [decodeConvert, hmask, if_true, hfmt, fmtOfCode_fmtCode, hiw, widthOfCode_widthCode, hsgn, sgnOfCode_sgnCode]

theorem decode_icvtWord (w : Width) (g : Sgn) (w2 : Width) : decode (encode (.icvt w g w2)) = .ok (.icvt w g w2) := by
  obtain ⟨hopF, -, -, hiw, hsgn, hiw2⟩ := fields_assemble 0x18 0 0 (widthCode w) (sgnCode g) (widthCode w2)
  have hmask : matchesMask (encode (.icvt w g w2)) icvtMask = true := by
    rw [icvtMask_iff, encode, assemble_toNat]
    simp only [BitVec.ofNat_eq_ofNat, BitVec.toNat_ofNat]
    omega
  rw [encode] at hmask ⊢
  rw [decode_of_icvt hopF]
  simp only [decodeIcvt, hmask, if_true, hiw, hiw2, widthOfCode_widthCode, hsgn, sgnOfCode_sgnCode]

theorem decode_fcvtFFWord (f f2 : Fmt) : decode (encode (.fcvtFF f f2)) = .ok (.fcvtFF f f2) := by
  obtain ⟨hopF, hfmt, hfmt2, -, -, -⟩ := fields_assemble 0x4B (fmtCode f) (fmtCode f2) 0 0 0
  have hmask : matchesMask (encode (.fcvtFF f f2)) fcvtFFMask = true := by
    rw [fcvtFFMask_iff, encode, assemble_toNat]
    simp only [BitVec.ofNat_eq_ofNat, BitVec.toNat_ofNat]
    omega
  rw [encode] at hmask ⊢
  rw [decode_of_fcvtFF hopF]
  simp only [decodeFcvtFF, hmask, if_true, hfmt, hfmt2, fmtOfCode_fmtCode]

/-! ### The word of a decoded operation, group by group -/

/-- A field that the mask of its group marks 0. -/
theorem field_eq_zero {n : Nat} {c : BitVec n} (h : c.toNat = 0) : c = 0 := BitVec.eq_of_toNat_eq (h.trans BitVec.toNat_zero.symm)

section
variable {w : Word} {i : Instr}

theorem encode_of_decodeEngine {mk : Width → Sgn → Instr} (hop : engineOp (opField w) = some mk)
    (h : decodeEngine w mk = .ok i) : encode i = w ∧ i.wellFormed = true := by
  unfold decodeEngine at h
  split at h
  case isFalse => cases h
  case isTrue hmask =>
  rw [engineMask_iff] at hmask
  split at h
  next n hn =>
    cases h
    obtain ⟨hiw, hengine⟩ := of_engineWidthOfCode hn
    obtain ⟨hencode, hwf⟩ := encode_of_engineOp hop n (sgnOfCode (sgnField w))
    have hfmt : fmtField w = 0 := field_eq_zero (by rw [fmtField_toNat]; omega)
    have hfmt2 : fmt2Field w = 0 := field_eq_zero (by rw [fmt2Field_toNat]; omega)
    have hiw2 : iw2Field w = 0 := field_eq_zero (by rw [iw2Field_toNat]; omega)
    have hword := assemble_fields (w := w) (by omega)
    rw [hfmt, hfmt2, hiw2] at hword
    exact ⟨by rw [hencode, engineWord, hiw, sgnCode_sgnOfCode, hword], hwf.trans hengine⟩
  next => cases h

theorem encode_of_decodeFloat {mk : Fmt → Instr} (hop : floatOp (opField w) = some mk) (h : decodeFloat w mk = .ok i) :
    encode i = w ∧ i.wellFormed = true := by
  unfold decodeFloat at h
  split at h
  case isFalse => cases h
  case isTrue hmask =>
  rw [floatMask_iff] at hmask
  split at h
  next f hf =>
    cases h
    obtain ⟨hencode, hwf⟩ := encode_of_floatOp hop f
    have hfmt2 : fmt2Field w = 0 := field_eq_zero (by rw [fmt2Field_toNat]; omega)
    have hiw : iwField w = 0 := field_eq_zero (by rw [iwField_toNat]; omega)
    have hsgn : sgnField w = 0 := field_eq_zero (by rw [sgnField_toNat]; omega)
    have hiw2 : iw2Field w = 0 := field_eq_zero (by rw [iw2Field_toNat]; omega)
    have hword := assemble_fields (w := w) (by omega)
    rw [hfmt2, hiw, hsgn, hiw2] at hword
    exact ⟨by rw [hencode, floatWord, fmtCode_of_fmtOfCode hf, hword], hwf⟩
  next => cases h

theorem encode_of_decodeConvert {mk : Fmt → Width → Sgn → Instr} (hop : convertOp (opField w) = some mk)
    (h : decodeConvert w mk = .ok i) : encode i = w ∧ i.wellFormed = true := by
  unfold decodeConvert at h
  split at h
  case isFalse => cases h
  case isTrue hmask =>
  rw [convertMask_iff] at hmask
  split at h
  next => cases h
  next => cases h
  next f n hf hn =>
    cases h
    obtain ⟨hencode, hwf⟩ := encode_of_convertOp hop f n (sgnOfCode (sgnField w))
    have hfmt2 : fmt2Field w = 0 := field_eq_zero (by rw [fmt2Field_toNat]; omega)
    have hiw2 : iw2Field w = 0 := field_eq_zero (by rw [iw2Field_toNat]; omega)
    have hword := assemble_fields (w := w) (by omega)
    rw [hfmt2, hiw2] at hword
    exact ⟨by rw [hencode, convertWord, fmtCode_of_fmtOfCode hf, widthCode_of_widthOfCode hn, sgnCode_sgnOfCode, hword], hwf⟩

theorem encode_of_decodeIcvt (hop : opField w = 0x18#8) (h : decodeIcvt w = .ok i) : encode i = w ∧ i.wellFormed = true := by
  unfold decodeIcvt at h
  split at h
  case isFalse => cases h
  case isTrue hmask =>
  rw [icvtMask_iff] at hmask
  split at h
  next => cases h
  next => cases h
  next n n2 hn hn2 =>
    cases h
    have hfmt : fmtField w = 0 := field_eq_zero (by rw [fmtField_toNat]; omega)
    have hfmt2 : fmt2Field w = 0 := field_eq_zero (by rw [fmt2Field_toNat]; omega)
    have hword := assemble_fields (w := w) (by omega)
    rw [hop, hfmt, hfmt2] at hword
    exact ⟨by rw [encode, widthCode_of_widthOfCode hn, widthCode_of_widthOfCode hn2, sgnCode_sgnOfCode]; exact hword, rfl⟩

theorem encode_of_decodeFcvtFF (hop : opField w = 0x4B#8) (h : decodeFcvtFF w = .ok i) :
    encode i = w ∧ i.wellFormed = true := by
  unfold decodeFcvtFF at h
  split at h
  case isFalse => cases h
  case isTrue hmask =>
  rw [fcvtFFMask_iff] at hmask
  split at h
  next => cases h
  next => cases h
  next f f2 hf hf2 =>
    cases h
    have hiw : iwField w = 0 := field_eq_zero (by rw [iwField_toNat]; omega)
    have hsgn : sgnField w = 0 := field_eq_zero (by rw [sgnField_toNat]; omega)
    have hiw2 : iw2Field w = 0 := field_eq_zero (by rw [iw2Field_toNat]; omega)
    have hword := assemble_fields (w := w) (by omega)
    rw [hop, hiw, hsgn, hiw2] at hword
    exact ⟨by rw [encode, fmtCode_of_fmtOfCode hf, fmtCode_of_fmtOfCode hf2]; exact hword, rfl⟩

end

/-! ### The obligations -/

/-- Settles O1: each operation's word is read back by the decoder of its group. -/
theorem decodeReadsBackEncode : Obligations.DecodeReadsBackEncode := by
  unfold Obligations.DecodeReadsBackEncode
  intro i hwf
  cases i with
  | iadd w g | isub w g | imul w g | idiv w g | irem w g | ineg w g | iinc w g | idec w g | ilnot w g | inot w g | ibool w g
  | ishl w g | ishr w g | ieq w g | ine w g | ilt w g | ile w g | igt w g | ige w g | iadc w g | isbb w g | imulx w g
  | ibsr w g => exact decode_engineWord rfl hwf g
  | icvt w g w2 => exact decode_icvtWord w g w2
  | fclass f | fmkzero f | fmkinf f | fmknan f | fmksub f | fmknorm f | fneg f | fadd f | fsub f | fmul f | fdiv f | feq f | fne f
  | flt f | fle f | fgt f | fge f => exact decode_floatWord rfl f
  | fcvtFF f f2 => exact decode_fcvtFFWord f f2
  | fcvtFI f w g | fcvtIF f w g => exact decode_convertWord rfl f w g

/-- Settles O2: in each branch of the decoder the mask fixes the unused bits and the code tables the fields. -/
theorem acceptedWordIsTheEncoding : Obligations.AcceptedWordIsTheEncoding := by
  unfold Obligations.AcceptedWordIsTheEncoding
  intro w i h
  unfold decode at h
  split at h
  next mk hop => exact encode_of_decodeEngine hop h
  next =>
  split at h
  next mk hop => exact encode_of_decodeFloat hop h
  next =>
  split at h
  next mk hop => exact encode_of_decodeConvert hop h
  next =>
  split at h
  next hop => exact encode_of_decodeIcvt hop h
  next =>
  split at h
  next hop => exact encode_of_decodeFcvtFF hop h
  next => cases h

/-- Settles O4: a word that is not legal is one the decoder refuses (O3), and the step answers a refused word with the fault. -/
theorem illegalWordRaisesIllegalOp : Obligations.IllegalWordRaisesIllegalOp := by
  unfold Obligations.IllegalWordRaisesIllegalOp
  intro s hillegal
  rw [← legalExactlyByMaskMatchAndRange s.opw] at hillegal
  unfold step
  split
  next i hi => exact absurd ⟨i, hi⟩ hillegal
  next => exact completeFault_faults .illegalOp s

/-- Settles O5: each word is the one that the encoder gives for its operation, so O1 reads it back. -/
theorem exampleWordsDecode : Obligations.ExampleWordsDecode := by
  unfold Obligations.ExampleWordsDecode
  exact ⟨decodeReadsBackEncode (.iadd .w16 .unsigned) rfl, decodeReadsBackEncode (.iadc .w64 .unsigned) rfl,
    decodeReadsBackEncode (.imulx .w128 .signed) rfl, decodeReadsBackEncode (.icvt .w16 .signed .w64) rfl,
    decodeReadsBackEncode (.fadd .s) rfl, decodeReadsBackEncode (.fcvtFF .h .s) rfl, decodeReadsBackEncode (.fcvtFF .d .h) rfl,
    decodeReadsBackEncode (.fcvtFI .s .w32 .signed) rfl, decodeReadsBackEncode (.fcvtIF .h .w8 .unsigned) rfl,
    decodeReadsBackEncode (.fge .d) rfl⟩

end Sys2Proof.EncodingRoundTrip
end

section
/-! The step of the CORE (10_state.md R30 to R39, 30_encoding.md R85, R89): every request is answered, with a response that its
operation can have, from the listed port bits only. -/

namespace Sys2Proof.CoreStep

open Sys2Proof.Machine Sys2Proof.Safety Sys2Proof.IntShift Sys2Proof.FpDatapath

/-! ### Completion (R31, R39, R398) -/

theorem exec_next_sameInputs (i : Instr) (s : State) : ∃ t, exec i s = .next t ∧ SameInputs s t := by
  obtain ⟨r, h, fl, hnext⟩ | ⟨c, hnext⟩ := exec_answers_or_raises i s
  · exact ⟨_, hnext, sameInputs_answer r h fl s⟩
  · exact ⟨_, hnext, sameInputs_raise c s⟩

theorem step_of_decode_ok {s : State} {i : Instr} (h : decode s.opw = .ok i) : step s = exec i s := by
  simp only [step, h]

theorem step_of_decode_error {s : State} {e : DecodeError} (h : decode s.opw = .error e) : step s = completeFault .illegalOp s := by
  simp only [step, h]

theorem step_next_sameInputs (s : State) : ∃ t, step s = .next t ∧ SameInputs s t := by
  cases hdecode : decode s.opw with
  | ok i => rw [step_of_decode_ok hdecode]; exact exec_next_sameInputs i s
  | error e => exact ⟨_, step_of_decode_error hdecode, sameInputs_raise .illegalOp s⟩

/-! ### The response an operation can have (R33, R35; 60_exceptions.md R360 to R362) -/

/-- What `ResponseLegal` asks of a response to a request whose word decodes to `i`. -/
def ResponseFits (i : Instr) (t : State) : Prop :=
  (t.fault ≠ 0 → t.res = 0 ∧ t.resHi = 0 ∧ t.flag = false) ∧
  t.res.toNat < 2 ^ resultBits i ∧ t.resHi.toNat < 2 ^ highBits i ∧ (writesFlag i = false → t.flag = false) ∧
    (t.fault = 0 ∨ mayFault i t.fault.toNat = true)

theorem responseLegal_of_fits {t : State} {i : Instr} (hdecode : decode t.opw = .ok i) (h : ResponseFits i t) :
    ResponseLegal t := by
  obtain ⟨hfault, hfits⟩ := h
  refine ⟨hfault, ?_⟩
  rw [hdecode]
  exact hfits

theorem zextPort_toNat_le {n : Nat} (r : BitVec n) : (zextPort r).toNat ≤ r.toNat := by
  rw [zextPort, BitVec.toNat_setWidth]
  exact Nat.mod_le _ _

/-- The outcome is a next state with a response that fits the operation. -/
def AnswersFit (i : Instr) (o : Host.Outcome State Fault Refusal) : Prop := ∃ t, o = .next t ∧ ResponseFits i t

section
variable {i : Instr} {n m : Nat} {o o' : Host.Outcome State Fault Refusal} (s : State)

theorem answer_fits {res hi : Port} {fl : Bool} (hres : res.toNat < 2 ^ resultBits i) (hhi : hi.toNat < 2 ^ highBits i)
    (hfl : writesFlag i = false → fl = false) : AnswersFit i (.next (answer res hi fl s)) :=
  ⟨_, rfl, fun hfault => absurd rfl hfault, hres, hhi, hfl, .inl rfl⟩

theorem completeRes_fits (hbits : resultBits i = n) (r : BitVec n) : AnswersFit i (completeRes r s) :=
  answer_fits s (hbits ▸ (zextPort_toNat_le r).trans_lt r.isLt) (Nat.two_pow_pos _) fun _ => rfl

theorem completeResFlag_fits {r : BitVec n} (hr : r.toNat < 2 ^ resultBits i) (hflag : writesFlag i = true) (fl : Bool) :
    AnswersFit i (completeResFlag r fl s) :=
  answer_fits s ((zextPort_toNat_le r).trans_lt hr) (Nat.two_pow_pos _) fun hno => absurd (hno.symm.trans hflag) Bool.false_ne_true

theorem completeResHi_fits {r : BitVec n} (hr : r.toNat < 2 ^ resultBits i) (hbits : highBits i = m) (hi : BitVec m) :
    AnswersFit i (completeResHi r hi s) :=
  answer_fits s ((zextPort_toNat_le r).trans_lt hr) (hbits ▸ (zextPort_toNat_le hi).trans_lt hi.isLt) fun _ => rfl

theorem completeTruth_fits (hbits : resultBits i = 1) (hflag : writesFlag i = true) (t : Bool) :
    AnswersFit i (completeTruth t s) :=
  answer_fits s (by rw [hbits, truth_toNat]; exact t.toNat_lt) (Nat.two_pow_pos _)
    fun hno => absurd (hno.symm.trans hflag) Bool.false_ne_true

theorem completeFault_fits {c : FaultCode} (hmay : mayFault i (faultCode c).toNat = true) : AnswersFit i (completeFault c s) :=
  ⟨_, rfl, fun _ => ⟨rfl, rfl, rfl⟩, Nat.two_pow_pos _, Nat.two_pow_pos _, fun _ => rfl, .inr hmay⟩

theorem ite_fits {c : Prop} [Decidable c] (h : AnswersFit i o) (h' : AnswersFit i o') : AnswersFit i (if c then o else o') := by
  split
  · exact h
  · exact h'

end

/-- The index of a bit of at most 128 fits 7 bits. -/
theorem bitScan_pattern_lt (w : Width) (a : BitVec w.bits) : (pattern 128 (bitScan a)).toNat < 2 ^ 7 := by
  rw [bitScan_pattern_toNat w.bits_le]
  by_cases h0 : uval a = 0
  · rw [bitScan_of_zero h0]
    decide
  · exact (bitScan_bounds h0).1.trans_le w.bits_le

theorem exec_fits (i : Instr) (s : State) : AnswersFit i (exec i s) := by
  cases i with
  | iadd w g | isub w g | imul w g | ineg w g | iinc w g | idec w g | inot w g | icvt w g w2 | fmkzero f | fmkinf f | fmknan f
  | fneg f | fadd f | fsub f | fmul f | fdiv f | fcvtFF f f2 | fcvtFI f w g | fcvtIF f w g => exact completeRes_fits s rfl _
  | ilnot w g | ibool w g | ieq w g | ine w g | ilt w g | ile w g | igt w g | ige w g | feq f | fne f | flt f | fle f | fgt f
  | fge f => exact completeTruth_fits s rfl rfl _
  | idiv w g | irem w g | ishl w g | ishr w g => exact ite_fits (completeFault_fits s rfl) (completeRes_fits s rfl _)
  | fmksub f | fmknorm f => exact ite_fits (completeRes_fits s rfl _) (completeFault_fits s rfl)
  | iadc w g | isbb w g => exact completeResFlag_fits s (BitVec.isLt _) rfl _
  | ibsr w g => exact completeResFlag_fits s (bitScan_pattern_lt w _) rfl _
  | imulx w g => exact completeResHi_fits s (BitVec.isLt _) rfl _
  | fclass f =>
    refine completeResHi_fits s ?_ rfl _
    rw [BitVec.toNat_ofNat]
    exact (Nat.mod_le _ _).trans_lt (decompose_sig_lt f _)

/-! ### Two requests that agree on the bits read (R30, R34, R89) -/

section
variable (s : State)

theorem responseOf_ite {c : Prop} [Decidable c] (o o' : Host.Outcome State Fault Refusal) :
    responseOf (if c then o else o') = if c then responseOf o else responseOf o' := apply_ite ..

theorem responseOf_completeRes {n : Nat} (r : BitVec n) : responseOf (completeRes r s) = some ⟨zextPort r, 0, false, 0⟩ := rfl

theorem responseOf_completeResFlag {n : Nat} (r : BitVec n) (fl : Bool) :
    responseOf (completeResFlag r fl s) = some ⟨zextPort r, 0, fl, 0⟩ := rfl

theorem responseOf_completeResHi {n m : Nat} (r : BitVec n) (hi : BitVec m) :
    responseOf (completeResHi r hi s) = some ⟨zextPort r, zextPort hi, false, 0⟩ := rfl

theorem responseOf_completeTruth (t : Bool) : responseOf (completeTruth t s) = some ⟨truth t, 0, t, 0⟩ := rfl

theorem responseOf_completeFault (c : FaultCode) : responseOf (completeFault c s) = some ⟨0, 0, false, faultCode c⟩ := rfl

end

/-- Equal operands, and equal CIN and build where they are read, give equal responses. -/
theorem exec_congr (i : Instr) {s t : State}
    (hA : operandA (portUse i).aBits s = operandA (portUse i).aBits t)
    (hB : operandB (portUse i).bBits s = operandB (portUse i).bBits t)
    (hcin : (portUse i).cin = true → s.cin = t.cin) (hcfg : (∃ f w g, i = .fcvtIF f w g) → s.cfg = t.cfg) :
    responseOf (exec i s) = responseOf (exec i t) := by
  cases i with
  | iadd w g | isub w g | imul w g | ieq w g | ine w g | ilt w g | ile w g | igt w g | ige w g | imulx w g
  | fadd f | fsub f | fmul f | fdiv f | feq f | fne f | flt f | fle f | fgt f | fge f =>
    simp only [portUse] at hA hB
    simp only [exec, execIadd, execIsub, execImul, execIeq, execIne, execIlt, execIle, execIgt, execIge, execImulx, execFadd,
      execFsub,
      execFmul, execFdiv, execFeq, execFne, execFlt, execFle, execFgt, execFge, responseOf_completeRes, responseOf_completeResHi,
      responseOf_completeTruth, hA, hB]
  | ineg w g | iinc w g | idec w g | ilnot w g | inot w g | ibool w g | ibsr w g | icvt w g w2 | fclass f | fneg f | fcvtFF f f2
  | fcvtFI f w g =>
    simp only [portUse] at hA
    simp only [exec, execIneg, execIinc, execIdec, execIlnot, execInot, execIbool, execIbsr, execIcvt, execFclass, execFneg,
      execFcvtFF,
      execFcvtFI, responseOf_completeRes, responseOf_completeResFlag, responseOf_completeResHi, responseOf_completeTruth, hA]
  | idiv w g | irem w g =>
    simp only [portUse] at hA hB
    simp only [exec, execIdiv, execIrem, responseOf_ite, responseOf_completeRes, responseOf_completeFault, hA, hB]
  | ishl w g | ishr w g =>
    have hamount : shiftAmount w.bits s = shiftAmount w.bits t := congrArg uval hB
    simp only [portUse] at hA
    simp only [exec, execIshl, execIshr, responseOf_ite, responseOf_completeRes, responseOf_completeFault, hA, hamount]
  | iadc w g | isbb w g =>
    simp only [portUse] at hA hB
    simp only [exec, execIadc, execIsbb, carryIn, responseOf_completeResFlag, hA, hB, hcin rfl]
  | fmkzero f | fmkinf f => simp only [exec, execFmkzero, execFmkinf, signIn, responseOf_completeRes, hcin rfl]
  | fmknan f => rfl
  | fmksub f =>
    have hsign : signIn s = signIn t := hcin rfl
    simp only [portUse] at hA
    simp only [exec, execFmksub, responseOf_ite, responseOf_completeRes, responseOf_completeFault, hA, hsign]
  | fmknorm f =>
    have hsign : signIn s = signIn t := hcin rfl
    have hexp : exponentB s = exponentB t := congrArg sval hB
    simp only [portUse] at hA
    simp only [exec, execFmknorm, responseOf_ite, responseOf_completeRes, responseOf_completeFault, hA, hexp, hsign]
  | fcvtIF f w g =>
    simp only [portUse] at hA
    simp only [exec, execFcvtIF, responseOf_completeRes, hA, hcfg ⟨f, w, g, rfl⟩]

/-! ### The obligations -/

/-- Settles O10: the step keeps the input ports, and either runs an operation, whose response fits it, or answers the fault. -/
theorem everyStepLeavesALegalResponse : Obligations.EveryStepLeavesALegalResponse := by
  unfold Obligations.EveryStepLeavesALegalResponse
  intro s t hnext
  obtain ⟨u, hu, hsame⟩ := step_next_sameInputs s
  cases hu.symm.trans hnext
  refine ⟨?_, hsame⟩
  obtain ⟨hopw, -⟩ := hsame
  cases hdecode : decode s.opw with
  | ok i =>
    obtain ⟨v, hv, hfits⟩ := exec_fits i s
    cases (hv.symm.trans (step_of_decode_ok hdecode).symm).trans hnext
    exact responseLegal_of_fits (hopw ▸ hdecode) hfits
  | error e =>
    cases (step_of_decode_error hdecode).symm.trans hnext
    refine ⟨fun _ => ⟨rfl, rfl, rfl⟩, ?_⟩
    rw [raise_opw, hdecode]
    exact ⟨rfl, rfl, rfl, le_rfl⟩

/-- Settles O7: a step is an operation or a fault, and each answers a next state with the inputs kept. -/
theorem everyRequestIsAnswered : Obligations.EveryRequestIsAnswered := by
  unfold Obligations.EveryRequestIsAnswered
  exact fun s => ⟨step_next_sameInputs s, fun i => exec_next_sameInputs i s⟩

/-- Settles O8: equal low bits are equal operands, and the response is computed from the operands read (`exec_congr`). -/
theorem responseReadsOnlyListedPorts : Obligations.ResponseReadsOnlyListedPorts := by
  unfold Obligations.ResponseReadsOnlyListedPorts
  intro i s t hA hB hcin hcfg
  exact exec_congr i (operandA_congr hA) (operandB_congr hB) hcin hcfg

/-- Settles O6. -/
theorem stepRunsTheDecodedOperation : Obligations.StepRunsTheDecodedOperation := by
  unfold Obligations.StepRunsTheDecodedOperation
  intro s i hdecode
  exact step_of_decode_ok hdecode

/-- Settles O11: the word on OPW after reset is the illegal word 0, and every output port is 0. -/
theorem resetIsLegalAndDefaultBuild : Obligations.ResetIsLegalAndDefaultBuild := by
  unfold Obligations.ResetIsLegalAndDefaultBuild
  refine ⟨rfl, fun _ => ⟨rfl, rfl, rfl⟩, ?_⟩
  have hdecode : decode State.reset.opw = .error .unlistedOp := rfl
  rw [hdecode]
  exact ⟨rfl, rfl, rfl, by decide⟩

/-- A dividend of all ones, −1 or 2^N − 1, with a second operand of 2. -/
def allOnesAndTwo : State := { State.reset with a := BitVec.allOnes 128, b := 2 }

theorem outcome_ne_of_response_ne {o o' : Host.Outcome State Fault Refusal} (h : responseOf o ≠ responseOf o') : o ≠ o' :=
  fun heq => h (congrArg responseOf heq)

/-- Settles O9: the fifteen ignore their SGN; on the operands −1 (or 2^N − 1) and 2 each of the others answers differently. -/
theorem signednessMattersOnlyWhereListed : Obligations.SignednessMattersOnlyWhereListed := by
  unfold Obligations.SignednessMattersOnlyWhereListed
  refine ⟨fun w s => ⟨rfl, rfl, rfl, rfl, rfl, rfl, rfl, rfl, rfl, rfl, rfl, rfl, rfl, rfl, rfl⟩,
    fun w => ?listed, fun w w2 hlt => ?icvt⟩
  case listed =>
    refine ⟨⟨allOnesAndTwo, ?_⟩, ⟨allOnesAndTwo, ?_⟩, ⟨allOnesAndTwo, ?_⟩, ⟨allOnesAndTwo, ?_⟩, ⟨allOnesAndTwo, ?_⟩,
      ⟨allOnesAndTwo, ?_⟩, ⟨allOnesAndTwo, ?_⟩, ⟨allOnesAndTwo, ?_⟩⟩ <;>
      apply outcome_ne_of_response_ne <;> cases w <;> decide +kernel
  case icvt =>
    refine ⟨allOnesAndTwo, outcome_ne_of_response_ne ?_⟩
    revert hlt
    cases w <;> cases w2 <;> decide +kernel

end Sys2Proof.CoreStep
end

section
/-! Requests that belong together (40_int_arith.md R126, R136): the quotient and the remainder on the same ports, and two requests
chained through FLAG and CIN. -/

namespace Sys2Proof.IntPairs

open Sys2Proof.Machine Sys2Proof.Safety Sys2Proof.IntArith

/-! ### Quotient and remainder (R125, R126) -/

/-- A number other than 0 is not read as 0. -/
theorem readAs_ne_zero (g : Sgn) {n v : Nat} (hv : v < 2 ^ n) (h0 : v ≠ 0) : readAs g n v ≠ 0 := by
  intro hread
  have hwrap := wrap_readAs g n v hv
  rw [hread, wrap, Int.zero_emod] at hwrap
  exact h0 hwrap.symm

theorem natAbs_tmod_lt (x : Int) {y : Int} (hy : y ≠ 0) : (Int.tmod x y).natAbs < y.natAbs := by
  rw [Int.natAbs_tmod]
  exact Nat.mod_lt _ (Int.natAbs_pos.2 hy)

/-- The remainder is in the range of its type, so its pattern is read back. -/
theorem readAs_wrap_tmod (g : Sgn) {n a b : Nat} (hn : 0 < n) (ha : a < 2 ^ n) (hb : b < 2 ^ n) (hb0 : b ≠ 0) :
    readAs g n (wrap n (Int.tmod (readAs g n a) (readAs g n b))) = Int.tmod (readAs g n a) (readAs g n b) := by
  have hlt := natAbs_tmod_lt (readAs g n a) (readAs_ne_zero g hb hb0)
  apply readAs_wrap_of_range hn
  cases g with
  | unsigned =>
    obtain ⟨hx0, -⟩ := (readAs_bounds (g := .unsigned) hn ha).2 rfl
    obtain ⟨hy0, hy⟩ := (readAs_bounds (g := .unsigned) hn hb).2 rfl
    have hnonneg := Int.tmod_nonneg (readAs .unsigned n b) hx0
    exact ⟨hnonneg, by omega⟩
  | signed =>
    obtain ⟨hlow, hhigh⟩ := (readAs_bounds (g := .signed) hn hb).1 rfl
    constructor <;> omega

/-- Reading and wrapping a number keeps it mod 2^N. -/
theorem readAs_wrap_modEq (g : Sgn) (n : Nat) (v : Int) : readAs g n (wrap n v) ≡ v [ZMOD 2 ^ n] :=
  (readAs_mod g n _).trans (wrap_mod n v)

theorem wrap_eq_of_modEq {n : Nat} {v w : Int} (h : v ≡ w [ZMOD 2 ^ n]) : wrap n v = wrap n w := congrArg Int.toNat h

/-- Settles O15: quotient and remainder are those of truncated division (O13, O14), and only the quotient −2^(N−1) / −1 wraps. -/
theorem quotientAndRemainderRecombine : Obligations.QuotientAndRemainderRecombine := by
  unfold Obligations.QuotientAndRemainderRecombine
  intro w g s t u hb0 hdiv hrem x y q r
  have hq : q = readAs g w.bits (wrap w.bits (Int.tdiv x y)) :=
    congrArg (readAs g w.bits) (answers_of_next ((divideTruncatesTowardZero w g s).2 hb0) hdiv).1
  have hr : r = Int.tmod x y := by
    rw [← readAs_wrap_tmod g w.bits_pos (portA_lt _ s) (portB_lt _ s) hb0]
    exact congrArg (readAs g w.bits) (answers_of_next ((remainderMatchesQuotient w g s).2 hb0) hrem).1
  have hy : y ≠ 0 := readAs_ne_zero g (portB_lt _ s) hb0
  refine ⟨wrap_eq_of_modEq ?_, ?_, ?_⟩
  · have hrecombine : Int.tdiv x y * y + r = x := by rw [hr, mul_comm, Int.mul_tdiv_add_tmod]
    have hmod := ((hq ▸ readAs_wrap_modEq g w.bits (Int.tdiv x y)).mul_right y).add_right r
    rwa [hrecombine] at hmod
  · rw [hr, Int.abs_eq_natAbs, Int.abs_eq_natAbs]
    exact_mod_cast natAbs_tmod_lt x hy
  · rw [hr]
    obtain hx | hx := lt_or_ge x 0
    · have hneg := Int.tmod_nonneg y (neg_nonneg.2 hx.le)
      rw [Int.neg_tmod] at hneg
      omega
    · have hnonneg := Int.tmod_nonneg y hx
      omega

/-! ### Chained additions and subtractions (R133, R134, R136) -/

/-- Sum and carry together are the whole sum. -/
theorem mod_add_carry {m v : Nat} (hv : v < 2 * m) : v % m + m * (decide (m ≤ v)).toNat = v := by
  by_cases h : m ≤ v
  · rw [Nat.mod_eq_sub_mod h, Nat.mod_eq_of_lt (by omega)]
    simp [h]
  · rw [Nat.mod_eq_of_lt (by omega)]
    simp [h]

/-- Difference and borrow together are the whole difference. -/
theorem wrap_sub_borrow {n a b : Nat} (ha : a < 2 ^ n) (hb : b ≤ 2 ^ n) :
    (wrap n ((a : Int) - b) : Int) - 2 ^ n * (decide (a < b)).toNat = a - b := by
  rw [wrap, two_pow_cast, Int.toNat_of_nonneg (Int.emod_nonneg _ (by positivity))]
  by_cases h : a < b
  · rw [← Int.add_emod_right, Int.emod_eq_of_lt (by omega) (by omega)]
    simp [h]
  · rw [Int.emod_eq_of_lt (by omega) (by omega)]
    simp [h]

/-- RES and FLAG of IADC as one number. -/
theorem iadc_sum {w : Width} {g : Sgn} {s t : State} (h : exec (.iadc w g) s = .next t) :
    t.res.toNat + 2 ^ w.bits * t.flag.toNat = portA w.bits s + portB w.bits s + s.cin.toNat := by
  obtain ⟨hres, -, hflag, -⟩ := answers_of_next (carryAndBorrow w g s).1 h
  have ha := portA_lt w.bits s
  have hb := portB_lt w.bits s
  have hc := s.cin.toNat_le
  rw [hres, hflag, mod_add_carry (by omega)]

/-- RES and FLAG of ISBB as one number. -/
theorem isbb_difference {w : Width} {g : Sgn} {s t : State} (h : exec (.isbb w g) s = .next t) :
    (t.res.toNat : Int) - 2 ^ w.bits * t.flag.toNat = portA w.bits s - portB w.bits s - s.cin.toNat := by
  obtain ⟨hres, -, hflag, -⟩ := answers_of_next (carryAndBorrow w g s).2 h
  have hb := portB_lt w.bits s
  have hc := s.cin.toNat_le
  have hdiff := wrap_sub_borrow (portA_lt w.bits s) (b := portB w.bits s + s.cin.toNat) (by omega)
  rw [Nat.cast_add, ← sub_sub] at hdiff
  rw [hres, hflag, hdiff]

/-- Settles O19: the first response's FLAG counts 2^N in the first and 1 in the second request, so it cancels. -/
theorem carryChainIsDoubleWidth : Obligations.CarryChainIsDoubleWidth := by
  unfold Obligations.CarryChainIsDoubleWidth
  intro w g s1 s2 t1 t2 n a b hchain
  refine ⟨fun h1 h2 => ?_, fun h1 h2 => ?_⟩
  · have hlow := iadc_sum h1
    have hhigh := iadc_sum h2
    rw [hchain] at hhigh
    simp only [a, b]
    rw [two_mul, pow_add]
    zify at hlow hhigh ⊢
    linear_combination hlow + 2 ^ n * hhigh
  · have hlow := isbb_difference h1
    have hhigh := isbb_difference h2
    rw [hchain] at hhigh
    simp only [a, b]
    rw [two_mul, pow_add]
    push_cast
    linear_combination hlow + 2 ^ n * hhigh

end Sys2Proof.IntPairs
end

section
/-! The multi-limb engine (40_int_arith.md R121, R136 to R138; 41_int_shift_scan.md R164; 42_int_compare_convert.md R188): a limb as
a number, and by induction on the depth each limb function as the whole-value function of the operations. -/

namespace Sys2Proof.WideInt

open Sys2Proof.Machine Sys2Proof.Safety Sys2Proof.IntArith Sys2Proof.IntPairs Sys2Proof.IntShift Sys2Proof.IntCompare

/-! ### Limbs as numbers (R121) -/

theorem two_pow_limbBits_succ (k : Nat) : 2 ^ limbBits (k + 1) = 2 ^ limbBits k * 2 ^ limbBits k := pow_add ..

theorem limbBits_pos (k : Nat) : 0 < limbBits k := by
  induction k with
  | zero => decide
  | succ k ih => rw [limbBits]; omega

section
variable {k : Nat} (a b : BitVec (limbBits (k + 1)))

theorem limbHi_toNat : (limbHi a).toNat = a.toNat / 2 ^ limbBits k := by
  have ha : a.toNat < 2 ^ limbBits k * 2 ^ limbBits k := two_pow_limbBits_succ k ▸ a.isLt
  rw [limbHi, BitVec.extractLsb'_toNat, Nat.shiftRight_eq_div_pow, Nat.mod_eq_of_lt (Nat.div_lt_of_lt_mul ha)]

theorem limbLo_toNat : (limbLo a).toNat = a.toNat % 2 ^ limbBits k := by
  rw [limbLo, BitVec.extractLsb'_toNat, Nat.shiftRight_zero]

theorem toNat_eq_limbs : a.toNat = (limbHi a).toNat * 2 ^ limbBits k + (limbLo a).toNat := by
  rw [limbHi_toNat, limbLo_toNat, Nat.div_add_mod']

theorem limbJoin_toNat (hi lo : BitVec (limbBits k)) :
    (limbJoin hi lo).toNat = hi.toNat * 2 ^ limbBits k + lo.toNat := by
  refine (BitVec.toNat_append hi lo).trans ?_
  rw [← Nat.shiftLeft_add_eq_or_of_lt lo.isLt, Nat.shiftLeft_eq]

end

/-! ### Adder and subtractor (R133, R134, R136) -/

section
variable {n : Nat} {a b r : BitVec n} {c d : Bool}

/-- Sum and carry are the only pattern and bit that make up the whole sum. -/
theorem eq_addCarry (h : r.toNat + 2 ^ n * d.toNat = a.toNat + b.toNat + c.toNat) : r = addCarry a b c ∧ d = carryFlag a b c := by
  have hr := r.isLt
  have hd : d = carryFlag a b c := by
    rw [carryFlag, uval, uval, ← h, Bool.eq_iff_iff, decide_eq_true_iff]
    cases d
    · simpa using hr
    · simp
  refine ⟨BitVec.eq_of_toNat_eq ?_, hd⟩
  rw [addCarry_toNat, uval, uval, ← h, Nat.add_mul_mod_self_left, Nat.mod_eq_of_lt hr]

theorem addCarry_add_carryFlag (a b : BitVec n) (c : Bool) :
    (addCarry a b c).toNat + 2 ^ n * (carryFlag a b c).toNat = a.toNat + b.toNat + c.toNat := by
  have ha := a.isLt
  have hb := b.isLt
  have hc := c.toNat_le
  rw [addCarry_toNat, carryFlag, uval, uval, mod_add_carry (by omega)]

/-- Difference and borrow are the only pattern and bit that make up the whole difference. -/
theorem eq_subBorrow (h : (r.toNat : Int) - 2 ^ n * d.toNat = a.toNat - b.toNat - c.toNat) :
    r = subBorrow a b c ∧ d = borrowFlag a b c := by
  have hr : (r.toNat : Int) < 2 ^ n := by exact_mod_cast r.isLt
  have hd : d = borrowFlag a b c := by
    rw [borrowFlag, uval, uval, ← h, Bool.eq_iff_iff, decide_eq_true_iff]
    cases d
    · simp
    · simpa using hr
  refine ⟨BitVec.eq_of_toNat_eq ?_, hd⟩
  rw [subBorrow_toNat, uval, uval, ← h, wrap, Int.sub_mul_emod_self_left, Int.emod_eq_of_lt (by positivity) hr, Int.toNat_natCast]

theorem subBorrow_sub_borrowFlag (a b : BitVec n) (c : Bool) :
    ((subBorrow a b c).toNat : Int) - 2 ^ n * (borrowFlag a b c).toNat = a.toNat - b.toNat - c.toNat := by
  have hb := b.isLt
  have hc := c.toNat_le
  have hdiff := wrap_sub_borrow a.isLt (b := b.toNat + c.toNat) (by omega)
  rw [Nat.cast_add, ← sub_sub] at hdiff
  rw [subBorrow_toNat, borrowFlag_eq, uval, uval, hdiff]

theorem negMod_eq_neg (a : BitVec n) : negMod a = -a := by
  rw [← BitVec.toNat_inj, negMod_toNat, BitVec.toNat_neg, uval]

/-- The negation is the pattern that adds up to a multiple of 2^N. -/
theorem eq_negMod (h : 2 ^ n ∣ r.toNat + a.toNat) : r = negMod a := by
  rw [negMod_eq_neg]
  apply eq_neg_of_add_eq_zero_left
  rw [← BitVec.toNat_inj, BitVec.toNat_add, Nat.mod_eq_zero_of_dvd h]
  rfl

/-- A pattern and its negation add up to 2^N, but for 0. -/
theorem negMod_add (a : BitVec n) : (negMod a).toNat + a.toNat + 2 ^ n * (isZeroFlag a).toNat = 2 ^ n := by
  have ha := a.isLt
  rw [negMod_toNat, isZeroFlag, uval]
  by_cases h0 : a.toNat = 0
  · simp [h0]
  · rw [Nat.mod_eq_of_lt (by omega), decide_eq_false h0, Bool.toNat_false]
    omega

end

theorem limbAddCarry_eq (k : Nat) (a b : BitVec (limbBits k)) (c : Bool) :
    limbAddCarry k a b c = (addCarry a b c, carryFlag a b c) := by
  induction k generalizing c with
  | zero => rfl
  | succ k ih =>
    simp only [limbAddCarry, ih]
    have hlow := addCarry_add_carryFlag (limbLo a) (limbLo b) c
    generalize addCarry (limbLo a) (limbLo b) c = lo at hlow ⊢
    generalize carryFlag (limbLo a) (limbLo b) c = c1 at hlow ⊢
    have hhigh := addCarry_add_carryFlag (limbHi a) (limbHi b) c1
    obtain ⟨hsum, hcarry⟩ := eq_addCarry (a := a) (b := b) (c := c) (d := carryFlag (limbHi a) (limbHi b) c1)
      (r := limbJoin (addCarry (limbHi a) (limbHi b) c1) lo) (by
      rw [limbJoin_toNat, toNat_eq_limbs a, toNat_eq_limbs b, two_pow_limbBits_succ]
      linear_combination hlow + 2 ^ limbBits k * hhigh)
    rw [hsum, hcarry]

theorem limbSubBorrow_eq (k : Nat) (a b : BitVec (limbBits k)) (c : Bool) :
    limbSubBorrow k a b c = (subBorrow a b c, borrowFlag a b c) := by
  induction k generalizing c with
  | zero => rfl
  | succ k ih =>
    simp only [limbSubBorrow, ih]
    have hlow := subBorrow_sub_borrowFlag (limbLo a) (limbLo b) c
    generalize subBorrow (limbLo a) (limbLo b) c = lo at hlow ⊢
    generalize borrowFlag (limbLo a) (limbLo b) c = c1 at hlow ⊢
    have hhigh := subBorrow_sub_borrowFlag (limbHi a) (limbHi b) c1
    obtain ⟨hdiff, hborrow⟩ := eq_subBorrow (a := a) (b := b) (c := c) (d := borrowFlag (limbHi a) (limbHi b) c1)
      (r := limbJoin (subBorrow (limbHi a) (limbHi b) c1) lo) (by
      rw [limbJoin_toNat, toNat_eq_limbs a, toNat_eq_limbs b, two_pow_cast, two_pow_limbBits_succ]
      push_cast
      linear_combination hlow + 2 ^ limbBits k * hhigh)
    rw [hdiff, hborrow]

theorem limbAdd_eq (k : Nat) (a b : BitVec (limbBits k)) : limbAdd k a b = addMod a b := by
  rw [limbAdd, limbAddCarry_eq, ← BitVec.toNat_inj, addCarry_toNat, addMod_toNat, Bool.toNat_false, Nat.add_zero]

theorem limbSub_eq (k : Nat) (a b : BitVec (limbBits k)) : limbSub k a b = subMod a b := by
  rw [limbSub, limbSubBorrow_eq, ← BitVec.toNat_inj, subBorrow_toNat, subMod_toNat, Bool.toNat_false, Nat.cast_zero, sub_zero]

/-- With a lower limb of 0 the upper limb is negated; else the borrow from the lower limb leaves its complement. -/
theorem limbNeg_eq (k : Nat) (a : BitVec (limbBits k)) : limbNeg k a = negMod a := by
  induction k with
  | zero => rfl
  | succ k ih =>
    simp only [limbNeg, limbAddCarry_eq, ih]
    have hlow := negMod_add (limbLo a)
    have hhigh := addCarry_add_carryFlag (complement (limbHi a)) 0 (isZeroFlag (limbLo a))
    have hcomplement : (complement (limbHi a)).toNat + (limbHi a).toNat + 1 = 2 ^ limbBits k := by
      have := (limbHi a).isLt
      rw [complement_toNat, uval]
      omega
    have hzero : (0 : BitVec (limbBits k)).toNat = 0 := BitVec.toNat_zero
    rw [hzero] at hhigh
    apply eq_negMod
    generalize carryFlag (complement (limbHi a)) 0 (isZeroFlag (limbLo a)) = carry at hhigh
    rw [limbJoin_toNat, toNat_eq_limbs a, two_pow_limbBits_succ]
    refine (Nat.dvd_add_left (Nat.dvd_mul_right _ carry.toNat)).1 ⟨1, ?_⟩
    linear_combination hlow + 2 ^ limbBits k * hhigh + 2 ^ limbBits k * hcomplement

theorem limbNonzero_eq (k : Nat) (a : BitVec (limbBits k)) : limbNonzero k a = isNonzeroFlag a := by
  induction k with
  | zero => rfl
  | succ k ih =>
    have hpos := Nat.two_pow_pos (limbBits k)
    rw [limbNonzero, ih, ih, Bool.eq_iff_iff, Bool.or_eq_true, isNonzeroFlag_iff, isNonzeroFlag_iff, isNonzeroFlag_iff, uval, uval,
      uval, toNat_eq_limbs a]
    simp only [ne_eq, Nat.add_eq_zero_iff, Nat.mul_eq_zero, hpos.ne', or_false]
    tauto

/-! ### Multiplier (R135, R137) -/

theorem limbMulExtended_toNat (k : Nat) (a b : BitVec (limbBits k)) : (limbMulExtended k a b).toNat = a.toNat * b.toNat := by
  induction k with
  | zero =>
    refine (pattern_natCast_toNat 16 (uval a * uval b)).trans (Nat.mod_eq_of_lt ?_)
    exact Nat.mul_lt_mul'' (c := 2 ^ 8) (d := 2 ^ 8) a.isLt b.isLt
  | succ k ih =>
    have hlt : a.toNat * b.toNat < 2 ^ limbBits (k + 2) := by
      rw [two_pow_limbBits_succ]
      exact Nat.mul_lt_mul'' a.isLt b.isLt
    have hwidth : limbBits (k + 1) ≤ limbBits (k + 2) := Nat.le_add_right ..
    simp only [limbMulExtended, BitVec.toNat_add, BitVec.toNat_shiftLeft, BitVec.toNat_setWidth_of_le hwidth, ih,
      Nat.shiftLeft_eq, Nat.mod_add_mod, Nat.add_mod_mod]
    rw [← Nat.mod_eq_of_lt hlt, toNat_eq_limbs a, toNat_eq_limbs b]
    congr 1
    ring

theorem limbMul_eq (k : Nat) (a b : BitVec (limbBits k)) : limbMul k a b = mulMod a b := by
  rw [limbMul, ← BitVec.toNat_inj, limbLo_toNat, limbMulExtended_toNat, mulMod_toNat, uval, uval]

/-! ### Signs and magnitudes (R125, R126, R135) -/

section
variable {k : Nat} (a b : BitVec (limbBits k))

theorem signBit_eq_neg : a.getLsbD (limbBits k - 1) = decide (a.toInt < 0) := by
  rw [← BitVec.msb_eq_getLsbD_last, BitVec.msb_eq_toInt]

theorem limbSignsDiffer_eq : limbSignsDiffer k a b = (decide (a.toInt < 0) != decide (b.toInt < 0)) := by
  rw [limbSignsDiffer, signBit_eq_neg, signBit_eq_neg]

theorem limbAbs_toNat : (limbAbs k a).toNat = a.toInt.natAbs := by
  have ha := a.isLt
  have hcond := BitVec.toInt_eq_msb_cond a
  rw [limbAbs, ← BitVec.msb_eq_getLsbD_last]
  cases hmsb : a.msb
  · rw [hmsb] at hcond
    simp at hcond
    simp [hcond]
  · rw [hmsb] at hcond
    have hpos : a.toNat ≠ 0 := by
      intro h0
      rw [BitVec.eq_of_toNat_eq (h0.trans BitVec.toNat_zero.symm), BitVec.msb_zero] at hmsb
      cases hmsb
    simp only [if_true] at hcond ⊢
    rw [limbNeg_eq, negMod_toNat, uval, Nat.mod_eq_of_lt (by omega), hcond]
    omega

/-- A magnitude is at most 2^(N−1). -/
theorem two_mul_limbAbs_le : 2 * (limbAbs k a).toNat ≤ 2 ^ limbBits k := by
  have hlow := BitVec.le_toInt a
  have hhigh := BitVec.toInt_lt (x := a)
  have hpow : (2 : Int) ^ limbBits k = 2 * 2 ^ (limbBits k - 1) := by
    rw [← pow_succ', Nat.sub_add_cancel (limbBits_pos k)]
  have habs := abs_le.2 ⟨hlow, hhigh.le⟩
  rw [limbAbs_toNat]
  zify
  rw [hpow]
  omega

end

/-- A product is the product of the magnitudes with the sign of R135. -/
theorem mul_eq_sign_magnitudes (x y : Int) :
    x * y =
      if (decide (x < 0) != decide (y < 0)) = true then -((x.natAbs * y.natAbs : Nat) : Int) else (x.natAbs * y.natAbs : Nat) := by
  push_cast
  rcases lt_or_ge x 0 with hx | hx <;> rcases lt_or_ge y 0 with hy | hy
  · simp [hx, hy, abs_of_neg]
  · simp [hx, hy.not_gt, abs_of_neg, abs_of_nonneg, hy]
  · simp [hx.not_gt, hy, abs_of_neg, abs_of_nonneg, hx]
  · simp [hx.not_gt, hy.not_gt, abs_of_nonneg, hx, hy]

theorem limbMulExtendedSigned_toInt (k : Nat) (a b : BitVec (limbBits k)) :
    (limbMulExtendedSigned k a b).toInt = a.toInt * b.toInt := by
  have hp : (limbMulExtended k (limbAbs k a) (limbAbs k b)).toNat = a.toInt.natAbs * b.toInt.natAbs := by
    rw [limbMulExtended_toNat, limbAbs_toNat, limbAbs_toNat]
  have hbound : 2 * (limbMulExtended k (limbAbs k a) (limbAbs k b)).toNat < 2 ^ limbBits (k + 1) := by
    have hprod := Nat.mul_le_mul (two_mul_limbAbs_le a) (two_mul_limbAbs_le b)
    have hpos := Nat.two_pow_pos (limbBits (k + 1))
    rw [limbMulExtended_toNat]
    rw [← two_pow_limbBits_succ, mul_mul_mul_comm] at hprod
    omega
  have hint : (limbMulExtended k (limbAbs k a) (limbAbs k b)).toInt = (a.toInt.natAbs * b.toInt.natAbs : Nat) := by
    rw [BitVec.toInt_eq_toNat_of_lt hbound, hp]
  rw [limbMulExtendedSigned, limbSignsDiffer_eq, mul_eq_sign_magnitudes]
  split
  · have hne : limbMulExtended k (limbAbs k a) (limbAbs k b) ≠ BitVec.intMin _ := by
      intro hmin
      have hmsb := BitVec.msb_eq_toInt (x := limbMulExtended k (limbAbs k a) (limbAbs k b))
      rw [hint, hmin, BitVec.msb_intMin, decide_eq_true (limbBits_pos _), eq_comm, decide_eq_true_iff] at hmsb
      omega
    rw [limbNeg_eq, negMod_eq_neg, BitVec.toInt_neg_of_ne_intMin hne, hint]
  · exact hint

/-! ### Divider (R138) -/

theorem restoringDivide_eq {d : Nat} (hd : 0 < d) (n a : Nat) (ha : a < 2 ^ n) : restoringDivide n a d = (a / d, a % d) := by
  induction n generalizing a with
  | zero =>
    obtain rfl : a = 0 := by simpa using ha
    simp [restoringDivide]
  | succ n ih =>
    rw [restoringDivide, ih (a / 2) (by rw [pow_succ] at ha; omega)]
    have hsplit := Nat.div_add_mod (a / 2) d
    have hrest := Nat.mod_lt (a / 2) hd
    have hbit := Nat.div_add_mod a 2
    generalize a / 2 / d = q at hsplit ⊢
    generalize a / 2 % d = r at hsplit hrest ⊢
    have hvalue : 2 * r + a % 2 + d * (2 * q) = a := by
      rw [← hsplit] at hbit
      linear_combination hbit
    dsimp only
    split
    next hfits =>
      obtain ⟨hq, hr⟩ := (Nat.div_mod_unique (a := a) (c := 2 * r + a % 2 - d) (d := 2 * q + 1) hd).2
        ⟨by rw [Nat.mul_succ, ← hvalue]; omega, by omega⟩
      rw [hq, hr]
    next hless =>
      obtain ⟨hq, hr⟩ := (Nat.div_mod_unique (a := a) (c := 2 * r + a % 2) (d := 2 * q) hd).2 ⟨hvalue, by omega⟩
      rw [hq, hr]

theorem pattern_natCast (n v : Nat) : pattern n (v : Int) = BitVec.ofNat n v :=
  BitVec.eq_of_toNat_eq (by rw [pattern_natCast_toNat, BitVec.toNat_ofNat])

theorem pattern_neg (n : Nat) (v : Int) : pattern n (-v) = -pattern n v := BitVec.ofInt_neg

/-- A truncated remainder is the remainder of the magnitudes with the sign of the dividend. -/
theorem tmod_eq_sign_magnitudes (x y : Int) :
    Int.tmod x y = if x < 0 then -((x.natAbs % y.natAbs : Nat) : Int) else (x.natAbs % y.natAbs : Nat) := by
  rw [← Int.natAbs_tmod]
  split
  next hneg =>
    have hnonneg := Int.tmod_nonneg y (neg_nonneg.2 hneg.le)
    rw [Int.neg_tmod] at hnonneg
    omega
  next hnonneg =>
    have := Int.tmod_nonneg y (not_lt.1 hnonneg)
    omega

section
variable {k : Nat} {b : BitVec (limbBits k)}

theorem limbQuotient_eq (g : Sgn) (a : BitVec (limbBits k)) (hb : b ≠ 0) :
    limbQuotient k g a b = pattern (limbBits k) (quotient g a b) := by
  cases g with
  | unsigned =>
    have hpos : 0 < uval b := Nat.pos_of_ne_zero fun h0 => hb (BitVec.eq_of_toNat_eq (h0.trans BitVec.toNat_zero.symm))
    simp only [limbQuotient, quotient, restoringDivide_eq hpos _ _ (uval_lt a), pattern_natCast]
  | signed =>
    have hpos : 0 < b.toInt.natAbs := Int.natAbs_pos.2 fun h0 => hb (BitVec.toInt_inj.1 (h0.trans BitVec.toInt_zero.symm))
    have hlt : a.toInt.natAbs < 2 ^ limbBits k := limbAbs_toNat a ▸ (limbAbs k a).isLt
    simp only [limbQuotient, quotient, uval, limbAbs_toNat, limbSignsDiffer_eq, sval_eq_toInt, restoringDivide_eq hpos _ _ hlt,
      limbNeg_eq, negMod_eq_neg, ← pattern_natCast, ← pattern_neg, apply_ite (pattern (limbBits k))]

theorem limbRemainder_eq (g : Sgn) (a : BitVec (limbBits k)) (hb : b ≠ 0) :
    limbRemainder k g a b = pattern (limbBits k) (remainder g a b) := by
  rw [remainder_eq_tmod]
  cases g with
  | unsigned =>
    have hpos : 0 < uval b := Nat.pos_of_ne_zero fun h0 => hb (BitVec.eq_of_toNat_eq (h0.trans BitVec.toNat_zero.symm))
    simp only [limbRemainder, ival, restoringDivide_eq hpos _ _ (uval_lt a), ← pattern_natCast]
    rfl
  | signed =>
    have hpos : 0 < b.toInt.natAbs := Int.natAbs_pos.2 fun h0 => hb (BitVec.toInt_inj.1 (h0.trans BitVec.toInt_zero.symm))
    have hlt : a.toInt.natAbs < 2 ^ limbBits k := limbAbs_toNat a ▸ (limbAbs k a).isLt
    simp only [limbRemainder, ival, uval, limbAbs_toNat, signBit_eq_neg, sval_eq_toInt, restoringDivide_eq hpos _ _ hlt,
      limbNeg_eq, negMod_eq_neg, ← pattern_natCast, ← pattern_neg, apply_ite (pattern (limbBits k)), tmod_eq_sign_magnitudes,
      decide_eq_true_iff]

end

/-! ### Shifter (R164) -/

section
variable {n : Nat} (a : BitVec n) (m : Nat)

theorem shiftLeft_eq_shl : shiftLeft a m = a <<< m := by
  rw [← BitVec.toNat_inj, shiftLeft_toNat, BitVec.toNat_shiftLeft, Nat.shiftLeft_eq, uval]

theorem shiftRight_unsigned_eq_ushr : shiftRight .unsigned a m = a >>> m := by
  have hcast : (uval a : Int) / 2 ^ m = ((uval a / 2 ^ m : Nat) : Int) := by rw [Int.natCast_div, two_pow_cast]
  rw [shiftRight, ival, hcast, ← BitVec.toNat_inj, pattern_natCast_toNat, BitVec.toNat_ushiftRight, Nat.shiftRight_eq_div_pow]
  exact Nat.mod_eq_of_lt ((Nat.div_le_self _ _).trans_lt a.isLt)

theorem shiftRight_signed_eq_sshr : shiftRight .signed a m = a.sshiftRight m := by
  rw [shiftRight, ival, sval_eq_toInt, pattern, BitVec.sshiftRight, Int.shiftRight_eq_div_pow, two_pow_cast]

end

section
variable {h : Nat} (hi lo x y : BitVec h) {z : BitVec (h + h)} (m : Nat) {i : Nat}

theorem append_getLsbD_low (hlt : i < h) : (hi ++ lo).getLsbD i = lo.getLsbD i := by
  rw [BitVec.getLsbD_append, if_pos hlt]

theorem append_getLsbD_high : (hi ++ lo).getLsbD (h + i) = hi.getLsbD i := by
  rw [BitVec.getLsbD_append, if_neg (by omega), Nat.add_sub_cancel_left]

/-- Two limbs are a pattern when they have the bits of its two halves. -/
theorem append_eq_of_halves (hlow : ∀ i < h, y.getLsbD i = z.getLsbD i) (hhigh : ∀ i < h, x.getLsbD i = z.getLsbD (h + i)) :
    x ++ y = z := by
  apply BitVec.eq_of_getLsbD_eq
  intro i hi
  by_cases hlt : i < h
  · rw [append_getLsbD_low _ _ hlt, hlow i hlt]
  · obtain ⟨j, rfl⟩ := Nat.exists_eq_add_of_le (not_lt.1 hlt)
    rw [append_getLsbD_high, hhigh j (by omega)]

theorem limbShiftLeft_eq : (limbShiftLeft hi lo m).1 ++ (limbShiftLeft hi lo m).2 = (hi ++ lo) <<< m := by
  unfold limbShiftLeft
  split
  next hle =>
    refine append_eq_of_halves _ _ (fun i hlt => ?_) fun i hlt => ?_
    · simp [show i < m by omega]
    · by_cases him : h + i < m
      · simp [him, show i < m - h by omega]
      · have hindex : h + i - m = i - (m - h) := by omega
        simp [-BitVec.getLsbD_eq_getElem, him, hlt, show ¬ i < m - h by omega, hindex,
          append_getLsbD_low _ _ (show i - (m - h) < h by omega)]
  next hless =>
    refine append_eq_of_halves _ _ (fun i hlt => ?_) fun i hlt => ?_
    · simp [-BitVec.getLsbD_eq_getElem, hlt, show i < h + h by omega,
          append_getLsbD_low _ _ (show i - m < h by omega)]
    · by_cases him : i < m
      · have hindex : h + i - m = h - m + i := by omega
        simp [-BitVec.getLsbD_eq_getElem, him, hlt, show ¬ h + i < m by omega, hindex,
          append_getLsbD_low _ _ (show h - m + i < h by omega)]
      · have hindex : h + i - m = h + (i - m) := by omega
        simp [-BitVec.getLsbD_eq_getElem, him, hlt, show ¬ h + i < m by omega, hindex,
          append_getLsbD_high, BitVec.getLsbD_of_ge lo (h - m + i) (by omega)]

theorem limbShiftRightU_eq : (limbShiftRightU hi lo m).1 ++ (limbShiftRightU hi lo m).2 = (hi ++ lo) >>> m := by
  unfold limbShiftRightU
  split
  next hle =>
    have hindex : ∀ i, m + i = h + (m - h + i) := fun i => by omega
    refine append_eq_of_halves _ _ (fun i hlt => ?_) fun i hlt => ?_
    · simp [hindex, append_getLsbD_high]
    · simp [hindex, append_getLsbD_high, BitVec.getLsbD_of_ge hi (m - h + (h + i)) (by omega)]
  next hless =>
    have hindex : ∀ i, m + (h + i) = h + (m + i) := fun i => by omega
    refine append_eq_of_halves _ _ (fun i hlt => ?_) fun i hlt => ?_
    · by_cases him : m + i < h
      · simp [append_getLsbD_low _ _ him, show i < h - m by omega]
      · have hindex' : m + i = h + (i - (h - m)) := by omega
        simp [-BitVec.getLsbD_eq_getElem, hindex', append_getLsbD_high, hlt, show ¬ i < h - m by omega]
    · simp [hindex, append_getLsbD_high]

theorem limbShiftRightS_eq (hm : m < h + h) :
    (limbShiftRightS hi lo m).1 ++ (limbShiftRightS hi lo m).2 = (hi ++ lo).sshiftRight m := by
  have hmsb : (hi ++ lo).msb = hi.msb := by rw [BitVec.msb_append, if_neg (by omega)]
  unfold limbShiftRightS
  rw [← BitVec.msb_eq_getLsbD_last]
  split
  next hle =>
    refine append_eq_of_halves _ _ (fun i hlt => ?_) fun i hlt => ?_
    · have hindex : m + i = h + (m - h + i) := by omega
      simp [-BitVec.getLsbD_eq_getElem, BitVec.getLsbD_sshiftRight, hmsb, hindex, append_getLsbD_high, show ¬ h ≤ i by omega,
        show ¬ h + h ≤ i by omega]
    · simp [-BitVec.getLsbD_eq_getElem, BitVec.getLsbD_sshiftRight, hmsb, show ¬ m + (h + i) < h + h by omega]
      cases hi.msb <;> simp [hlt]
  next hless =>
    refine append_eq_of_halves _ _ (fun i hlt => ?_) fun i hlt => ?_
    · by_cases him : m + i < h
      · simp [-BitVec.getLsbD_eq_getElem, BitVec.getLsbD_sshiftRight, append_getLsbD_low _ _ him, show i < h - m by omega,
          show m + i < h + h by omega, show ¬ h + h ≤ i by omega]
      · have hindex : m + i = h + (i - (h - m)) := by omega
        simp [-BitVec.getLsbD_eq_getElem, BitVec.getLsbD_sshiftRight, hindex, append_getLsbD_high, hlt, show ¬ i < h - m by omega,
          show i - (h - m) < h by omega, show ¬ h + h ≤ i by omega]
    · have hindex : m + (h + i) = h + (m + i) := by omega
      simp [-BitVec.getLsbD_eq_getElem, BitVec.getLsbD_sshiftRight, hmsb, hindex, append_getLsbD_high, show ¬ h ≤ i by omega]

end

/-! ### Comparator (R188) -/

theorem ival_injective {n : Nat} (g : Sgn) {a b : BitVec n} (h : ival g a = ival g b) : a = b := by
  cases g with
  | unsigned => exact BitVec.eq_of_toNat_eq (Int.ofNat.inj h)
  | signed => exact BitVec.toInt_inj.1 (by rwa [← sval_eq_toInt, ← sval_eq_toInt])

/-- A value is the upper limb, read with the type's signedness, with the unsigned lower limb below it. -/
theorem ival_eq_limbs {k : Nat} (g : Sgn) (a : BitVec (limbBits (k + 1))) :
    ival g a = 2 ^ limbBits k * ival g (limbHi a) + uval (limbLo a) := by
  cases g with
  | unsigned =>
    rw [ival, ival, uval, uval, uval, toNat_eq_limbs a, two_pow_cast]
    push_cast
    ring
  | signed =>
    have hjoin : a = limbJoin (limbHi a) (limbLo a) := BitVec.eq_of_toNat_eq (by rw [limbJoin_toNat, ← toNat_eq_limbs])
    rw [ival, ival, sval_eq_toInt, sval_eq_toInt, uval]
    conv_lhs => rw [hjoin, limbJoin]
    refine BitVec.toInt_append.trans ?_
    simp [(limbBits_pos k).ne']

/-- Unequal upper limbs decide a comparison; below equal ones the lower limbs do. -/
theorem ival_lt_iff_limbs {k : Nat} (g : Sgn) (a b : BitVec (limbBits (k + 1))) :
    ival g a < ival g b ↔
      if limbHi a = limbHi b then uval (limbLo a) < uval (limbLo b) else ival g (limbHi a) < ival g (limbHi b) := by
  rw [ival_eq_limbs g a, ival_eq_limbs g b]
  split
  next heq => rw [heq]; omega
  next hne =>
    have hval : ival g (limbHi a) ≠ ival g (limbHi b) := fun h => hne (ival_injective g h)
    have ha : (uval (limbLo a) : Int) < 2 ^ limbBits k := by exact_mod_cast uval_lt (limbLo a)
    have hb : (uval (limbLo b) : Int) < 2 ^ limbBits k := by exact_mod_cast uval_lt (limbLo b)
    generalize ival g (limbHi a) = x at hval ⊢
    generalize ival g (limbHi b) = y at hval ⊢
    generalize (2 : Int) ^ limbBits k = m at ha hb ⊢
    constructor
    · intro h
      by_contra hge
      nlinarith [show x - 1 ≥ y by omega]
    · intro h
      nlinarith [show x + 1 ≤ y by omega]

theorem limbLtU_eq (k : Nat) (a b : BitVec (limbBits k)) : limbLtU k a b = intLt .unsigned a b := by
  induction k with
  | zero => rfl
  | succ k ih =>
    rw [limbLtU, ih, ih, Bool.eq_iff_iff, intLt_iff, ival_lt_iff_limbs]
    split
    · rw [intLt_iff, ival, ival, Nat.cast_lt]
    · rw [intLt_iff]

theorem limbLtS_eq (k : Nat) (a b : BitVec (limbBits k)) : limbLtS k a b = intLt .signed a b := by
  induction k with
  | zero => rfl
  | succ k ih =>
    rw [limbLtS, ih, limbLtU_eq, Bool.eq_iff_iff, intLt_iff, ival_lt_iff_limbs]
    split
    · rw [intLt_iff, ival, ival, Nat.cast_lt]
    · rw [intLt_iff]

/-! ### The obligations -/

/-- Settles O25: by induction on the depth, the carry or borrow of the lower limb going into the upper one. -/
theorem limbAdderIsWholeValue : Obligations.LimbAdderIsWholeValue := by
  unfold Obligations.LimbAdderIsWholeValue
  exact fun k a b c => ⟨limbAddCarry_eq k a b c, limbSubBorrow_eq k a b c, limbAdd_eq k a b, limbSub_eq k a b, limbNeg_eq k a,
    limbNonzero_eq k a⟩

/-- Settles O26: the four half-products by induction on the depth, the signed product by its sign and magnitudes. -/
theorem limbMultiplierIsWholeValue : Obligations.LimbMultiplierIsWholeValue := by
  unfold Obligations.LimbMultiplierIsWholeValue
  exact fun k a b => ⟨limbMulExtended_toNat k a b, limbMulExtendedSigned_toInt k a b, limbMul_eq k a b⟩

/-- Settles O27: restoring division by induction on the number of bits, the signed results by their signs and magnitudes. -/
theorem restoringDivisionIsExact : Obligations.RestoringDivisionIsExact := by
  unfold Obligations.RestoringDivisionIsExact
  exact ⟨fun n a d hd ha => restoringDivide_eq hd n a ha, fun k g a b hb => ⟨limbQuotient_eq g a hb, limbRemainder_eq g a hb⟩⟩

/-- Settles O28: the shifts are the library's, and each limb of the result has the bits of its half. -/
theorem limbShifterIsWholeValue : Obligations.LimbShifterIsWholeValue := by
  unfold Obligations.LimbShifterIsWholeValue
  intro h hi lo n hn
  rw [shiftLeft_eq_shl, shiftRight_unsigned_eq_ushr, shiftRight_signed_eq_sshr]
  exact ⟨limbShiftLeft_eq hi lo n, limbShiftRightU_eq hi lo n, limbShiftRightS_eq hi lo n hn⟩

/-- Settles O29: by induction on the depth, the upper limbs deciding unless they are equal. -/
theorem limbComparatorIsWholeValue : Obligations.LimbComparatorIsWholeValue := by
  unfold Obligations.LimbComparatorIsWholeValue
  exact fun k a b => ⟨limbLtU_eq k a b, limbLtS_eq k a b⟩

end Sys2Proof.WideInt
end

section
/-! The requesters' side (10_state.md R30, R43; 20_memory.md R61, R66; 60_exceptions.md R361, R362): what performing a request can
do, that its response is a function of the request and the build, runs of requests by induction, and the byte view. -/

namespace Sys2Proof.Requesters

open Sys2Proof.Machine Sys2Proof.Safety Sys2Proof.CoreStep

/-! ### Performing one request (R31, R43) -/

/-- The input ports of a request that is not turned away. -/
def presented (r : Request) (s : State) : State :=
  { s with opw := r.opw, a := r.a.getD s.a, b := r.b.getD s.b, cin := r.cin.getD s.cin }

theorem perform_of_readsUnassigned {r : Request} (h : readsUnassigned r = true) (s : State) :
    perform r s = .refused .indeterminateOperand := by
  simp only [perform, present, h, if_true]

theorem perform_of_not_readsUnassigned {r : Request} (h : readsUnassigned r = false) (s : State) :
    perform r s = step (presented r s) := by
  simp only [perform, present, h, Bool.false_eq_true, if_false]
  rfl

/-- Everything a request can do: it is turned away, or answered by a CORE of the same build. -/
theorem perform_cases (r : Request) (s : State) :
    readsUnassigned r = true ∧ perform r s = .refused .indeterminateOperand ∨
      readsUnassigned r = false ∧ ∃ t, perform r s = .next t ∧ t.cfg = s.cfg := by
  cases h : readsUnassigned r with
  | true => exact .inl ⟨rfl, perform_of_readsUnassigned h s⟩
  | false =>
    obtain ⟨t, hnext, -, -, -, -, hcfg⟩ := step_next_sameInputs (presented r s)
    exact .inr ⟨rfl, t, (perform_of_not_readsUnassigned h s).trans hnext, hcfg⟩

theorem readsUnassigned_iff (r : Request) :
    readsUnassigned r = true ↔
      ∃ i, decode r.opw = .ok i ∧
        ((portUse i).aBits ≠ 0 ∧ r.a = none ∨ (portUse i).bBits ≠ 0 ∧ r.b = none ∨ (portUse i).cin = true ∧ r.cin = none) := by
  unfold readsUnassigned
  cases decode r.opw with
  | error e => simp
  | ok i => simp [Nat.pos_iff_ne_zero, or_assoc]

/-! ### The response is a function of the request and the build (R30, R66) -/

theorem responseOf_step_presented {r : Request} (h : readsUnassigned r = false) {s t : State} (hcfg : s.cfg = t.cfg) :
    responseOf (step (presented r s)) = responseOf (step (presented r t)) := by
  cases hdecode : decode r.opw with
  | error e => rw [step_of_decode_error (s := presented r s) hdecode, step_of_decode_error (s := presented r t) hdecode]; rfl
  | ok i =>
    rw [← Bool.not_eq_true, readsUnassigned_iff] at h
    have hread : ¬ ((portUse i).aBits ≠ 0 ∧ r.a = none) ∧ ¬ ((portUse i).bBits ≠ 0 ∧ r.b = none) ∧
        ¬ ((portUse i).cin = true ∧ r.cin = none) := by
      refine ⟨fun ha => h ⟨i, hdecode, .inl ha⟩, fun hb => h ⟨i, hdecode, .inr (.inl hb)⟩, fun hc => h ⟨i, hdecode, .inr (.inr hc)⟩⟩
    obtain ⟨hA, hB, hC⟩ := hread
    rw [step_of_decode_ok (s := presented r s) hdecode, step_of_decode_ok (s := presented r t) hdecode]
    refine exec_congr i (operandA_congr ?_) (operandB_congr ?_) (fun hcin => ?_) fun _ => hcfg
    · cases ha : r.a with
      | none =>
        have hbits : (portUse i).aBits = 0 := by_contra fun hne => hA ⟨hne, ha⟩
        rw [hbits, pow_zero, Nat.mod_one, Nat.mod_one]
      | some v => simp [presented, ha]
    · cases hb : r.b with
      | none =>
        have hbits : (portUse i).bBits = 0 := by_contra fun hne => hB ⟨hne, hb⟩
        rw [hbits, pow_zero, Nat.mod_one, Nat.mod_one]
      | some v => simp [presented, hb]
    · cases hc : r.cin with
      | none => exact absurd ⟨hcin, hc⟩ hC
      | some v => simp [presented, hc]

theorem respond_eq_responseOf (c : Config) (r : Request) : respond c r = responseOf (perform r (State.resetOf c)) := by
  unfold respond
  cases perform r (State.resetOf c) <;> rfl

/-- Wherever a request is performed, the response is the one after reset of the same build. -/
theorem respond_eq {r : Request} {s t : State} (hnext : perform r s = .next t) : respond s.cfg r = some t.response := by
  obtain ⟨-, hrefused⟩ | ⟨hread, -⟩ := perform_cases r s
  · cases hrefused.symm.trans hnext
  · rw [respond_eq_responseOf, perform_of_not_readsUnassigned hread, responseOf_step_presented hread (resetOf_cfg s.cfg),
      ← perform_of_not_readsUnassigned hread, hnext]
    rfl

theorem respond_of_readsUnassigned {r : Request} (h : readsUnassigned r = true) (c : Config) : respond c r = none := by
  rw [respond_eq_responseOf, perform_of_readsUnassigned h]
  rfl

/-! ### Lists of requests -/

theorem serve_eq_map_respond (rs : List Request) (s : State) : serve rs s = rs.map (respond s.cfg) := by
  induction rs generalizing s with
  | nil => rfl
  | cons r rs ih =>
    obtain ⟨hread, hrefused⟩ | ⟨-, t, hnext, hcfg⟩ := perform_cases r s
    · simp only [serve, hrefused, ih, List.map_cons, respond_of_readsUnassigned hread]
    · simp only [serve, hnext, ih, List.map_cons, respond_eq hnext, hcfg]

theorem session_completes_iff (rs : List Request) (s : State) :
    (∃ t, session rs s = .next t) ↔ ∀ o ∈ serve rs s, ∃ r, o = some r ∧ r.fault = 0 := by
  induction rs generalizing s with
  | nil => simp [session, serve]
  | cons r rs ih =>
    obtain ⟨-, hrefused⟩ | ⟨-, t, hnext, -⟩ := perform_cases r s
    · simp [session, serve, hrefused]
    · have hserve : serve (r :: rs) s = some t.response :: serve rs t := by simp only [serve, hnext]
      rw [hserve, List.forall_mem_cons]
      by_cases hfault : t.fault = 0
      · have hgo : session (r :: rs) s = session rs t := by
          simp only [session, hnext]
          exact if_pos hfault
        rw [hgo, ih]
        exact (and_iff_right ⟨_, rfl, hfault⟩).symm
      · have hstop : session (r :: rs) s = .fault (.requestFaulted t.fault) := by
          simp only [session, hnext]
          exact if_neg hfault
        refine iff_of_false (fun ⟨u, hu⟩ => ?_) fun ⟨⟨q, hq, hzero⟩, _⟩ => ?_
        · cases hstop.symm.trans hu
        · cases hq
          exact hfault hzero

/-! ### The byte view (20_memory.md R61) -/

theorem bytesOf_getElem? {n k : Nat} (hk : k < n) (x : Port) : (bytesOf n x)[k]? = some (x.extractLsb' (8 * k) 8) := by
  rw [bytesOf, List.getElem?_map, List.getElem?_range hk, Option.map_some]

theorem byte_toNat (x : Port) (k : Nat) : (x.extractLsb' (8 * k) 8).toNat = x.toNat / 2 ^ (8 * k) % 2 ^ 8 := by
  rw [BitVec.extractLsb'_toNat, Nat.shiftRight_eq_div_pow]

theorem bytesOf_succ (n : Nat) (x : Port) : bytesOf (n + 1) x = bytesOf n x ++ [x.extractLsb' (8 * n) 8] := by
  simp only [bytesOf, List.range_succ, List.map_append, List.map_cons, List.map_nil]

theorem bytesOf_length (n : Nat) (x : Port) : (bytesOf n x).length = n := by simp [bytesOf]

theorem ofBytes_append (l : List (BitVec 8)) (b : BitVec 8) : ofBytes (l ++ [b]) = ofBytes l + 2 ^ (8 * l.length) * b.toNat := by
  induction l with
  | nil => simp [ofBytes]
  | cons c l ih =>
    rw [List.cons_append, ofBytes, ih, ofBytes, List.length_cons, Nat.mul_succ, pow_add]
    ring

theorem ofBytes_bytesOf (n : Nat) (x : Port) : ofBytes (bytesOf n x) = x.toNat % 2 ^ (8 * n) := by
  induction n with
  | zero => simp [bytesOf, ofBytes, Nat.mod_one]
  | succ n ih => rw [bytesOf_succ, ofBytes_append, ih, bytesOf_length, byte_toNat, Nat.mul_succ, pow_add, Nat.mod_mul]

/-! ### The obligations -/

/-- Settles O57: by induction on the list, each response being the one after reset (`respond_eq`). -/
theorem responsesAreIndependentOfOrder : Obligations.ResponsesAreIndependentOfOrder := by
  unfold Obligations.ResponsesAreIndependentOfOrder
  exact serve_eq_map_respond

/-- Settles O58: by induction on the list, a refused or faulting request ending the session where its response stands. -/
theorem faultIsTerminalForItsRequester : Obligations.FaultIsTerminalForItsRequester := by
  unfold Obligations.FaultIsTerminalForItsRequester
  exact session_completes_iff

/-- Settles O59: a step never refuses, so a refusal is the test of `present`. -/
theorem indeterminateOperandIsRefused : Obligations.IndeterminateOperandIsRefused := by
  unfold Obligations.IndeterminateOperandIsRefused
  intro r s
  rw [← readsUnassigned_iff]
  obtain ⟨hread, hrefused⟩ | ⟨hread, t, hnext, -⟩ := perform_cases r s
  · simp [hread, hrefused]
  · simp [hread, hnext]

/-- Settles O60: the value by induction on the number of bytes, the last byte being the highest. -/
theorem byteViewIsLittleEndian : Obligations.ByteViewIsLittleEndian := by
  unfold Obligations.ByteViewIsLittleEndian
  intro n x _
  refine ⟨fun k hk => ?_, ofBytes_bytesOf n x⟩
  rw [bytesOf_getElem? hk, Option.map_some, byte_toNat]

end Sys2Proof.Requesters
end

section
/-! Exact rounding over the rationals (43_fp_datapath.md R5, R210 to R212): round to nearest even as an order of integers, what
RoundPack answers below and above the overflow threshold, and that no value is nearer. -/

namespace Sys2Proof.FpRounding

open Sys2Proof.Machine Sys2Proof.Safety Sys2Proof.FpDatapath Sys2Proof.FpAddSub Sys2Proof.FpMul

/-! ### Round to nearest even (R210) -/

section
variable (q : ℚ) {n : Int}

/-- The two cases of R210, with the even one at a tie. -/
theorem rne_cases : (Exact.rne q = ⌊q⌋ ∧ (Int.fract q < 1 / 2 ∨ Int.fract q = 1 / 2 ∧ ⌊q⌋ % 2 = 0)) ∨
    (Exact.rne q = ⌊q⌋ + 1 ∧ (1 / 2 < Int.fract q ∨ Int.fract q = 1 / 2 ∧ ⌊q⌋ % 2 = 1)) := by
  unfold Exact.rne
  split
  next hup => exact .inr ⟨rfl, hup⟩
  next hdown =>
    rw [not_or, not_and, not_lt] at hdown
    refine .inl ⟨rfl, hdown.1.lt_or_eq.imp_right fun htie => ⟨htie, ?_⟩⟩
    have := hdown.2 htie
    omega

theorem abs_rne_sub_le : |(Exact.rne q : ℚ) - q| ≤ 1 / 2 := by
  have hq := Int.floor_add_fract q
  have h0 := Int.fract_nonneg q
  have h1 := Int.fract_lt_one q
  rw [abs_le]
  obtain ⟨hr, h | ⟨h, -⟩⟩ | ⟨hr, h | ⟨h, -⟩⟩ := rne_cases q <;> rw [hr] <;> push_cast <;> constructor <;> linarith

/-- At a tie the even neighbour is taken. -/
theorem rne_even_of_tie (h : |(Exact.rne q : ℚ) - q| = 1 / 2) : Exact.rne q % 2 = 0 := by
  have hq := Int.floor_add_fract q
  have h0 := Int.fract_nonneg q
  have h1 := Int.fract_lt_one q
  obtain ⟨hr, hcase⟩ | ⟨hr, hcase⟩ := rne_cases q
  · rw [hr, abs_sub_comm, abs_of_nonneg (by linarith)] at h
    obtain hlt | ⟨-, heven⟩ := hcase
    · linarith
    · rwa [hr]
  · rw [hr] at h
    push_cast at h
    rw [abs_of_nonneg (by linarith)] at h
    obtain hlt | ⟨-, hodd⟩ := hcase
    · linarith
    · omega

/-- No integer is nearer than the rounded one. -/
theorem abs_rne_sub_le_abs_sub (n : Int) : |(Exact.rne q : ℚ) - q| ≤ |n - q| := by
  by_cases hn : n = Exact.rne q
  · rw [hn]
  · have hone : (1 : ℚ) ≤ |(n : ℚ) - Exact.rne q| := by exact_mod_cast Int.one_le_abs (sub_ne_zero.2 hn)
    have htri := abs_sub_le (n : ℚ) q (Exact.rne q)
    have hhalf := abs_rne_sub_le q
    rw [abs_sub_comm q] at htri
    linarith

/-- An even integer is reached from half a unit below it on. -/
theorem le_rne_iff (hn : n % 2 = 0) : n ≤ Exact.rne q ↔ (n : ℚ) - 1 / 2 ≤ q := by
  obtain ⟨hlow, hhigh⟩ := abs_le.1 (abs_rne_sub_le q)
  constructor
  · intro h
    have : (n : ℚ) ≤ Exact.rne q := by exact_mod_cast h
    linarith
  · intro h
    by_contra hlt
    have hbelow : (Exact.rne q : ℚ) ≤ n - 1 := by exact_mod_cast Int.le_sub_one_of_lt (not_le.1 hlt)
    have heq : (Exact.rne q : ℚ) = n - 1 := by linarith
    have htie := rne_even_of_tie q (by rw [abs_sub_comm, abs_of_nonneg (by linarith)]; linarith)
    have : Exact.rne q = n - 1 := by exact_mod_cast heq
    omega

/-- An even integer is not passed up to half a unit above it. -/
theorem rne_le_iff (hn : n % 2 = 0) : Exact.rne q ≤ n ↔ q ≤ n + 1 / 2 := by
  obtain ⟨hlow, hhigh⟩ := abs_le.1 (abs_rne_sub_le q)
  constructor
  · intro h
    have : (Exact.rne q : ℚ) ≤ n := by exact_mod_cast h
    linarith
  · intro h
    by_contra hlt
    have habove : (n : ℚ) + 1 ≤ Exact.rne q := by exact_mod_cast Int.add_one_le_of_lt (not_le.1 hlt)
    have heq : (Exact.rne q : ℚ) = n + 1 := by linarith
    have htie := rne_even_of_tie q (by rw [abs_of_nonneg (by linarith)]; linarith)
    have : Exact.rne q = n + 1 := by exact_mod_cast heq
    omega

theorem rne_intCast (n : Int) : Exact.rne n = n := by
  simp [Exact.rne]

end

/-! ### The unit in the last place and the rounded significand (R211) -/

/-- The exponent of the unit in the last place of a rounded magnitude. -/
def ulpExp (f : Fmt) (v : ℚ) : Int := max (Int.log 2 v) f.emin - f.S

/-- The magnitude in units of the last place, rounded. -/
def roundedSig (f : Fmt) (v : ℚ) : Nat := (Exact.rne (v / 2 ^ ulpExp f v)).toNat

section
variable (f : Fmt) {v : ℚ}

theorem emin_le_ulpExp_add (v : ℚ) : f.emin ≤ ulpExp f v + f.S := by
  rw [ulpExp, sub_add_cancel]
  exact le_max_right ..

theorem lt_two_pow_ulpExp (v : ℚ) : v < 2 ^ (ulpExp f v + (f.S + 1 : Nat)) := by
  have hlog := Int.lt_zpow_succ_log_self (b := 2) one_lt_two v
  refine hlog.trans_le ?_
  rw [Nat.cast_ofNat]
  apply zpow_le_zpow_right₀ one_le_two
  rw [ulpExp]
  push_cast
  have := le_max_left (Int.log 2 v) f.emin
  omega

/-- A magnitude of at least 2^emin has S + 1 bits above its unit in the last place. -/
theorem two_pow_ulpExp_le (hv : 0 < v) (h : f.emin < ulpExp f v + f.S) : 2 ^ (ulpExp f v + f.S) ≤ v := by
  have hlog := Int.zpow_log_le_self (b := 2) one_lt_two hv
  rw [Nat.cast_ofNat] at hlog
  have : ulpExp f v + f.S = Int.log 2 v := by
    rw [ulpExp] at h ⊢
    omega
  rwa [this]

theorem roundedSig_cast (hv : 0 < v) : ((roundedSig f v : Nat) : Int) = Exact.rne (v / 2 ^ ulpExp f v) := by
  rw [roundedSig, Int.toNat_of_nonneg]
  exact rne_nonneg (div_nonneg hv.le (by positivity))

theorem roundedSig_le (hv : 0 < v) : roundedSig f v ≤ 2 ^ (f.S + 1) := by
  have hlt : v / 2 ^ ulpExp f v < ((2 ^ (f.S + 1) : Nat) : Int) := by
    rw [div_lt_iff₀ (by positivity)]
    refine (lt_two_pow_ulpExp f v).trans_eq ?_
    rw [zpow_add₀ two_ne_zero, mul_comm, zpow_natCast]
    push_cast
    rfl
  have := rne_le_of_lt hlt
  rw [← roundedSig_cast f hv] at this
  exact_mod_cast this

theorem two_pow_le_roundedSig (hv : 0 < v) (h : f.emin < ulpExp f v + f.S) : 2 ^ f.S ≤ roundedSig f v := by
  have hle : (((2 ^ f.S : Nat) : Int) : ℚ) ≤ v / 2 ^ ulpExp f v := by
    rw [le_div_iff₀ (by positivity)]
    refine Eq.trans_le ?_ (two_pow_ulpExp_le f hv h)
    rw [zpow_add₀ two_ne_zero, mul_comm, zpow_natCast]
    push_cast
    rfl
  have := le_rne_of_le hle
  rw [← roundedSig_cast f hv] at this
  exact_mod_cast this

/-- A whole number of units in the last place needs no rounding. -/
theorem roundedSig_of_whole (hv : 0 < v) {n : Nat} (h : v = n * 2 ^ ulpExp f v) : roundedSig f v = n := by
  have hdiv : v / 2 ^ ulpExp f v = ((n : Int) : ℚ) := by
    rw [div_eq_iff (by positivity)]
    exact_mod_cast h
  have hcast := roundedSig_cast f hv
  rw [hdiv, rne_intCast] at hcast
  exact_mod_cast hcast

end

/-! ### The value of an exponent field and a trailing significand (R203, R205) -/

/-- The magnitude that the fields `be` and `t` stand for. -/
def fieldValue (f : Fmt) (be t : Nat) : ℚ :=
  ((if be = 0 then t else 2 ^ f.S + t : Nat) : ℚ) * 2 ^ ((if be = 0 then f.emin else (be : Int) - f.B) - f.S)

theorem val_eq_fieldValue (f : Fmt) (x : Nat) :
    Exact.val f x = (-1) ^ Exact.sign f x * fieldValue f (Exact.biased f x) (Exact.trailing f x) := rfl

section
variable (f : Fmt) {be t : Nat}

theorem fieldValue_zero (t : Nat) : fieldValue f 0 t = t * 2 ^ (f.emin - f.S) := by simp [fieldValue]

theorem fieldValue_of_pos (hbe : be ≠ 0) (t : Nat) : fieldValue f be t = (2 ^ f.S + t) * 2 ^ ((be : Int) - f.B - f.S) := by
  simp [fieldValue, hbe]

theorem fieldValue_nonneg (be t : Nat) : 0 ≤ fieldValue f be t := by unfold fieldValue; positivity

theorem fieldValue_lt (ht : t < 2 ^ f.S) : fieldValue f be t < 2 ^ ((be : Int) + 1 - f.B) := by
  have ht' : (t : ℚ) < 2 ^ (f.S : Int) := by exact_mod_cast ht
  by_cases hbe : be = 0
  · subst hbe
    have hexp : ((0 : Nat) : Int) + 1 - f.B = f.S + (f.emin - f.S) := by rw [f.emin_eq]; push_cast; ring
    rw [fieldValue_zero, hexp, zpow_add₀ two_ne_zero]
    gcongr
  · have hexp : (be : Int) + 1 - f.B = (f.S + 1) + (be - f.B - f.S) := by ring
    rw [fieldValue_of_pos f hbe, hexp, zpow_add₀ two_ne_zero (f.S + 1 : Int)]
    gcongr
    rw [zpow_add_one₀ two_ne_zero, zpow_natCast] at *
    linarith

theorem le_fieldValue (hbe : be ≠ 0) (t : Nat) : 2 ^ ((be : Int) - f.B) ≤ fieldValue f be t := by
  have hexp : (be : Int) - f.B = f.S + (be - f.B - f.S) := by ring
  rw [fieldValue_of_pos f hbe, hexp, zpow_add₀ two_ne_zero, zpow_natCast, add_sub_cancel_left]
  gcongr
  simp

end

/-- The fields of a Normal's exponent and significand. -/
theorem normal_fields {f : Fmt} {e : Int} {m : Nat} (hemin : f.emin ≤ e) (hemax : e ≤ f.emax) (hlow : 2 ^ f.S ≤ m)
    (hhigh : m < 2 ^ (f.S + 1)) :
    (e + f.B).toNat < 2 ^ f.E - 1 ∧ m - 2 ^ f.S < 2 ^ f.S ∧
      fieldValue f (e + f.B).toNat (m - 2 ^ f.S) = m * 2 ^ (e - f.S) ∧ (m - 2 ^ f.S) % 2 = m % 2 := by
  rw [f.emin_eq] at hemin
  rw [f.emax_eq] at hemax
  have hB := f.two_B
  have heven : 2 ^ f.S % 2 = 0 := Nat.mod_eq_zero_of_dvd (dvd_pow_self 2 (by have := f.S_ge; omega))
  rw [pow_succ] at hhigh
  refine ⟨by omega, by omega, ?_, by omega⟩
  have hcast : (((e + f.B).toNat : Nat) : Int) - f.B - f.S = e - f.S := by omega
  rw [fieldValue_of_pos f (by omega), hcast, Nat.cast_sub hlow]
  push_cast
  ring

/-! ### What RoundPack answers (R211) -/

section
variable (f : Fmt) (s : Nat) {v : ℚ}

/-- How R211 packs a rounded significand: the carry into bit S + 1, the infinity, a Normal or a Subnormal. -/
def packRounded (e : Int) (n : Nat) : Nat :=
  let e2 := if n = 2 ^ (f.S + 1) then e + 1 else e
  let n' := if n = 2 ^ (f.S + 1) then 2 ^ f.S else n
  if f.emax < e2 then Exact.inf f s
  else if 2 ^ f.S ≤ n' then Exact.packed f s (e2 + f.B).toNat (n' - 2 ^ f.S)
  else Exact.packed f s 0 n'

theorem roundPack_eq_packRounded (v : ℚ) : Exact.roundPack f s v = packRounded f s (ulpExp f v + f.S) (roundedSig f v) := by
  rw [ulpExp, sub_add_cancel]
  rfl

theorem roundPack_cases (hv : 0 < v) :
    (Exact.roundPack f s v = Exact.inf f s ∧ 2 ^ (f.emax + 1) ≤ (roundedSig f v : ℚ) * 2 ^ ulpExp f v) ∨
    ∃ be t, Exact.roundPack f s v = Exact.packed f s be t ∧ be < 2 ^ f.E - 1 ∧ t < 2 ^ f.S ∧
      fieldValue f be t = roundedSig f v * 2 ^ ulpExp f v ∧ t % 2 = roundedSig f v % 2 := by
  have hle := roundedSig_le f hv
  have hnormal := two_pow_le_roundedSig f hv
  have hemin := emin_le_ulpExp_add f v
  rw [roundPack_eq_packRounded, packRounded]
  generalize roundedSig f v = n at *
  generalize ulpExp f v = k at *
  have hover : ∀ m : Nat, 2 ^ f.S ≤ m → ∀ e : Int, f.emax < e → (2 : ℚ) ^ (f.emax + 1) ≤ m * 2 ^ (e - f.S) := by
    intro m hm e he
    have hm' : (2 : ℚ) ^ (f.S : Int) ≤ m := by exact_mod_cast hm
    calc (2 : ℚ) ^ (f.emax + 1) ≤ 2 ^ (f.S + (e - f.S)) := zpow_le_zpow_right₀ one_le_two (by omega)
      _ = 2 ^ (f.S : Int) * 2 ^ (e - f.S) := zpow_add₀ two_ne_zero ..
      _ ≤ m * 2 ^ (e - f.S) := by gcongr
  by_cases hcarry : n = 2 ^ (f.S + 1)
  · have hvalue : (n : ℚ) * 2 ^ k = (2 ^ f.S : Nat) * 2 ^ (k + f.S + 1 - f.S) := by
      rw [hcarry, show k + f.S + 1 - f.S = k + 1 by ring, zpow_add_one₀ two_ne_zero]
      push_cast
      ring
    simp only [if_pos hcarry, le_refl, if_true]
    split
    next hgt => exact .inl ⟨rfl, hvalue ▸ hover _ le_rfl _ hgt⟩
    next hin =>
      obtain ⟨hbe, ht, hfield, hparity⟩ := normal_fields (f := f) (e := k + f.S + 1) (m := 2 ^ f.S) (by omega) (not_lt.1 hin) le_rfl
        (Nat.pow_lt_pow_succ one_lt_two)
      refine .inr ⟨_, _, rfl, hbe, ht, hfield.trans hvalue.symm, hparity.trans ?_⟩
      rw [hcarry, pow_succ, Nat.mul_mod_left, Nat.mod_eq_zero_of_dvd (dvd_pow_self 2 (by have := f.S_ge; omega))]
  · have hvalue : (n : ℚ) * 2 ^ k = n * 2 ^ (k + f.S - f.S) := by rw [add_sub_cancel_right]
    simp only [if_neg hcarry]
    split
    next hgt =>
      have hexp : f.emin < k + f.S := by
        have := f.S_succ_le_emax
        have := f.emin_eq
        have := f.B_pos
        omega
      exact .inl ⟨rfl, hvalue ▸ hover _ (hnormal hexp) _ hgt⟩
    next hin =>
      split
      next hlow =>
        obtain ⟨hbe, ht, hfield, hparity⟩ := normal_fields hemin (not_lt.1 hin) hlow (by omega)
        exact .inr ⟨_, _, rfl, hbe, ht, hfield.trans hvalue.symm, hparity⟩
      next hsub =>
        have hk : k = f.emin - f.S := by
          by_contra hne
          exact hsub (hnormal (by omega))
        have hmax := two_pow_E_pred_ne_zero f
        exact .inr ⟨0, n, rfl, by omega, by omega, by rw [fieldValue_zero, hk], rfl⟩

end

/-! ### Packed results (R201, R206) -/

section
variable {f : Fmt} {s be t : Nat}

theorem packed_fields (hs : s < 2) (hbe : be < 2 ^ f.E) (ht : t < 2 ^ f.S) :
    Exact.sign f (Exact.packed f s be t) = s ∧ Exact.biased f (Exact.packed f s be t) = be ∧
      Exact.trailing f (Exact.packed f s be t) = t := fields_of_parts f hs hbe ht

theorem val_packed (hs : s < 2) (hbe : be < 2 ^ f.E) (ht : t < 2 ^ f.S) :
    Exact.val f (Exact.packed f s be t) = (-1) ^ s * fieldValue f be t := by
  obtain ⟨hsign, hbiased, htrailing⟩ := packed_fields hs hbe ht
  rw [val_eq_fieldValue, hsign, hbiased, htrailing]

theorem packed_mod_two (s be t : Nat) : Exact.packed f s be t % 2 = t % 2 := by
  have hW : 2 ^ (f.W - 1) % 2 = 0 := Nat.mod_eq_zero_of_dvd (dvd_pow_self 2 (by have := f.W_ge; omega))
  have hS : 2 ^ f.S % 2 = 0 := Nat.mod_eq_zero_of_dvd (dvd_pow_self 2 (by have := f.S_ge; omega))
  rw [Exact.packed, Nat.add_mod, Nat.add_mod (s * _), Nat.mul_mod, Nat.mul_mod be, hW, hS]
  simp

theorem inf_eq_packed (f : Fmt) (s : Nat) : Exact.inf f s = Exact.packed f s (2 ^ f.E - 1) 0 := rfl

theorem zero_eq_packed (f : Fmt) (s : Nat) : Exact.zero f s = Exact.packed f s 0 0 := by simp [Exact.zero, Exact.packed]

theorem inf_fields (hs : s < 2) : Exact.sign f (Exact.inf f s) = s ∧ Exact.IsInf f (Exact.inf f s) := by
  obtain ⟨hsign, hfields⟩ := packed_fields (f := f) hs (Nat.sub_one_lt (Nat.two_pow_pos f.E).ne') (Nat.two_pow_pos f.S)
  exact ⟨hsign, hfields⟩

theorem zero_fields (hs : s < 2) : Exact.sign f (Exact.zero f s) = s ∧ Exact.IsZero f (Exact.zero f s) := by
  rw [zero_eq_packed]
  exact packed_fields hs (Nat.two_pow_pos f.E) (Nat.two_pow_pos f.S)

end

section
variable (f : Fmt) {s : Nat} {v : ℚ}

/-- Below the overflow threshold the result is the finite float whose magnitude is the rounded significand. -/
theorem roundPack_of_not_overflow (hs : s < 2) (hv : 0 < v) (hlt : (roundedSig f v : ℚ) * 2 ^ ulpExp f v < 2 ^ (f.emax + 1)) :
    Exact.IsFinite f (Exact.roundPack f s v) ∧ Exact.sign f (Exact.roundPack f s v) = s ∧
      Exact.val f (Exact.roundPack f s v) = (-1) ^ s * (roundedSig f v * 2 ^ ulpExp f v) ∧
      Exact.roundPack f s v % 2 = roundedSig f v % 2 := by
  obtain ⟨-, hover⟩ | ⟨be, t, hr, hbe, ht, hvalue, hparity⟩ := roundPack_cases f s hv
  · exact absurd hlt hover.not_gt
  · have hbe' : be < 2 ^ f.E := by omega
    obtain ⟨hsign, hbiased, -⟩ := packed_fields hs hbe' ht
    rw [hr, val_packed hs hbe' ht, packed_mod_two, hvalue, hparity, hsign, Exact.IsFinite, hbiased]
    exact ⟨hbe.ne, rfl, rfl, rfl⟩

theorem roundPack_eq_inf_iff_overflow (hs : s < 2) (hv : 0 < v) :
    Exact.roundPack f s v = Exact.inf f s ↔ 2 ^ (f.emax + 1) ≤ (roundedSig f v : ℚ) * 2 ^ ulpExp f v := by
  obtain ⟨hr, hover⟩ | ⟨be, t, -, hbe, ht, hvalue, -⟩ := roundPack_cases f s hv
  · exact iff_of_true hr hover
  · have hlt : (roundedSig f v : ℚ) * 2 ^ ulpExp f v < 2 ^ (f.emax + 1) := by
      rw [← hvalue]
      refine (fieldValue_lt f ht).trans_le (zpow_le_zpow_right₀ one_le_two ?_)
      have := f.two_B
      rw [f.emax_eq]
      omega
    refine iff_of_false (fun hinf => ?_) hlt.not_ge
    obtain ⟨hfinite, -⟩ := roundPack_of_not_overflow f hs hv hlt
    rw [hinf] at hfinite
    exact hfinite (inf_fields hs).2.1

/-! ### The thresholds (R212) -/

/-- The overflow threshold of R212, half a unit in the last place above the largest float. -/
def overflowThreshold (f : Fmt) : ℚ := (2 - 2 ^ (-(f.S : Int) - 1)) * 2 ^ f.emax

theorem overflowThreshold_eq : overflowThreshold f = ((2 ^ (f.S + 1) : Nat) - 1 / 2) * 2 ^ (f.emax - f.S) := by
  rw [overflowThreshold, zpow_sub₀ two_ne_zero (-(f.S : Int)), zpow_neg, zpow_one, zpow_sub₀ two_ne_zero f.emax, zpow_natCast]
  push_cast
  field_simp
  ring

theorem emin_lt_emax : f.emin < f.emax := by
  rw [f.emin_eq, f.emax_eq]
  have := f.S_succ_le_emax
  rw [f.emax_eq] at this
  omega

theorem overflow_iff (hv : 0 < v) : 2 ^ (f.emax + 1) ≤ (roundedSig f v : ℚ) * 2 ^ ulpExp f v ↔ overflowThreshold f ≤ v := by
  have hunit : (2 : ℚ) ^ (f.emax + 1) = (2 ^ (f.S + 1) : Nat) * 2 ^ (f.emax - f.S) := by
    rw [show f.emax + 1 = (f.S + 1 : Nat) + (f.emax - f.S) by push_cast; ring, zpow_add₀ two_ne_zero, zpow_natCast]
    push_cast
    rfl
  have hsig := roundedSig_le f hv
  obtain hlt | heq | hgt := lt_trichotomy (ulpExp f v) (f.emax - f.S)
  · refine iff_of_false (not_le.2 ?_) (not_le.2 ?_)
    · calc (roundedSig f v : ℚ) * 2 ^ ulpExp f v ≤ (2 ^ (f.S + 1) : Nat) * 2 ^ ulpExp f v := by gcongr
        _ < (2 ^ (f.S + 1) : Nat) * 2 ^ (f.emax - f.S) := by gcongr; norm_num
        _ = 2 ^ (f.emax + 1) := hunit.symm
    · have hone : (1 : ℚ) ≤ 2 - 2 ^ (-(f.S : Int) - 1) := by
        have : (2 : ℚ) ^ (-(f.S : Int) - 1) ≤ 2 ^ (0 : Int) := zpow_le_zpow_right₀ one_le_two (by omega)
        rw [zpow_zero] at this
        linarith
      calc v < 2 ^ (ulpExp f v + (f.S + 1 : Nat)) := lt_two_pow_ulpExp f v
        _ ≤ 2 ^ f.emax := zpow_le_zpow_right₀ one_le_two (by push_cast; omega)
        _ ≤ overflowThreshold f := le_mul_of_one_le_left (by positivity) hone
  · have heven : ((2 ^ (f.S + 1) : Nat) : Int) % 2 = 0 := by
      rw [pow_succ, Nat.cast_mul]
      exact Int.mul_emod_left ..
    rw [heq, hunit, mul_le_mul_iff_left₀ (by positivity), Nat.cast_le, overflowThreshold_eq, ← le_div_iff₀ (by positivity), ← heq,
      ← Nat.cast_le (α := Int), roundedSig_cast f hv, le_rne_iff _ heven, Int.cast_natCast]
  · have hsig : (2 : ℚ) ^ (f.S : Int) ≤ roundedSig f v := by
      exact_mod_cast two_pow_le_roundedSig f hv (by have := emin_lt_emax f; omega)
    have hbig : (2 : ℚ) ^ (f.emax + 1) ≤ 2 ^ (ulpExp f v + f.S) := zpow_le_zpow_right₀ one_le_two (by omega)
    refine iff_of_true ?_ ?_
    · calc (2 : ℚ) ^ (f.emax + 1) ≤ 2 ^ (ulpExp f v + f.S) := hbig
        _ = 2 ^ (f.S : Int) * 2 ^ ulpExp f v := by rw [add_comm, zpow_add₀ two_ne_zero]
        _ ≤ roundedSig f v * 2 ^ ulpExp f v := by gcongr
    · calc overflowThreshold f ≤ (2 ^ (f.S + 1) : Nat) * 2 ^ (f.emax - f.S) := by
            rw [overflowThreshold_eq]
            gcongr
            linarith
        _ = 2 ^ (f.emax + 1) := hunit.symm
        _ ≤ 2 ^ (ulpExp f v + f.S) := hbig
        _ ≤ v := two_pow_ulpExp_le f hv (by have := emin_lt_emax f; omega)

theorem roundPack_eq_inf_iff (hs : s < 2) (hv : 0 < v) : Exact.roundPack f s v = Exact.inf f s ↔ overflowThreshold f ≤ v := by
  rw [roundPack_eq_inf_iff_overflow f hs hv, overflow_iff f hv]

theorem roundedSig_eq_zero_iff (hv : 0 < v) : roundedSig f v = 0 ↔ v ≤ 2 ^ (f.emin - f.S - 1) := by
  by_cases hk : f.emin < ulpExp f v + f.S
  · have hsig := two_pow_le_roundedSig f hv hk
    have hpos := Nat.two_pow_pos f.S
    refine iff_of_false (by omega) (not_le.2 ?_)
    calc (2 : ℚ) ^ (f.emin - f.S - 1) < 2 ^ (ulpExp f v + f.S) := zpow_lt_zpow_right₀ one_lt_two (by omega)
      _ ≤ v := two_pow_ulpExp_le f hv hk
  · have hulp : ulpExp f v = f.emin - f.S := by
      have := emin_le_ulpExp_add f v
      omega
    have hrne := rne_le_iff (v / 2 ^ ulpExp f v) (n := 0) rfl
    rw [← roundedSig_cast f hv, div_le_iff₀ (by positivity), hulp] at hrne
    rw [zpow_sub_one₀ two_ne_zero, ← Nat.le_zero, ← Nat.cast_le (α := Int), Nat.cast_zero, hrne, Int.cast_zero, zero_add, mul_comm,
      one_div]

theorem roundPack_eq_zero_iff (hs : s < 2) (hv : 0 < v) :
    Exact.roundPack f s v = Exact.zero f s ↔ v ≤ 2 ^ (f.emin - f.S - 1) := by
  rw [← roundedSig_eq_zero_iff f hv]
  obtain ⟨hr, hover⟩ | ⟨be, t, hr, hbe, ht, hvalue, -⟩ := roundPack_cases f s hv
  · have hpos : (0 : ℚ) < 2 ^ (f.emax + 1) := by positivity
    refine iff_of_false (fun hzero => ?_) fun hzero => ?_
    · have hfield := (zero_fields (f := f) hs).2.1
      rw [← hzero, hr, (inf_fields hs).2.1] at hfield
      exact two_pow_E_pred_ne_zero f hfield
    · rw [hzero, Nat.cast_zero, zero_mul] at hover
      exact hover.not_gt hpos
  · have hunit : (2 : ℚ) ^ ulpExp f v ≠ 0 := by positivity
    obtain ⟨-, hbiased, htrailing⟩ := packed_fields hs (hbe.trans_le (Nat.pred_le _)) ht
    rw [hr]
    constructor
    · intro hzero
      obtain ⟨hbe0, ht0⟩ := (zero_fields (f := f) hs).2
      rw [← hzero, hbiased] at hbe0
      rw [← hzero, htrailing] at ht0
      rw [hbe0, ht0, fieldValue_zero, Nat.cast_zero, zero_mul, zero_eq_mul] at hvalue
      exact_mod_cast hvalue.resolve_right hunit
    · intro hzero
      rw [hzero, Nat.cast_zero, zero_mul] at hvalue
      by_cases hbe0 : be = 0
      · rw [hbe0, fieldValue_zero] at hvalue
        have ht0 : t = 0 := by exact_mod_cast (mul_eq_zero.1 hvalue).resolve_right (by positivity)
        rw [zero_eq_packed, hbe0, ht0]
      · have hge := le_fieldValue f hbe0 t
        rw [hvalue] at hge
        exact absurd hge (not_le.2 (by positivity))

end

/-! ### Nearest (R5, R7, R210) -/

section
variable (f : Fmt) (y : Nat)

theorem abs_val_eq_fieldValue : |Exact.val f y| = fieldValue f (Exact.biased f y) (Exact.trailing f y) := by
  rw [val_eq_fieldValue, abs_mul, abs_neg_one_pow, one_mul, abs_of_nonneg (fieldValue_nonneg ..)]

theorem trailing_lt : Exact.trailing f y < 2 ^ f.S := Nat.mod_lt _ (Nat.two_pow_pos _)

theorem abs_val_lt : |Exact.val f y| < 2 ^ (Exact.exponent f y + 1) := by
  rw [abs_val_eq_fieldValue]
  refine (fieldValue_lt f (trailing_lt f y)).trans_le (zpow_le_zpow_right₀ one_le_two ?_)
  unfold Exact.exponent
  have := f.emin_eq
  split
  · omega
  · omega

/-- A value is a whole number of any unit that is not above its own unit in the last place. -/
theorem exists_val_eq_mul {k : Int} (h : k ≤ Exact.exponent f y - f.S) : ∃ j : Int, Exact.val f y = j * 2 ^ k := by
  obtain ⟨d, hd⟩ := Int.le.dest h
  refine ⟨(-1) ^ Exact.sign f y * (Exact.significand f y * 2 ^ d), ?_⟩
  rw [Exact.val, ← hd, add_comm, zpow_add₀ two_ne_zero, zpow_natCast]
  push_cast
  ring

end

theorem abs_sign_mul_sub (s : Nat) (x v : ℚ) : |x - (-1) ^ s * v| = |(-1) ^ s * x - v| := by
  obtain hs | hs := neg_one_pow_eq_or ℚ s
  · simp [hs]
  · rw [hs, ← abs_neg]
    ring_nf

/-- The rounded significand is no farther from the exact one than any value, and even where another value is as near. -/
theorem roundedSig_nearest (f : Fmt) {v c : ℚ} (hv : 0 < v)
    (hc : (∃ j : Int, c = j * 2 ^ ulpExp f v) ∨ f.emin < ulpExp f v + f.S ∧ |c| < 2 ^ (ulpExp f v + f.S)) :
    |roundedSig f v * 2 ^ ulpExp f v - v| ≤ |c - v| ∧
      (|roundedSig f v * 2 ^ ulpExp f v - v| = |c - v| → c ≠ roundedSig f v * 2 ^ ulpExp f v → roundedSig f v % 2 = 0) := by
  have hcast : (roundedSig f v : ℚ) = Exact.rne (v / 2 ^ ulpExp f v) := by
    exact_mod_cast congrArg (Int.cast (R := ℚ)) (roundedSig_cast f hv)
  have hscale : ∀ x : ℚ, |x * 2 ^ ulpExp f v - v| = |x - v / 2 ^ ulpExp f v| * 2 ^ ulpExp f v := by
    intro x
    have hpos : (0 : ℚ) < 2 ^ ulpExp f v := by positivity
    rw [← abs_of_pos hpos, ← abs_mul, abs_of_pos hpos, sub_mul, div_mul_cancel₀ _ hpos.ne']
  have hnearest := abs_rne_sub_le_abs_sub (v / 2 ^ ulpExp f v)
  rw [← hcast] at hnearest
  obtain ⟨j, rfl⟩ | ⟨hk, hsmall⟩ := hc
  · rw [hscale, hscale]
    refine ⟨mul_le_mul_of_nonneg_right (hnearest j) (by positivity), fun htie hne => ?_⟩
    have htie' := mul_right_cancel₀ (by positivity) htie
    have hj : j ≠ Exact.rne (v / 2 ^ ulpExp f v) := by
      rintro rfl
      exact hne (by rw [hcast])
    have hone : (1 : ℚ) ≤ |(j : ℚ) - Exact.rne (v / 2 ^ ulpExp f v)| := by exact_mod_cast Int.one_le_abs (sub_ne_zero.2 hj)
    have htri := abs_sub_le (j : ℚ) (v / 2 ^ ulpExp f v) (Exact.rne (v / 2 ^ ulpExp f v))
    have hhalf := abs_rne_sub_le (v / 2 ^ ulpExp f v)
    rw [abs_sub_comm (v / 2 ^ ulpExp f v)] at htri
    rw [hcast] at htie'
    have heven := rne_even_of_tie (v / 2 ^ ulpExp f v) (by linarith)
    rw [← roundedSig_cast f hv] at heven
    omega
  · have hlow := two_pow_ulpExp_le f hv hk
    have hstrict : |roundedSig f v * 2 ^ ulpExp f v - v| < |c - v| := by
      calc |roundedSig f v * 2 ^ ulpExp f v - v| ≤ |((2 ^ f.S : Nat) : Int) * 2 ^ ulpExp f v - v| := by
            rw [hscale, hscale]
            exact mul_le_mul_of_nonneg_right (hnearest _) (by positivity)
        _ = |2 ^ (ulpExp f v + f.S) - v| := by
            rw [zpow_add₀ two_ne_zero, mul_comm, zpow_natCast]
            push_cast
            rfl
        _ = v - 2 ^ (ulpExp f v + f.S) := by rw [abs_sub_comm, abs_of_nonneg (sub_nonneg.2 hlow)]
        _ < v - |c| := by linarith
        _ ≤ |c - v| := by
            rw [abs_sub_comm]
            linarith [le_abs_self c, le_abs_self (v - c)]
    exact ⟨hstrict.le, fun htie => absurd htie hstrict.ne⟩

/-! ### The obligations -/

/-- Settles O37: half a unit in the last place below the first power of two out of range, and half the smallest Subnormal. -/
theorem overflowAndUnderflowThresholds : Obligations.OverflowAndUnderflowThresholds := by
  unfold Obligations.OverflowAndUnderflowThresholds
  intro f s v hn hd q
  have hq : 0 < q := by positivity
  rw [← BitVec.toNat_inj, ← BitVec.toNat_inj, roundPackIsTheExactRule f s v hn hd, infF_exact, zeroF_exact]
  exact ⟨roundPack_eq_inf_iff f s.toNat_lt hq, roundPack_eq_zero_iff f s.toNat_lt hq⟩

/-- Settles O38: with the sign taken out, a float with an exponent below that of the result is below the exact value's power of two,
and any other is a whole number of the result's units (`roundedSig_nearest`). -/
theorem roundPackIsNearestTiesToEven : Obligations.RoundPackIsNearestTiesToEven := by
  unfold Obligations.RoundPackIsNearestTiesToEven
  intro f s v y hn hd q r hbelow _ _
  have hv : (0 : ℚ) < (v.num : ℚ) / v.den * 2 ^ v.exp := by positivity
  have hr : r = Exact.roundPack f s.toNat ((v.num : ℚ) / v.den * 2 ^ v.exp) := roundPackIsTheExactRule f s v hn hd
  have hq : |q| = (v.num : ℚ) / v.den * 2 ^ v.exp := by rw [abs_mul, abs_neg_one_pow, one_mul, abs_of_pos hv]
  rw [hq] at hbelow
  simp only [q]
  generalize (v.num : ℚ) / v.den * 2 ^ v.exp = m at *
  have hnot : (roundedSig f m : ℚ) * 2 ^ ulpExp f m < 2 ^ (f.emax + 1) :=
    not_le.1 (mt (overflow_iff f hv).1 hbelow.not_ge)
  obtain ⟨-, -, hval, hparity⟩ := roundPack_of_not_overflow f s.toNat_lt hv hnot
  rw [← hr] at hval hparity
  have hsign : ((-1 : ℚ) ^ s.toNat) * (-1) ^ s.toNat = 1 := by rw [← mul_pow]; simp
  have hc : (∃ j : Int, (-1) ^ s.toNat * Exact.val f y = j * 2 ^ ulpExp f m) ∨
      f.emin < ulpExp f m + f.S ∧ |(-1) ^ s.toNat * Exact.val f y| < 2 ^ (ulpExp f m + f.S) := by
    by_cases hexp : ulpExp f m ≤ Exact.exponent f y - f.S
    · obtain ⟨j, hj⟩ := exists_val_eq_mul f y hexp
      exact .inl ⟨(-1) ^ s.toNat * j, by rw [hj]; push_cast; ring⟩
    · refine .inr ⟨?_, ?_⟩
      · have hemin : f.emin ≤ Exact.exponent f y := by
          unfold Exact.exponent
          have := f.emin_eq
          split <;> omega
        omega
      · rw [abs_mul, abs_neg_one_pow, one_mul]
        exact (abs_val_lt f y).trans_le (zpow_le_zpow_right₀ one_le_two (by omega))
  obtain ⟨hle, htie⟩ := roundedSig_nearest f hv hc
  rw [abs_sign_mul_sub, abs_sign_mul_sub, hval, ← mul_assoc, hsign, one_mul]
  refine ⟨hle, fun heq hne => hparity.trans (htie heq fun hsame => hne ?_)⟩
  rw [← hsame, ← mul_assoc, hsign, one_mul]

end Sys2Proof.FpRounding
end

section
/-! The float comparisons (48_fp_compare.md R340 to R347): the order of the values is that of the fields below the sign, infinities
at the ends, and the six comparisons decide it. -/

namespace Sys2Proof.FpValues

open Sys2Proof.Machine Sys2Proof.Safety Sys2Proof.FpDatapath Sys2Proof.FpAddSub Sys2Proof.FpMul Sys2Proof.FpConvert
  Sys2Proof.FpRounding

/-! ### The order of the magnitudes is the order of the fields (R340) -/

/-- The magnitude that the bits below the sign stand for. -/
def magValue (f : Fmt) (m : Nat) : ℚ := fieldValue f (m / 2 ^ f.S) (m % 2 ^ f.S)

theorem magValue_strictMono (f : Fmt) : StrictMono (magValue f) := by
  intro m m' hlt
  have ht : m % 2 ^ f.S < 2 ^ f.S := Nat.mod_lt _ (Nat.two_pow_pos _)
  have hle := Nat.div_le_div_right (c := 2 ^ f.S) hlt.le
  unfold magValue
  obtain hbe | hbe := hle.lt_or_eq
  · calc fieldValue f (m / 2 ^ f.S) (m % 2 ^ f.S) < 2 ^ (((m / 2 ^ f.S : Nat) : Int) + 1 - f.B) := fieldValue_lt f ht
      _ ≤ 2 ^ (((m' / 2 ^ f.S : Nat) : Int) - f.B) :=
        zpow_le_zpow_right₀ one_le_two (sub_le_sub_right (by exact_mod_cast hbe) _)
      _ ≤ fieldValue f (m' / 2 ^ f.S) (m' % 2 ^ f.S) := le_fieldValue f (Nat.zero_lt_of_lt hbe).ne' _
  · have hm := Nat.div_add_mod m (2 ^ f.S)
    have hm' := Nat.div_add_mod m' (2 ^ f.S)
    rw [hbe] at hm
    have htrailing : ((m % 2 ^ f.S : Nat) : ℚ) < (m' % 2 ^ f.S : Nat) := by
      exact_mod_cast (show m % 2 ^ f.S < m' % 2 ^ f.S by omega)
    rw [hbe]
    by_cases hzero : m' / 2 ^ f.S = 0
    · rw [hzero, fieldValue_zero, fieldValue_zero]
      gcongr
    · rw [fieldValue_of_pos f hzero, fieldValue_of_pos f hzero]
      gcongr

theorem fieldValue_eq_magValue (f : Fmt) (be : Nat) {t : Nat} (ht : t < 2 ^ f.S) :
    fieldValue f be t = magValue f (be * 2 ^ f.S + t) := by
  rw [magValue, Nat.add_comm, Nat.add_mul_div_right _ _ (Nat.two_pow_pos _), Nat.div_eq_of_lt ht, Nat.zero_add,
    Nat.add_mul_mod_self_right, Nat.mod_eq_of_lt ht]

section
variable (f : Fmt) (x y : BitVec f.W)

theorem magBits_eq_fields : magBits f x = Exact.biased f x.toNat * 2 ^ f.S + Exact.trailing f x.toNat := by
  rw [magBits, BitVec.extractLsb'_toNat, Nat.shiftRight_zero, pow_W_pred, mul_comm, Nat.mod_mul, Exact.biased, Exact.trailing]
  ring

theorem abs_val_eq_magValue : |Exact.val f x.toNat| = magValue f (magBits f x) := by
  rw [abs_val_eq_fieldValue, fieldValue_eq_magValue f _ (trailing_lt f _), magBits_eq_fields]

theorem abs_val_lt_iff : |Exact.val f x.toNat| < |Exact.val f y.toNat| ↔ magBits f x < magBits f y := by
  rw [abs_val_eq_magValue, abs_val_eq_magValue, (magValue_strictMono f).lt_iff_lt]

theorem abs_val_eq_iff : |Exact.val f x.toNat| = |Exact.val f y.toNat| ↔ magBits f x = magBits f y := by
  rw [abs_val_eq_magValue, abs_val_eq_magValue, (magValue_strictMono f).injective.eq_iff]

theorem toNat_eq_packed : x.toNat = Exact.packed f (Exact.sign f x.toNat) (Exact.biased f x.toNat) (Exact.trailing f x.toNat) := by
  rw [← signBit_toNat, ← biasedExp_exact, ← trailingSig_exact]
  exact toNat_of_fields f x

variable {f x y}

/-- The sign and the bits below it are the whole pattern. -/
theorem eq_of_sign_of_magBits (hsign : signBit f x = signBit f y) (hmag : magBits f x = magBits f y) : x = y := by
  rw [← BitVec.toNat_inj, toNat_eq_packed f x, toNat_eq_packed f y, Exact.packed, Exact.packed, Nat.add_assoc, Nat.add_assoc,
    ← magBits_eq_fields, ← magBits_eq_fields, ← signBit_toNat, ← signBit_toNat, hsign, hmag]

theorem isZero_iff_magBits : Exact.IsZero f x.toNat ↔ magBits f x = 0 := by
  rw [magBits_eq_fields, Nat.add_eq_zero_iff, Nat.mul_eq_zero, or_iff_left (Nat.two_pow_pos _).ne', Exact.IsZero]

theorem val_eq_zero_iff : Exact.val f x.toNat = 0 ↔ Exact.IsZero f x.toNat := by
  have hzero : magValue f 0 = 0 := by simp [magValue, fieldValue_zero]
  rw [isZero_iff_magBits, ← abs_eq_zero, abs_val_eq_magValue, ← hzero, (magValue_strictMono f).injective.eq_iff]

theorem val_eq_sign_abs : Exact.val f x.toNat = if signBit f x then -|Exact.val f x.toNat| else |Exact.val f x.toNat| := by
  rw [abs_val_eq_fieldValue, val_eq_fieldValue, ← signBit_toNat]
  cases signBit f x <;> simp

/-- The bit order is the order of the values, but for two zeros (R340). -/
theorem lessF_iff (h : ¬ (Exact.IsZero f x.toNat ∧ Exact.IsZero f y.toNat)) :
    lessF f x y = true ↔ Exact.val f x.toNat < Exact.val f y.toNat := by
  have hlt := abs_val_lt_iff f x y
  have hgt := abs_val_lt_iff f y x
  have hx := abs_nonneg (Exact.val f x.toNat)
  have hy := abs_nonneg (Exact.val f y.toNat)
  rw [← val_eq_zero_iff, ← val_eq_zero_iff, ← abs_eq_zero, ← abs_eq_zero (a := Exact.val f y.toNat)] at h
  rw [val_eq_sign_abs, val_eq_sign_abs (x := y), lessF]
  generalize |Exact.val f x.toNat| = a at *
  generalize |Exact.val f y.toNat| = b at *
  cases signBit f x <;> cases signBit f y
  · simpa using hlt.symm
  · simp; linarith
  · have hpos : 0 < a ∨ 0 < b := by
      by_contra hnot
      obtain ⟨ha, hb⟩ := not_or.1 hnot
      exact h ⟨le_antisymm (not_lt.1 ha) hx, le_antisymm (not_lt.1 hb) hy⟩
    simp
    obtain hpos | hpos := hpos <;> linarith
  · simpa using hgt.symm

/-- Equal values are equal patterns, but for two zeros. -/
theorem val_eq_iff : Exact.val f x.toNat = Exact.val f y.toNat ↔ Exact.IsZero f x.toNat ∧ Exact.IsZero f y.toNat ∨ x = y := by
  constructor
  · intro heq
    have hmag := (abs_val_eq_iff f x y).1 (congrArg abs heq)
    by_cases hzero : Exact.IsZero f x.toNat
    · exact .inl ⟨hzero, isZero_iff_magBits.2 (hmag ▸ isZero_iff_magBits.1 hzero)⟩
    · refine .inr (eq_of_sign_of_magBits ?_ hmag)
      have hpos : 0 < |Exact.val f x.toNat| := abs_pos.2 (mt val_eq_zero_iff.1 hzero)
      have habs := congrArg abs heq
      rw [val_eq_sign_abs, val_eq_sign_abs (x := y), ← habs] at heq
      generalize |Exact.val f x.toNat| = a at *
      by_contra hne
      cases hsx : signBit f x <;> cases hsy : signBit f y <;> simp [hsx, hsy] at heq hne <;> linarith
  · rintro (⟨hx, hy⟩ | rfl)
    · rw [val_eq_zero_iff.2 hx, val_eq_zero_iff.2 hy]
    · rfl

end

/-! ### Infinities at the ends (R340) -/

section
variable {f : Fmt} {x y : BitVec f.W}

theorem eq_inf_of_isInf (h : Exact.IsInf f x.toNat) : x.toNat = Exact.inf f (Exact.sign f x.toNat) := by
  obtain ⟨hbiased, htrailing⟩ := h
  rw [inf_eq_packed, ← hbiased, ← htrailing]
  exact toNat_eq_packed f x

theorem sign_lt (n : Nat) : Exact.sign f n < 2 := Nat.mod_lt _ two_pos

theorem not_isFinite_inf {s : Nat} (hs : s < 2) : ¬ Exact.IsFinite f (Exact.inf f s) := not_not.2 (inf_fields hs).2.1

theorem eq_inf_of_not_isFinite (hnan : ¬ Exact.IsNaN f x.toNat) (hfinite : ¬ Exact.IsFinite f x.toNat) :
    x.toNat = Exact.inf f (Exact.sign f x.toNat) :=
  eq_inf_of_isInf ⟨not_not.1 hfinite, by_contra fun ht => hnan ⟨not_not.1 hfinite, ht⟩⟩

/-- What the formula of R205 gives for an infinity: the first power of two out of range. -/
theorem val_inf {s : Nat} (hs : s < 2) : Exact.val f (Exact.inf f s) = (-1) ^ s * fieldValue f (2 ^ f.E - 1) 0 := by
  rw [inf_eq_packed, val_packed hs (Nat.sub_one_lt (Nat.two_pow_pos f.E).ne') (Nat.two_pow_pos f.S)]

/-- Every finite magnitude is below that of an infinity. -/
theorem abs_val_lt_of_isFinite (h : Exact.IsFinite f x.toNat) : |Exact.val f x.toNat| < fieldValue f (2 ^ f.E - 1) 0 := by
  have hlt : Exact.biased f x.toNat < 2 ^ f.E := Nat.mod_lt _ (Nat.two_pow_pos _)
  rw [Exact.IsFinite] at h
  rw [abs_val_eq_fieldValue]
  calc fieldValue f (Exact.biased f x.toNat) (Exact.trailing f x.toNat)
      < 2 ^ ((Exact.biased f x.toNat : Int) + 1 - f.B) := fieldValue_lt f (trailing_lt f _)
    _ ≤ 2 ^ (((2 ^ f.E - 1 : Nat) : Int) - f.B) := zpow_le_zpow_right₀ one_le_two (by omega)
    _ ≤ fieldValue f (2 ^ f.E - 1) 0 := le_fieldValue f (two_pow_E_pred_ne_zero f) 0

/-- Nothing but +∞ reaches its value. -/
theorem val_lt_posInf (hnan : ¬ Exact.IsNaN f x.toNat) (hne : x.toNat ≠ Exact.inf f 0) :
    Exact.val f x.toNat < Exact.val f (Exact.inf f 0) := by
  rw [val_inf two_pos, pow_zero, one_mul]
  by_cases hfinite : Exact.IsFinite f x.toNat
  · exact (le_abs_self _).trans_lt (abs_val_lt_of_isFinite hfinite)
  · have hinf := eq_inf_of_not_isFinite hnan hfinite
    have hsign : Exact.sign f x.toNat = 1 := by
      have := sign_lt (f := f) x.toNat
      by_contra hne1
      rw [show Exact.sign f x.toNat = 0 by omega] at hinf
      exact hne hinf
    rw [hinf, hsign, val_inf one_lt_two, pow_one]
    have hpos : 0 < fieldValue f (2 ^ f.E - 1) 0 := lt_of_lt_of_le (by positivity) (le_fieldValue f (two_pow_E_pred_ne_zero f) 0)
    linarith

/-- Nothing but −∞ reaches its value. -/
theorem negInf_lt_val (hnan : ¬ Exact.IsNaN f x.toNat) (hne : x.toNat ≠ Exact.inf f 1) :
    Exact.val f (Exact.inf f 1) < Exact.val f x.toNat := by
  rw [val_inf one_lt_two, pow_one, neg_one_mul]
  by_cases hfinite : Exact.IsFinite f x.toNat
  · exact (neg_lt_neg (abs_val_lt_of_isFinite hfinite)).trans_le (neg_abs_le _)
  · have hinf := eq_inf_of_not_isFinite hnan hfinite
    have hsign : Exact.sign f x.toNat = 0 := by
      have := sign_lt (f := f) x.toNat
      by_contra hne0
      rw [show Exact.sign f x.toNat = 1 by omega] at hinf
      exact hne hinf
    rw [hinf, hsign, val_inf two_pos, pow_zero, one_mul]
    have hpos : 0 < fieldValue f (2 ^ f.E - 1) 0 := lt_of_lt_of_le (by positivity) (le_fieldValue f (two_pow_E_pred_ne_zero f) 0)
    linarith

/-- An operand that is not a NaN is finite or one of the infinities. -/
theorem isFinite_or_eq_inf (hnan : ¬ Exact.IsNaN f x.toNat) :
    Exact.IsFinite f x.toNat ∨ x.toNat = Exact.inf f 0 ∨ x.toNat = Exact.inf f 1 := by
  by_cases hfinite : Exact.IsFinite f x.toNat
  · exact .inl hfinite
  · have hinf := eq_inf_of_not_isFinite hnan hfinite
    have hlt := sign_lt (f := f) x.toNat
    obtain hsign | hsign : Exact.sign f x.toNat = 0 ∨ Exact.sign f x.toNat = 1 := by omega
    · exact .inr (.inl (hsign ▸ hinf))
    · exact .inr (.inr (hsign ▸ hinf))

theorem ne_inf_of_isFinite {s n : Nat} (hs : s < 2) (h : Exact.IsFinite f n) : n ≠ Exact.inf f s := by
  rintro rfl
  exact not_isFinite_inf hs h

/-- With the infinities' values at the ends, the relation of R340 is the order of the values. -/
theorem less_iff_val_lt (hx : ¬ Exact.IsNaN f x.toNat) (hy : ¬ Exact.IsNaN f y.toNat) :
    Exact.Less f x.toNat y.toNat ↔ Exact.val f x.toNat < Exact.val f y.toNat := by
  rw [Exact.Less, and_iff_right hx, and_iff_right hy]
  constructor
  · rintro (⟨-, -, hlt⟩ | ⟨hinf, hne⟩ | ⟨hinf, hne⟩)
    · exact hlt
    · exact hinf ▸ negInf_lt_val hy hne
    · exact hinf ▸ val_lt_posInf hx hne
  · intro hlt
    obtain hxf | hxp | hxn := isFinite_or_eq_inf hx
    · obtain hyf | hyp | hyn := isFinite_or_eq_inf hy
      · exact .inl ⟨hxf, hyf, hlt⟩
      · exact .inr (.inr ⟨hyp, ne_inf_of_isFinite two_pos hxf⟩)
      · exact absurd (hyn ▸ negInf_lt_val hx (ne_inf_of_isFinite one_lt_two hxf)) hlt.not_gt
    · have hne : y.toNat ≠ Exact.inf f 0 := fun heq => hlt.ne (by rw [hxp, heq])
      exact absurd (hxp ▸ val_lt_posInf hy hne) hlt.not_gt
    · exact .inr (.inl ⟨hxn, fun heq => hlt.ne (by rw [hxn, heq])⟩)

theorem equal_iff_val_eq (hx : ¬ Exact.IsNaN f x.toNat) (hy : ¬ Exact.IsNaN f y.toNat) :
    Exact.Equal f x.toNat y.toNat ↔ Exact.val f x.toNat = Exact.val f y.toNat := by
  rw [Exact.Equal, and_iff_right hx, and_iff_right hy]
  constructor
  · rintro (⟨-, -, heq⟩ | heq)
    · exact heq
    · rw [heq]
  · intro heq
    obtain ⟨⟨hbx, -⟩, hby, -⟩ | rfl := val_eq_iff.1 heq
    · have hmax := (two_pow_E_pred_ne_zero f).symm
      exact .inl ⟨hbx.trans_ne hmax, hby.trans_ne hmax, heq⟩
    · exact .inr rfl

/-! ### The comparisons (R341 to R346) -/

theorem eqF_iff : eqF f x y = true ↔ Exact.Equal f x.toNat y.toNat := by
  by_cases hnan : Exact.IsNaN f x.toNat ∨ Exact.IsNaN f y.toNat
  · have hfalse : eqF f x y = false := by
      rw [← isNaN_iff, ← isNaN_iff, ← Bool.or_eq_true] at hnan
      rw [eqF, if_pos hnan]
    exact iff_of_false (by simp [hfalse]) fun h => hnan.elim h.1 h.2.1
  · obtain ⟨hx, hy⟩ := not_or.1 hnan
    rw [← isNaN_iff, ← isNaN_iff, ← Bool.or_eq_true] at hnan
    rw [equal_iff_val_eq hx hy, val_eq_iff, eqF, if_neg hnan]
    simp only [Bool.and_eq_true, isZero_iff]
    split
    next hzeros => exact iff_of_true rfl (.inl hzeros)
    next hzeros => rw [decide_eq_true_iff, or_iff_right hzeros]

theorem ltF_iff : ltF f x y = true ↔ Exact.Less f x.toNat y.toNat := by
  by_cases hnan : Exact.IsNaN f x.toNat ∨ Exact.IsNaN f y.toNat
  · have hfalse : ltF f x y = false := by
      rw [← isNaN_iff, ← isNaN_iff, ← Bool.or_eq_true] at hnan
      rw [ltF, if_pos hnan]
    exact iff_of_false (by simp [hfalse]) fun h => hnan.elim h.1 h.2.1
  · obtain ⟨hx, hy⟩ := not_or.1 hnan
    rw [← isNaN_iff, ← isNaN_iff, ← Bool.or_eq_true] at hnan
    rw [less_iff_val_lt hx hy, ltF, if_neg hnan]
    simp only [Bool.and_eq_true, isZero_iff]
    split
    next hzero => simp [(val_eq_iff (f := f)).2 (.inl hzero)]
    next hzero => exact lessF_iff hzero

/-- With a NaN all three are false. -/
theorem leF_eq : leF f x y = (ltF f x y || eqF f x y) := by
  unfold leF
  split
  next hnan => simp [ltF, eqF, hnan]
  next => rfl

theorem leF_iff : leF f x y = true ↔ Exact.Less f x.toNat y.toNat ∨ Exact.Equal f x.toNat y.toNat := by
  rw [leF_eq, Bool.or_eq_true, ltF_iff, eqF_iff]

theorem not_eqF_iff : (!eqF f x y) = true ↔ ¬ Exact.Equal f x.toNat y.toNat := by
  rw [Bool.not_eq_true', ← Bool.not_eq_true, eqF_iff]

/-- Exactly one of less, equal and greater. -/
theorem ltF_eqF_gtF (hx : ¬ Exact.IsNaN f x.toNat) (hy : ¬ Exact.IsNaN f y.toNat) :
    (ltF f x y).toNat + (eqF f x y).toNat + (ltF f y x).toNat = 1 := by
  have hlt : ltF f x y = decide (Exact.val f x.toNat < Exact.val f y.toNat) := by
    rw [Bool.eq_iff_iff, ltF_iff, less_iff_val_lt hx hy, decide_eq_true_iff]
  have heq : eqF f x y = decide (Exact.val f x.toNat = Exact.val f y.toNat) := by
    rw [Bool.eq_iff_iff, eqF_iff, equal_iff_val_eq hx hy, decide_eq_true_iff]
  have hgt : ltF f y x = decide (Exact.val f y.toNat < Exact.val f x.toNat) := by
    rw [Bool.eq_iff_iff, ltF_iff, less_iff_val_lt hy hx, decide_eq_true_iff]
  rw [hlt, heq, hgt]
  obtain h | h | h := lt_trichotomy (Exact.val f x.toNat) (Exact.val f y.toNat)
  · simp [h, h.ne, h.not_gt]
  · simp [h]
  · simp [h, h.ne', h.not_gt]

end

/-- Settles O51: each truth value decides its relation; FGT and FGE are FLT and FLE of the exchanged operands. -/
theorem floatComparisonsAreByValue : Obligations.FloatComparisonsAreByValue := by
  unfold Obligations.FloatComparisonsAreByValue
  intro f s x y
  have hx : (operandA f.W s).toNat = x := operandA_toNat f.W s
  have hy : (operandB f.W s).toNat = y := operandB_toNat f.W s
  refine ⟨?feq, ?fne, ?flt, ?fle, ?fgt, ?fge⟩
  case feq => exact completeTruth_answers (by rw [eqF_iff, hx, hy]) s
  case fne => exact completeTruth_answers (by rw [not_eqF_iff, hx, hy]) s
  case flt => exact completeTruth_answers (by rw [ltF_iff, hx, hy]) s
  case fle => exact completeTruth_answers (by rw [leF_iff, hx, hy]) s
  case fgt => exact completeTruth_answers (by rw [ltF_iff, hx, hy]) s
  case fge => exact completeTruth_answers (by rw [leF_iff, hx, hy]) s

theorem equal_comm {f : Fmt} {m n : Nat} : Exact.Equal f m n ↔ Exact.Equal f n m := by
  unfold Exact.Equal
  rw [eq_comm (a := Exact.val f m), eq_comm (a := m)]
  tauto

/-- Settles O52: the order of the values is total without NaNs, and FLE, FGE and FNE are made of the other three. -/
theorem floatComparisonConsistency : Obligations.FloatComparisonConsistency := by
  unfold Obligations.FloatComparisonConsistency
  intro f s lt eq gt nan
  have hA := operandA_toNat f.W s
  have hB := operandB_toNat f.W s
  refine ⟨fun hnan => ?one, leF_eq, ?fge, rfl, fun hnan => ?nan⟩
  case one =>
    obtain ⟨hx, hy⟩ := not_or.1 hnan
    rw [portA, ← hA] at hx
    rw [portB, ← hB] at hy
    exact ltF_eqF_gtF hx hy
  case fge =>
    have hcomm : eqF f (operandB f.W s) (operandA f.W s) = eqF f (operandA f.W s) (operandB f.W s) := by
      rw [Bool.eq_iff_iff, eqF_iff, eqF_iff, equal_comm]
    exact leF_eq.trans (congrArg _ hcomm)
  case nan =>
    have hless : ∀ x y : BitVec f.W, Exact.IsNaN f x.toNat ∨ Exact.IsNaN f y.toNat → ltF f x y = false := fun x y h =>
      Bool.eq_false_iff.2 fun htrue => h.elim (ltF_iff.1 htrue).1 (ltF_iff.1 htrue).2.1
    have heq : ∀ x y : BitVec f.W, Exact.IsNaN f x.toNat ∨ Exact.IsNaN f y.toNat → eqF f x y = false := fun x y h =>
      Bool.eq_false_iff.2 fun htrue => h.elim (eqF_iff.1 htrue).1 (eqF_iff.1 htrue).2.1
    simp only [nan, portA, portB, ← hA, ← hB] at hnan
    exact ⟨hless _ _ hnan, heq _ _ hnan, hless _ _ hnan.symm⟩

end Sys2Proof.FpValues
end

section
/-! Pairs of float operations and NaN results (43_fp_datapath.md R220 to R222, R226, R231; 44_fp_addsub.md R240; 45_fp_mul.md R270):
FCLASS after FMKNORM, exchanged operands, and that no constant and no rounded value is a NaN. -/

namespace Sys2Proof.FpPairs

open Sys2Proof.Machine Sys2Proof.Safety Sys2Proof.IntArith Sys2Proof.FpDatapath Sys2Proof.FpAddSub Sys2Proof.FpMul
  Sys2Proof.FpDiv Sys2Proof.FpConvert  Sys2Proof.FpRounding Sys2Proof.FpValues Sys2Proof.CoreStep

/-! ### Classify and make (R226, R231) -/

/-- Settles O34: the packed parts are the fields of a Normal, which FCLASS decomposes into the same parts. -/
theorem classifyInvertsNormalFactory : Obligations.ClassifyInvertsNormalFactory := by
  unfold Obligations.ClassifyInvertsNormalFactory
  intro f s t u hnext hfault hport
  obtain ⟨-, -, hanswers, hfaults⟩ := factoriesCheckTheirParts f s
  by_cases hparts : f.emin ≤ signedOf 32 (portB 32 s) ∧ signedOf 32 (portB 32 s) ≤ f.emax ∧ 2 ^ f.S ≤ portA f.W s ∧
      portA f.W s < 2 ^ (f.S + 1)
  case neg =>
    obtain ⟨v, hv, -, -, -, hcode, -⟩ := hfaults hparts
    cases hv.symm.trans hnext
    rw [hfault] at hcode
    cases hcode
  case pos =>
    obtain ⟨hres, -⟩ := answers_of_next (hanswers hparts) hnext
    obtain ⟨hemin, hemax, hlow, hhigh⟩ := hparts
    obtain ⟨hbe, ht, -, -⟩ := normal_fields hemin hemax hlow hhigh
    have hx : (operandA f.W u).toNat =
        Exact.packed f s.cin.toNat (signedOf 32 (portB 32 s) + f.B).toNat (portA f.W s - 2 ^ f.S) := by
      rw [operandA_toNat, hport, hres, ← recompose_exact s.cin hemax hlow hhigh, Nat.mod_eq_of_lt (BitVec.isLt _)]
    obtain ⟨hsign, hbiased, htrailing⟩ := packed_fields s.cin.toNat_lt (hbe.trans_le (Nat.pred_le _)) ht
    rw [← hx] at hsign hbiased htrailing
    have hbpos : 0 < signedOf 32 (portB 32 s) + f.B := by rw [f.emin_eq] at hemin; omega
    have hnormal : Exact.IsNormal f (operandA f.W u).toNat := ⟨by omega, by omega⟩
    have hclass := fclass_answers f u
    have hexp : (((signedOf 32 (portB 32 s) + f.B).toNat : Nat) : Int) - f.B = signedOf 32 (portB 32 s) := by omega
    have hword : wrap 32 (signedOf 32 (portB 32 s)) = portB 32 s := wrap_readAs .signed 32 _ (portB_lt 32 s)
    rw [decompose_of_isNormal hnormal] at hclass
    dsimp only at hclass
    rwa [hbiased, htrailing, hexp, hword, signBit_toNat, hsign, Nat.sub_add_cancel hlow] at hclass

/-! ### Operands exchanged (R240, R270) -/

section
variable {f : Fmt} {x y : BitVec f.W}

theorem eq_of_isZero (hx : Exact.IsZero f x.toNat) (hy : Exact.IsZero f y.toNat)
    (hsign : Exact.sign f x.toNat = Exact.sign f y.toNat) : x = y := by
  obtain ⟨hbx, htx⟩ := hx
  obtain ⟨hby, hty⟩ := hy
  rw [← BitVec.toNat_inj, toNat_eq_packed f x, toNat_eq_packed f y, hbx, htx, hby, hty, hsign]

theorem eq_of_isInf (hx : Exact.IsInf f x.toNat) (hy : Exact.IsInf f y.toNat)
    (hsign : Exact.sign f x.toNat = Exact.sign f y.toNat) : x = y := by
  rw [← BitVec.toNat_inj, eq_inf_of_isInf hx, eq_inf_of_isInf hy, hsign]

theorem addF_comm (hx : ¬ Exact.IsNaN f x.toNat) (hy : ¬ Exact.IsNaN f y.toNat) : addF f y x = addF f x y := by
  rw [← BitVec.toNat_inj, addF_exact, addF_exact, Exact.add, Exact.add]
  simp only [if_neg hx, if_neg hy]
  by_cases hzeros : Exact.IsZero f x.toNat ∧ Exact.IsZero f y.toNat
  · simp only [if_pos hzeros, if_pos hzeros.symm]
    by_cases hsign : Exact.sign f x.toNat = Exact.sign f y.toNat
    · rw [eq_of_isZero hzeros.1 hzeros.2 hsign]
    · rw [if_pos (Ne.symm hsign), if_pos hsign]
  simp only [if_neg hzeros, if_neg (mt And.symm hzeros)]
  by_cases hx0 : Exact.IsZero f x.toNat
  · simp only [if_pos hx0, if_neg fun hy0 => hzeros ⟨hx0, hy0⟩]
  by_cases hy0 : Exact.IsZero f y.toNat
  · simp only [if_neg hx0, if_pos hy0]
  simp only [if_neg hx0, if_neg hy0]
  by_cases hxInf : Exact.IsInf f x.toNat
  · by_cases hyInf : Exact.IsInf f y.toNat
    · simp only [if_pos hxInf, if_pos hyInf]
      by_cases hsign : Exact.sign f x.toNat = Exact.sign f y.toNat
      · rw [eq_of_isInf hxInf hyInf hsign]
      · rw [if_pos ⟨hxInf, Ne.symm hsign⟩, if_pos ⟨hyInf, hsign⟩]
    · simp only [if_pos hxInf, if_neg hyInf, if_neg (not_and_of_not_left _ hyInf)]
  · simp only [if_neg hxInf, if_neg (not_and_of_not_left _ hxInf), add_comm (Exact.val f y.toNat)]

theorem mulF_comm (hx : ¬ Exact.IsNaN f x.toNat) (hy : ¬ Exact.IsNaN f y.toNat) : mulF f y x = mulF f x y := by
  rw [← BitVec.toNat_inj, mulF_exact, mulF_exact, Exact.mul, Exact.mul]
  simp only [if_neg hx, if_neg hy]
  have hsign : Exact.xorSign f y.toNat x.toNat = Exact.xorSign f x.toNat y.toNat := by
    rw [Exact.xorSign, Exact.xorSign, Nat.add_comm]
  have hinvalid : Exact.IsInf f y.toNat ∧ Exact.IsZero f x.toNat ∨ Exact.IsZero f y.toNat ∧ Exact.IsInf f x.toNat ↔
      Exact.IsInf f x.toNat ∧ Exact.IsZero f y.toNat ∨ Exact.IsZero f x.toNat ∧ Exact.IsInf f y.toNat := by
    rw [or_comm, and_comm, and_comm (a := Exact.IsInf f y.toNat)]
  simp only [hinvalid, or_comm (a := Exact.IsInf f y.toNat), or_comm (a := Exact.IsZero f y.toNat), hsign,
    mul_comm (Exact.val f y.toNat)]

end

/-! ### No rounded result is a NaN (R220 to R222) -/

section
variable {f : Fmt} {s : Nat}

theorem not_isNaN_zero (hs : s < 2) : ¬ Exact.IsNaN f (Exact.zero f s) := fun h => h.2 (zero_fields hs).2.2

theorem not_isNaN_inf (hs : s < 2) : ¬ Exact.IsNaN f (Exact.inf f s) := fun h => h.2 (inf_fields hs).2.2

theorem not_isNaN_roundPack (hs : s < 2) {v : ℚ} (hv : 0 < v) : ¬ Exact.IsNaN f (Exact.roundPack f s v) := by
  obtain ⟨hr, -⟩ | ⟨be, t, hr, hbe, ht, -⟩ := roundPack_cases f s hv
  · rw [hr]
    exact not_isNaN_inf hs
  · obtain ⟨-, hbiased, -⟩ := packed_fields (f := f) hs (hbe.trans_le (Nat.pred_le _)) ht
    rw [hr]
    exact fun h => hbe.ne (hbiased ▸ h.1)

theorem signOf_lt (q : ℚ) : Exact.signOf q < 2 := by unfold Exact.signOf; split <;> decide

theorem not_isNaN_convertFI (v : Int) : ¬ Exact.IsNaN f (Exact.convertFI f v) := by
  unfold Exact.convertFI
  split
  next => exact not_isNaN_zero two_pos
  next hv => exact not_isNaN_roundPack (signOf_lt _) (abs_pos.2 (Int.cast_ne_zero.2 hv))

theorem xorSign_lt (x y : Nat) : Exact.xorSign f x y < 2 := Nat.mod_lt _ two_pos

end

section
variable {f : Fmt} {x y : BitVec f.W} (hx : ¬ Exact.IsNaN f x.toNat) (hy : ¬ Exact.IsNaN f y.toNat)
include hx hy

theorem isNaN_add (h : Exact.IsNaN f (Exact.add f x.toNat y.toNat)) : Exact.add f x.toNat y.toNat = Exact.indNaN f := by
  unfold Exact.add at h ⊢
  simp only [if_neg hx, if_neg hy] at h ⊢
  split_ifs at h ⊢ with hzeros hsigns hx0 hy0 hxInf hind hyInf hsum
  · exact absurd h (not_isNaN_zero two_pos)
  · exact absurd h hx
  · exact absurd h hy
  · exact absurd h hx
  · rfl
  · exact absurd h hx
  · exact absurd h hy
  · exact absurd h (not_isNaN_zero two_pos)
  · exact absurd h (not_isNaN_roundPack (signOf_lt _) (abs_pos.2 hsum))

theorem isNaN_mul (h : Exact.IsNaN f (Exact.mul f x.toNat y.toNat)) : Exact.mul f x.toNat y.toNat = Exact.indNaN f := by
  unfold Exact.mul at h ⊢
  simp only [if_neg hx, if_neg hy] at h ⊢
  split_ifs at h ⊢ with hinvalid hinf hzero
  · rfl
  · exact absurd h (not_isNaN_inf (xorSign_lt _ _))
  · exact absurd h (not_isNaN_zero (xorSign_lt _ _))
  · obtain ⟨hx0, hy0⟩ := not_or.1 hzero
    have hpos := abs_pos.2 (mul_ne_zero (mt val_eq_zero_iff.1 hx0) (mt val_eq_zero_iff.1 hy0))
    exact absurd h (not_isNaN_roundPack (xorSign_lt _ _) hpos)

theorem isNaN_div (h : Exact.IsNaN f (Exact.div f x.toNat y.toNat)) : Exact.div f x.toNat y.toNat = Exact.indNaN f := by
  unfold Exact.div at h ⊢
  simp only [if_neg hx, if_neg hy] at h ⊢
  split_ifs at h ⊢ with hinvalid hy0 hx0 hxInf hyInf
  · rfl
  · exact absurd h (not_isNaN_inf (xorSign_lt _ _))
  · exact absurd h (not_isNaN_zero (xorSign_lt _ _))
  · exact absurd h (not_isNaN_inf (xorSign_lt _ _))
  · exact absurd h (not_isNaN_zero (xorSign_lt _ _))
  · have hpos := abs_pos.2 (div_ne_zero (mt val_eq_zero_iff.1 hx0) (mt val_eq_zero_iff.1 hy0))
    exact absurd h (not_isNaN_roundPack (xorSign_lt _ _) hpos)

end

/-- Settles O44: the response is that of the result, which does not depend on the order of the operands (`addF_comm`,
`mulF_comm`). -/
theorem addAndMultiplyCommute : Obligations.AddAndMultiplyCommute := by
  unfold Obligations.AddAndMultiplyCommute
  intro f s t ha hb hx hy
  have hA : operandA f.W t = operandB f.W s := congrArg _ ha
  have hB : operandB f.W t = operandA f.W s := congrArg _ hb
  rw [portA, ← operandA_toNat] at hx
  rw [portB, ← operandB_toNat] at hy
  have hadd : addF f (operandA f.W t) (operandB f.W t) = addF f (operandA f.W s) (operandB f.W s) := by rw [hA, hB, addF_comm hx hy]
  have hmul : mulF f (operandA f.W t) (operandB f.W t) = mulF f (operandA f.W s) (operandB f.W s) := by rw [hA, hB, mulF_comm hx hy]
  simp only [exec, execFadd, execFmul, responseOf_completeRes, hadd, hmul, and_self]

/-- The sign unit keeps the class. -/
theorem isNaN_negate {f : Fmt} {n : Nat} : Exact.IsNaN f (Exact.negate f n) ↔ Exact.IsNaN f n := by
  have hlow : Exact.negate f n % 2 ^ (f.W - 1) = n % 2 ^ (f.W - 1) := by
    rw [Exact.negate, Nat.mod_mod_of_dvd _ (pow_dvd_pow 2 (Nat.sub_le f.W 1)), Nat.add_mod_right]
  have hbiased : ∀ m, Exact.biased f m = m % 2 ^ (f.W - 1) / 2 ^ f.S := fun m => by
    rw [pow_W_pred, mul_comm, Nat.mod_mul_right_div_self, Exact.biased]
  have htrailing : ∀ m, Exact.trailing f m = m % 2 ^ (f.W - 1) % 2 ^ f.S := fun m => by
    rw [pow_W_pred, Nat.mod_mul_left_mod, Exact.trailing]
  rw [Exact.IsNaN, Exact.IsNaN, hbiased, htrailing, hlow, ← hbiased, ← htrailing]

theorem isNaN_of_isNaN_convertFF {f g : Fmt} {x : BitVec f.W} (h : Exact.IsNaN g (Exact.convertFF f g x.toNat)) :
    Exact.IsNaN f x.toNat := by
  unfold Exact.convertFF at h
  by_contra hnan
  split_ifs at h with hsame hinf hzero
  · exact hnan (hsame ▸ h)
  · exact not_isNaN_inf (sign_lt _) h
  · exact not_isNaN_zero (sign_lt _) h
  · exact not_isNaN_roundPack (sign_lt _) (abs_pos.2 (mt val_eq_zero_iff.1 hzero)) h

/-- Settles O45: without a NaN operand every result but IndNaN is an operand, a constant or a rounded value. -/
theorem noOtherNaNIsCreated : Obligations.NoOtherNaNIsCreated := by
  unfold Obligations.NoOtherNaNIsCreated
  intro f g w n s t
  have hA : (operandA f.W s).toNat = portA f.W s := operandA_toNat f.W s
  have hB : (operandB f.W s).toNat = portB f.W s := operandB_toNat f.W s
  have harith : ∀ r : BitVec f.W, completeRes r s = .next t →
      (¬ Exact.IsNaN f (portA f.W s) → ¬ Exact.IsNaN f (portB f.W s) → Exact.IsNaN f r.toNat → r.toNat = Exact.indNaN f) →
      Exact.IsNaN f t.res.toNat →
      Exact.IsNaN f (portA f.W s) ∨ Exact.IsNaN f (portB f.W s) ∨ t.res.toNat = Exact.indNaN f := by
    intro r hnext hr hnan
    obtain ⟨hres, -⟩ := answers_of_next (completeRes_answers f.W_le s rfl) hnext
    rw [hres] at hnan ⊢
    by_cases hx : Exact.IsNaN f (portA f.W s)
    · exact .inl hx
    by_cases hy : Exact.IsNaN f (portB f.W s)
    · exact .inr (.inl hy)
    · exact .inr (.inr (hr hx hy hnan))
  rw [← hA, ← hB] at harith ⊢
  refine ⟨?arith, fun hnext hnan => ?fcvtFF, fun hnext => ?fcvtFI⟩
  case arith =>
    rintro (hnext | hnext | hnext | hnext)
    · refine harith _ hnext fun hx hy => ?_
      rw [addF_exact]
      exact isNaN_add hx hy
    · refine harith _ hnext fun hx hy => ?_
      rw [subF, addF_exact]
      exact isNaN_add hx (by rwa [negateF_exact, isNaN_negate])
    · refine harith _ hnext fun hx hy => ?_
      rw [mulF_exact]
      exact isNaN_mul hx hy
    · refine harith _ hnext fun hx hy => ?_
      rw [divF_exact]
      exact isNaN_div hx hy
  case fcvtFF =>
    obtain ⟨hres, -⟩ := answers_of_next (completeRes_answers g.W_le s (convertFF_exact f g _)) hnext
    exact isNaN_of_isNaN_convertFF (hres ▸ hnan)
  case fcvtFI =>
    obtain ⟨hres, -⟩ := answers_of_next (completeRes_answers f.W_le s (convertFI_exact f _)) hnext
    rw [hres]
    exact not_isNaN_convertFI _

end Sys2Proof.FpPairs
end

section
/-! Round trips between formats and integer types (47_fp_convert.md R314, R317): a whole number of units in the last place is not
changed by rounding, so a float is rounded to itself. -/

namespace Sys2Proof.FpRoundTrips

open Sys2Proof.Machine Sys2Proof.Safety Sys2Proof.IntArith Sys2Proof.FpDatapath Sys2Proof.FpAddSub Sys2Proof.FpMul
  Sys2Proof.FpConvert Sys2Proof.FpRounding Sys2Proof.FpValues Sys2Proof.FpPairs

/-! ### Values that rounding keeps (R211) -/

/-- A whole number of units in the last place, in range, is the magnitude of its rounding. -/
theorem roundPack_of_whole {f : Fmt} {s n : Nat} {v : ℚ} (hs : s < 2) (hv : 0 < v) (hwhole : v = n * 2 ^ ulpExp f v)
    (hlt : v < 2 ^ (f.emax + 1)) :
    Exact.IsFinite f (Exact.roundPack f s v) ∧ Exact.sign f (Exact.roundPack f s v) = s ∧
      Exact.val f (Exact.roundPack f s v) = (-1) ^ s * v := by
  have hround : (roundedSig f v : ℚ) * 2 ^ ulpExp f v = v := by rw [roundedSig_of_whole f hv hwhole, ← hwhole]
  obtain ⟨hfinite, hsign, hval, -⟩ := roundPack_of_not_overflow f hs hv (hround.trans_lt hlt)
  exact ⟨hfinite, hsign, hval.trans (by rw [hround])⟩

theorem log_le_of_lt_two_pow {v : ℚ} {k : Int} (hv : 0 < v) (h : v < 2 ^ (k + 1)) : Int.log 2 v ≤ k :=
  Int.lt_add_one_iff.1 ((Int.lt_zpow_iff_log_lt one_lt_two hv).1 (by exact_mod_cast h))

theorem emin_le_exponent (f : Fmt) (x : Nat) : f.emin ≤ Exact.exponent f x := by
  have := f.emin_eq
  unfold Exact.exponent
  split <;> omega

/-- A value is a whole number of units in the last place of any format with no fewer bits and no smaller range. -/
theorem exists_abs_val_eq_ulp {f g : Fmt} {x : Nat} (hS : f.S ≤ g.S) (hemin : g.emin ≤ f.emin) (hx : 0 < |Exact.val f x|) :
    ∃ n : Nat, |Exact.val f x| = n * 2 ^ ulpExp g |Exact.val f x| := by
  have hlog := log_le_of_lt_two_pow hx (abs_val_lt f x)
  have hexp := emin_le_exponent f x
  obtain ⟨j, hj⟩ := exists_val_eq_mul f x (k := ulpExp g |Exact.val f x|) (by unfold ulpExp; omega)
  refine ⟨j.natAbs, ?_⟩
  have hunit : (0 : ℚ) < 2 ^ ulpExp g |Exact.val f x| := by positivity
  conv_lhs => rw [hj, abs_mul, abs_of_pos hunit]
  rw [Nat.cast_natAbs, Int.cast_abs]

/-- A finite value is in range. -/
theorem abs_val_lt_emax {f : Fmt} {x : Nat} (h : Exact.IsFinite f x) : |Exact.val f x| < 2 ^ (f.emax + 1) := by
  have hlt : Exact.biased f x < 2 ^ f.E := Nat.mod_lt _ (Nat.two_pow_pos _)
  have hB := f.two_B
  rw [Exact.IsFinite] at h
  refine (abs_val_lt f _).trans_le (zpow_le_zpow_right₀ one_le_two ?_)
  have hmin := f.emin_eq
  have hmax := f.emax_eq
  have hpos := f.B_pos
  unfold Exact.exponent
  split <;> omega

/-- The value of the fields of a finite float is rounded to those fields. -/
theorem roundPack_fieldValue {f : Fmt} {s be t : Nat} (hs : s < 2) (hbe : be < 2 ^ f.E - 1) (ht : t < 2 ^ f.S)
    (hpos : 0 < fieldValue f be t) : Exact.roundPack f s (fieldValue f be t) = Exact.packed f s be t := by
  have hbe' : be < 2 ^ f.E := hbe.trans_le (Nat.pred_le _)
  obtain ⟨-, hbiased, -⟩ := packed_fields hs hbe' ht
  have habs : |Exact.val f (Exact.packed f s be t)| = fieldValue f be t := by
    rw [val_packed hs hbe' ht, abs_mul, abs_neg_one_pow, one_mul, abs_of_pos hpos]
  have hlt := abs_val_lt_emax (f := f) (x := Exact.packed f s be t) (by rw [Exact.IsFinite, hbiased]; exact hbe.ne)
  obtain ⟨n, hn⟩ := exists_abs_val_eq_ulp le_rfl le_rfl (habs ▸ hpos)
  rw [habs] at hlt hn
  have hround : (roundedSig f (fieldValue f be t) : ℚ) * 2 ^ ulpExp f (fieldValue f be t) = fieldValue f be t := by
    rw [roundedSig_of_whole f hpos hn, ← hn]
  obtain ⟨-, hover⟩ | ⟨be', t', hr, -, ht', hvalue, -⟩ := roundPack_cases f s hpos
  · rw [hround] at hover
    exact absurd hlt hover.not_gt
  · rw [hround, fieldValue_eq_magValue f _ ht', fieldValue_eq_magValue f _ ht] at hvalue
    rw [hr, Exact.packed, Exact.packed, Nat.add_assoc, (magValue_strictMono f).injective hvalue, ← Nat.add_assoc]

/-- A float is rounded to itself. -/
theorem roundPack_val {f : Fmt} {x : BitVec f.W} (hfinite : Exact.IsFinite f x.toNat) (hzero : ¬ Exact.IsZero f x.toNat) :
    Exact.roundPack f (Exact.sign f x.toNat) |Exact.val f x.toNat| = x.toNat := by
  have hpos : 0 < |Exact.val f x.toNat| := abs_pos.2 (mt val_eq_zero_iff.1 hzero)
  have hlt : Exact.biased f x.toNat < 2 ^ f.E := Nat.mod_lt _ (Nat.two_pow_pos _)
  rw [Exact.IsFinite] at hfinite
  rw [abs_val_eq_fieldValue] at hpos ⊢
  rw [roundPack_fieldValue (sign_lt _) (by omega) (trailing_lt f _) hpos]
  exact (toNat_eq_packed f x).symm

/-! ### Widening and narrowing back (R314) -/

theorem range_of_wider {f g : Fmt} (h : f.S < g.S) : g.emin ≤ f.emin ∧ f.emax ≤ g.emax := by
  revert h
  cases f <;> cases g <;> decide

section
variable {f g : Fmt} {x : BitVec f.W} (hwider : f.S < g.S)
include hwider

/-- A wider format holds every finite value. -/
theorem widened_fields (hfinite : Exact.IsFinite f x.toNat) (hzero : ¬ Exact.IsZero f x.toNat) :
    let y := Exact.roundPack g (Exact.sign f x.toNat) |Exact.val f x.toNat|
    Exact.IsFinite g y ∧ Exact.sign g y = Exact.sign f x.toNat ∧ |Exact.val g y| = |Exact.val f x.toNat| := by
  obtain ⟨hemin, hemax⟩ := range_of_wider hwider
  have hpos : 0 < |Exact.val f x.toNat| := abs_pos.2 (mt val_eq_zero_iff.1 hzero)
  obtain ⟨n, hn⟩ := exists_abs_val_eq_ulp hwider.le hemin hpos
  have hlt : |Exact.val f x.toNat| < 2 ^ (g.emax + 1) :=
    (abs_val_lt_emax hfinite).trans_le (zpow_le_zpow_right₀ one_le_two (by omega))
  obtain ⟨hyfinite, hysign, hyval⟩ := roundPack_of_whole (sign_lt (f := f) x.toNat) hpos hn hlt
  refine ⟨hyfinite, hysign, ?_⟩
  rw [hyval, abs_mul, abs_neg_one_pow, one_mul, abs_abs]

/-- Class by class, the narrowed pattern of a widened one is the pattern. -/
theorem convertFF_convertFF : convertFF g f (convertFF f g x) = x := by
  have hne : f ≠ g := fun h => hwider.ne (congrArg Fmt.S h)
  rw [← BitVec.toNat_inj, convertFF_exact]
  generalize hy : convertFF f g x = y
  replace hy : Exact.convertFF f g x.toNat = y.toNat := by rw [← hy, convertFF_exact]
  rw [Exact.convertFF, if_neg hne] at hy
  rw [Exact.convertFF, if_neg hne.symm]
  have hmax : 2 ^ g.E - 1 < 2 ^ g.E := Nat.sub_one_lt (Nat.two_pow_pos g.E).ne'
  by_cases hnan : Exact.IsNaN f x.toNat
  · obtain ⟨hbiased, htrailing⟩ := hnan
    rw [if_pos ⟨hbiased, htrailing⟩, Exact.payload, if_pos hwider] at hy
    have hpayload := convertPayload_lt f g (trailing_lt f x.toNat)
    rw [convertPayload, if_pos hwider] at hpayload
    obtain ⟨hysign, hybiased, hytrailing⟩ := packed_fields (sign_lt (f := f) x.toNat) hmax hpayload
    rw [hy] at hysign hybiased hytrailing
    rw [if_pos ⟨hybiased, by rw [hytrailing]; positivity⟩, hysign, hytrailing, Exact.payload, if_neg hwider.not_gt,
      Nat.mul_div_cancel _ (Nat.two_pow_pos _), if_neg htrailing, ← hbiased]
    exact (toNat_eq_packed f x).symm
  rw [if_neg hnan] at hy
  by_cases hinf : Exact.IsInf f x.toNat
  · rw [if_pos hinf] at hy
    obtain ⟨hysign, hyinf⟩ := inf_fields (f := g) (sign_lt (f := f) x.toNat)
    rw [hy] at hysign hyinf
    rw [if_neg fun h => h.2 hyinf.2, if_pos hyinf, hysign, ← eq_inf_of_isInf hinf]
  rw [if_neg hinf] at hy
  by_cases hzero : Exact.IsZero f x.toNat
  · rw [if_pos hzero] at hy
    obtain ⟨hysign, hyzero⟩ := zero_fields (f := g) (sign_lt (f := f) x.toNat)
    rw [hy] at hysign hyzero
    have hyfinite := hyzero.1.trans_ne (two_pow_E_pred_ne_zero g).symm
    rw [if_neg fun h => hyfinite h.1, if_neg fun h => hyfinite h.1, if_pos hyzero, hysign, zero_eq_packed, ← hzero.1]
    conv_rhs => rw [toNat_eq_packed f x, hzero.1, hzero.2]
    rw [hzero.1]
  rw [if_neg hzero] at hy
  have hfinite := isFinite_of_isNormal_or_isSubnormal f (isNormal_or_isSubnormal f hnan hinf hzero)
  obtain ⟨hyfinite, hysign, hyval⟩ := widened_fields hwider hfinite hzero
  rw [hy] at hyfinite hysign hyval
  have hyzero : ¬ Exact.IsZero g y.toNat := by
    rw [← val_eq_zero_iff, ← abs_eq_zero, hyval, abs_eq_zero, val_eq_zero_iff]
    exact hzero
  rw [if_neg fun h => hyfinite h.1, if_neg fun h => hyfinite h.1, if_neg hyzero, hysign, hyval, roundPack_val hfinite hzero]

end

/-- A result written to RES and read from port A is the operand. -/
theorem operandA_of_completeRes {n : Nat} (hn : n ≤ 128) {r : BitVec n} {s t u : State} (hnext : completeRes r s = .next t)
    (hport : u.a = t.res) : operandA n u = r := by
  obtain ⟨hres, -⟩ := answers_of_next (completeRes_answers hn s rfl) hnext
  rw [← BitVec.toNat_inj, operandA_toNat, hport, hres, Nat.mod_eq_of_lt r.isLt]

/-- Settles O47: the second conversion reads the pattern that the first one wrote (`convertFF_convertFF`). -/
theorem widenNarrowRoundTrip : Obligations.WidenNarrowRoundTrip := by
  unfold Obligations.WidenNarrowRoundTrip
  intro f g s t u hwider hnext hport
  have hoperand : operandA g.W u = convertFF f g (operandA f.W s) := operandA_of_completeRes g.W_le hnext hport
  exact completeRes_answers f.W_le u (by rw [hoperand, convertFF_convertFF hwider, operandA_toNat, portA])

/-! ### Integers of at most S + 1 bits, and 2^(S+1) (R317) -/

/-- Such a magnitude is a whole number of units in the last place: at most 1, and 2 for 2^(S+1). -/
theorem exists_natCast_eq_ulp (f : Fmt) {n : Nat} (hpos : 0 < n) (hle : n ≤ 2 ^ (f.S + 1)) :
    ∃ m : Nat, (n : ℚ) = m * 2 ^ ulpExp f n := by
  have hemin := emin_lt_emax f
  have hS := f.S_succ_le_emax
  rw [f.emin_eq] at hemin
  have hB := f.B_pos
  obtain hlt | rfl := hle.lt_or_eq
  · have hlog : Int.log 2 (n : ℚ) ≤ f.S := by
      apply log_le_of_lt_two_pow (Nat.cast_pos.2 hpos)
      exact_mod_cast hlt
    have hulp : ulpExp f n ≤ 0 := by rw [ulpExp, f.emin_eq]; omega
    refine ⟨n * 2 ^ (ulpExp f n).natAbs, ?_⟩
    have hcancel : (2 : ℚ) ^ (ulpExp f n).natAbs * 2 ^ ulpExp f n = 1 := by
      rw [← zpow_natCast, Int.ofNat_natAbs_of_nonpos hulp, ← zpow_add₀ two_ne_zero, neg_add_cancel, zpow_zero]
    rw [Nat.cast_mul, Nat.cast_pow, Nat.cast_ofNat, mul_assoc, hcancel, mul_one]
  · have hlog : Int.log 2 ((2 ^ (f.S + 1) : Nat) : ℚ) = f.S + 1 := by
      have := Int.log_zpow (R := ℚ) (b := 2) one_lt_two (f.S + 1)
      rw [← this]
      norm_cast
    have hulp : ulpExp f ((2 ^ (f.S + 1) : Nat) : ℚ) = 1 := by rw [ulpExp, hlog, f.emin_eq]; omega
    exact ⟨2 ^ f.S, by rw [hulp, zpow_one, pow_succ]; push_cast; rfl⟩

theorem signOf_mul_abs (q : ℚ) : (-1) ^ Exact.signOf q * |q| = q := by
  unfold Exact.signOf
  split
  next hneg => rw [abs_of_neg hneg, pow_one, neg_one_mul, neg_neg]
  next hpos => rw [abs_of_nonneg (not_lt.1 hpos), pow_zero, one_mul]

theorem trunc_intCast (v : Int) : Exact.trunc v = v := by
  unfold Exact.trunc
  rw [← Int.cast_neg, Int.floor_intCast, Int.floor_intCast, neg_neg, ite_self]

/-- The range test passes for a number of the type. -/
theorem readAs_in_range (g : Sgn) {n v : Nat} (hn : 0 < n) (hv : v < 2 ^ n) :
    Exact.lowest g n ≤ readAs g n v ∧ readAs g n v ≤ Exact.highest g n := by
  obtain ⟨hsigned, hunsigned⟩ := readAs_bounds (g := g) hn hv
  cases g
  case unsigned =>
    obtain ⟨hlow, hhigh⟩ := hunsigned rfl
    exact ⟨hlow, Int.le_sub_one_of_lt hhigh⟩
  case signed =>
    obtain ⟨hlow, hhigh⟩ := hsigned rfl
    exact ⟨hlow, Int.le_sub_one_of_lt hhigh⟩

/-- The float of such an integer has its value, and the conversion back truncates nothing. -/
theorem convertIF_convertFI (c : Bool) (f : Fmt) (g : Sgn) {n v : Nat} (hn : 0 < n) (hv : v < 2 ^ n) {x : BitVec f.W}
    (hx : x.toNat = Exact.convertFI f (readAs g n v)) (hle : (readAs g n v).natAbs ≤ 2 ^ (f.S + 1)) :
    Exact.convertIF c f g n x.toNat = v := by
  have hwrap := wrap_readAs g n v hv
  obtain ⟨hlow, hhigh⟩ := readAs_in_range g hn hv
  generalize readAs g n v = i at *
  rw [wrap] at hwrap
  rw [Exact.convertIF]
  by_cases hi : i = 0
  · subst hi
    rw [Exact.convertFI, if_pos rfl] at hx
    have hzero := (zero_fields (f := f) two_pos).2
    rw [← hx] at hzero
    have hfinite := hzero.1.trans_ne (two_pow_E_pred_ne_zero f).symm
    rw [if_neg fun h => hfinite h.1, if_neg fun h => hfinite h.1, if_pos hzero, ← hwrap, Int.zero_emod, Int.toNat_zero]
  · have hpos : 0 < |(i : ℚ)| := abs_pos.2 (Int.cast_ne_zero.2 hi)
    have habs : |(i : ℚ)| = i.natAbs := by rw [Nat.cast_natAbs, Int.cast_abs]
    have hlt : |(i : ℚ)| < 2 ^ (f.emax + 1) := by
      calc |(i : ℚ)| ≤ (2 ^ (f.S + 1) : Nat) := habs.trans_le (Nat.cast_le.2 hle)
        _ = 2 ^ ((f.S + 1 : Nat) : Int) := by rw [zpow_natCast]; push_cast; rfl
        _ < 2 ^ (f.emax + 1) := zpow_lt_zpow_right₀ one_lt_two (by have := f.S_succ_le_emax; push_cast; omega)
    obtain ⟨m, hm⟩ := exists_natCast_eq_ulp f (Int.natAbs_pos.2 hi) hle
    rw [← habs] at hm
    obtain ⟨hfinite, -, hval⟩ := roundPack_of_whole (signOf_lt (i : ℚ)) hpos hm hlt
    rw [signOf_mul_abs] at hval
    rw [Exact.convertFI, if_neg hi] at hx
    rw [← hx] at hfinite hval
    have hzero : ¬ Exact.IsZero f x.toNat := by
      rw [← val_eq_zero_iff, hval, Int.cast_eq_zero]
      exact hi
    rw [if_neg fun h => hfinite h.1, if_neg fun h => hfinite h.1, if_neg hzero, hval, trunc_intCast, if_neg hlow.not_gt,
      if_neg hhigh.not_gt, hwrap]

/-- Settles O50: the second conversion reads the pattern that the first one wrote (`convertIF_convertFI`), whatever the build. -/
theorem integerRoundTrip : Obligations.IntegerRoundTrip := by
  unfold Obligations.IntegerRoundTrip
  intro f w g s t u hle hnext hport
  have hoperand : operandA f.W u = convertFI f (ival g (operandA w.bits s)) := operandA_of_completeRes f.W_le hnext hport
  refine completeRes_answers w.bits_le u ?_
  rw [convertIF_exact]
  exact convertIF_convertFI _ f g w.bits_pos (portA_lt w.bits s) (by rw [hoperand, convertFI_exact, ival_operandA]) hle

end Sys2Proof.FpRoundTrips
end

section
/-! The round-off word and the rounding stage (43_fp_datapath.md R213, R214). A number kept with a sticky bit is on the same side of
every even number of units as the exact one; the stages keep that, and nearest even needs no more. -/

namespace Sys2Proof.FpStages

open Sys2Proof.Machine Sys2Proof.Safety Sys2Proof.FpDatapath Sys2Proof.FpMul Sys2Proof.FpRounding

/-! ### Numbers on the same side of every multiple of a step -/

/-- No multiple of `g` tells `x` from `y`. -/
def SameSide (g x y : ℚ) : Prop := ∀ k : ℤ, (k * g ≤ x ↔ k * g ≤ y) ∧ (x ≤ k * g ↔ y ≤ k * g)

namespace SameSide
variable {g x y z : ℚ}

theorem refl (g x : ℚ) : SameSide g x x := fun _ => ⟨Iff.rfl, Iff.rfl⟩

theorem trans (h : SameSide g x y) (h' : SameSide g y z) : SameSide g x z := fun k =>
  ⟨(h k).1.trans (h' k).1, (h k).2.trans (h' k).2⟩

theorem scale {c : ℚ} (hc : 0 < c) (h : SameSide g x y) : SameSide (c * g) (c * x) (c * y) := fun k => by
  rw [mul_left_comm, mul_le_mul_iff_right₀ hc, mul_le_mul_iff_right₀ hc, mul_le_mul_iff_right₀ hc, mul_le_mul_iff_right₀ hc]
  exact h k

theorem coarsen (n : ℤ) (h : SameSide g x y) : SameSide (n * g) x y := fun k => by
  rw [← mul_assoc, ← Int.cast_mul]
  exact h (k * n)

theorem div_natCast {n : ℕ} (hn : 0 < n) (h : SameSide g x y) : SameSide g (x / n) (y / n) := by
  have hpos : (0 : ℚ) < n := Nat.cast_pos.2 hn
  have := (h.scale (inv_pos.2 hpos)).coarsen n
  rwa [Int.cast_natCast, mul_inv_cancel_left₀ hpos.ne', inv_mul_eq_div, inv_mul_eq_div] at this

theorem add_multiple (n : ℤ) (h : SameSide g x y) : SameSide g (n * g + x) (n * g + y) := fun k => by
  have := h (k - n)
  push_cast [sub_mul] at this
  rwa [sub_le_iff_le_add', sub_le_iff_le_add', le_sub_iff_add_le', le_sub_iff_add_le'] at this

theorem neg (h : SameSide g x y) : SameSide g (-x) (-y) := fun k => by
  have := h (-k)
  push_cast [neg_mul] at this
  rw [le_neg, le_neg (b := y), neg_le, neg_le (a := y)]
  exact this.symm

theorem le_iff (h : SameSide g x y) (k : ℤ) : k * g ≤ x ↔ k * g ≤ y := (h k).1

end SameSide

theorem or_one_eq (n : ℕ) : n ||| 1 = 2 * (n / 2) + 1 := by
  have hhigh : (n ||| 1) / 2 = n / 2 := by simp [Nat.or_div_two]
  have hlow : (n ||| 1) % 2 = 1 := by simp
  omega

/-- The sticky bit: an odd number stands for all that is strictly between two even ones (R213). -/
theorem sameSide_sticky (p : ℕ) {q : ℕ} (hq : 0 < q) :
    SameSide 2 ((if p % q = 0 then p / q else p / q ||| 1 : ℕ) : ℚ) ((p : ℚ) / q) := by
  have hq' : (0 : ℚ) < q := Nat.cast_pos.2 hq
  have hdiv := Nat.div_add_mod p q
  have hlt := Nat.mod_lt p hq
  split
  case isTrue hzero =>
    rw [hzero, Nat.add_zero] at hdiv
    have heq : ((p / q : ℕ) : ℚ) = p / q := by
      rw [eq_div_iff hq'.ne', mul_comm]
      exact_mod_cast hdiv
    rw [heq]
    exact .refl _ _
  case isFalse hrest =>
    have hodd := or_one_eq (p / q)
    intro k
    rw [le_div_iff₀ hq', div_le_iff₀ hq', hodd]
    generalize p / q = n at *
    generalize p % q = t at *
    subst hdiv
    have hlow : (k * 2 : ℤ) * q ≤ (q * n + t : ℕ) ↔ k * 2 ≤ n := by
      constructor
      · intro h
        by_contra hgt
        push_cast at h
        nlinarith
      · intro h
        push_cast
        nlinarith
    have hhigh : ((q * n + t : ℕ) : ℤ) ≤ k * 2 * q ↔ n + 1 ≤ k * 2 := by
      constructor
      · intro h
        by_contra hgt
        push_cast at h
        nlinarith [Nat.pos_of_ne_zero hrest]
      · intro h
        push_cast
        nlinarith
    rw [← Int.cast_natCast (2 * (n / 2) + 1)]
    norm_cast
    rw [hlow, hhigh]
    omega

/-- Round to nearest even asks only for the side of the halves (R210). -/
theorem rne_congr {x y : ℚ} (h : SameSide (1 / 2) x y) : Exact.rne x = Exact.rne y := by
  have hfloor : ⌊x⌋ = ⌊y⌋ := by
    refine eq_of_forall_le_iff fun n => ?_
    have := h.le_iff (2 * n)
    rwa [show ((2 * n : ℤ) : ℚ) * (1 / 2) = n by push_cast; ring, ← Int.le_floor, ← Int.le_floor] at this
  obtain ⟨hle, hge⟩ := h (2 * ⌊x⌋ + 1)
  have hhalf : ((2 * ⌊x⌋ + 1 : ℤ) : ℚ) * (1 / 2) = ⌊x⌋ + 1 / 2 := by push_cast; ring
  rw [hhalf] at hle hge
  have hgt : 1 / 2 < Int.fract x ↔ 1 / 2 < Int.fract y := by
    rw [Int.fract, Int.fract, ← hfloor, lt_sub_iff_add_lt', lt_sub_iff_add_lt', ← not_le, ← not_le, hge]
  have heq : Int.fract x = 1 / 2 ↔ Int.fract y = 1 / 2 := by
    rw [Int.fract, Int.fract, ← hfloor, sub_eq_iff_eq_add', sub_eq_iff_eq_add', le_antisymm_iff, le_antisymm_iff, hle, hge]
  simp only [Exact.rne, hfloor, hgt, heq]

/-! ### A stage and the magnitude that it stands for (R213) -/

/-- The weight of bit 0 of the round-off word. -/
def wordUnit (f : Fmt) (e : ℤ) : ℚ := 2 ^ (e - f.S - f.W)

/-- The significand and the round-off word as one number. -/
def stageWord (f : Fmt) (t : Stage) : ℕ := t.m * 2 ^ f.W + t.r

/-- A stage stands for the magnitude `v` as far as a step of 2^j of the word tells. -/
structure Represents (f : Fmt) (j : ℕ) (t : Stage) (v : ℚ) : Prop where
  r_lt : t.r < 2 ^ f.W
  sameSide : SameSide (2 ^ j) (stageWord f t) (v / wordUnit f t.e)

/-- The exponent of the result before a carry (R211). -/
def resultExp (f : Fmt) (v : ℚ) : ℤ := max (Int.log 2 v) f.emin

section
variable (f : Fmt) (e : ℤ)

theorem wordUnit_pos : 0 < wordUnit f e := zpow_pos two_pos _

theorem wordUnit_mul_two_pow : 2 ^ f.W * wordUnit f e = 2 ^ (e - f.S) := by
  rw [wordUnit, ← zpow_natCast, ← zpow_add₀ two_ne_zero, add_sub_cancel]

theorem wordUnit_add (d : ℕ) : wordUnit f (e + d) = 2 ^ d * wordUnit f e := by
  rw [wordUnit, wordUnit, ← zpow_natCast, ← zpow_add₀ two_ne_zero]
  congr 1
  ring

end

theorem log_eq_of_between {v : ℚ} {e : ℤ} (hlow : 2 ^ e ≤ v) (hhigh : v < 2 ^ (e + 1)) : Int.log 2 v = e := by
  have hv : 0 < v := lt_of_lt_of_le (by positivity) hlow
  refine le_antisymm (FpRoundTrips.log_le_of_lt_two_pow hv hhigh) ?_
  exact (Int.zpow_le_iff_le_log one_lt_two hv).1 (by exact_mod_cast hlow)

theorem resultExp_of_log {f : Fmt} {v : ℚ} {e : ℤ} (h : Int.log 2 v = e) (hemin : f.emin ≤ e) : resultExp f v = e := by
  rw [resultExp, h, max_eq_left hemin]

theorem resultExp_of_lt {f : Fmt} {v : ℚ} (hv : 0 < v) (h : v < 2 ^ (f.emin + 1)) : resultExp f v = f.emin := by
  rw [resultExp, max_eq_right (FpRoundTrips.log_le_of_lt_two_pow hv h)]

namespace Represents
variable {f : Fmt} {j : ℕ} {t : Stage} {v : ℚ}

theorem coarsen {j' : ℕ} (hj : j ≤ j') (h : Represents f j t v) : Represents f j' t v where
  r_lt := h.r_lt
  sameSide := by
    have := h.sameSide.coarsen (2 ^ (j' - j))
    push_cast at this
    rwa [← pow_add, Nat.sub_add_cancel hj] at this

/-- A number divided into significand and word. -/
theorem of_word {e : ℤ} {w : ℕ} (h : SameSide (2 ^ j) w (v / wordUnit f e)) :
    Represents f j { e := e, m := w / 2 ^ f.W, r := w % 2 ^ f.W } v where
  r_lt := Nat.mod_lt _ (Nat.two_pow_pos _)
  sameSide := by
    rw [stageWord, Nat.div_add_mod']
    exact h

/-- A significand alone stands for its value exactly. -/
theorem of_significand (f : Fmt) (j : ℕ) (e : ℤ) (m : ℕ) : Represents f j { e := e, m := m, r := 0 } (m * 2 ^ (e - f.S)) where
  r_lt := by
    dsimp only
    positivity
  sameSide := by
    rw [← wordUnit_mul_two_pow, ← mul_assoc, mul_div_cancel_right₀ _ (wordUnit_pos f e).ne', stageWord, add_zero]
    push_cast
    exact .refl _ _

/-- The significand is at least `n` when the magnitude is. -/
theorem le_m_iff (hj : j ≤ f.W) (h : Represents f j t v) (n : ℕ) : n ≤ t.m ↔ n * 2 ^ (t.e - f.S) ≤ v := by
  have hside := h.sameSide.le_iff (n * 2 ^ (f.W - j) : ℕ)
  have hstep : (((n * 2 ^ (f.W - j) : ℕ) : ℤ) : ℚ) * 2 ^ j = ((n * 2 ^ f.W : ℕ) : ℚ) := by
    rw [Int.cast_natCast]
    push_cast
    rw [mul_assoc, ← pow_add, Nat.sub_add_cancel hj]
  rw [hstep, Nat.cast_le, le_div_iff₀ (wordUnit_pos f t.e), Nat.cast_mul, Nat.cast_pow, Nat.cast_ofNat, mul_assoc,
    wordUnit_mul_two_pow] at hside
  rw [← hside, ← Nat.le_div_iff_mul_le (Nat.two_pow_pos _), stageWord, Nat.add_comm, Nat.add_mul_div_right _ _ (Nat.two_pow_pos _),
    Nat.div_eq_of_lt h.r_lt, Nat.zero_add]

theorem two_pow_le_m_iff (hj : j ≤ f.W) (h : Represents f j t v) (d : ℕ) : 2 ^ (f.S + d) ≤ t.m ↔ 2 ^ (t.e + d) ≤ v := by
  rw [h.le_m_iff hj, Nat.cast_pow, Nat.cast_ofNat, ← zpow_natCast, ← zpow_add₀ two_ne_zero]
  congr! 2
  push_cast
  ring

end Represents

/-! ### The rounding stage (R214) -/

/-- Rounding up on the word is rounding the significand and the word as one number. -/
theorem roundUp_eq_roundNearestEven (f : Fmt) (m : ℕ) {r : ℕ} (hr : r < 2 ^ f.W) :
    (if decide (2 ^ (f.W - 1) < r) || (r == 2 ^ (f.W - 1) && m.testBit 0) then m + 1 else m) =
      roundNearestEven (m * 2 ^ f.W + r) (2 ^ f.W) := by
  have hW : 2 ^ f.W = 2 * 2 ^ (f.W - 1) := by rw [← pow_succ', Nat.sub_add_cancel (by have := f.W_ge; omega)]
  have hdiv : (m * 2 ^ f.W + r) / 2 ^ f.W = m := by
    rw [Nat.add_comm, Nat.add_mul_div_right _ _ (Nat.two_pow_pos _), Nat.div_eq_of_lt hr, Nat.zero_add]
  have hmod : (m * 2 ^ f.W + r) % 2 ^ f.W = r := by rw [Nat.mul_add_mod_self_right, Nat.mod_eq_of_lt hr]
  simp only [roundNearestEven, hdiv, hmod, Nat.testBit_zero, Bool.or_eq_true, Bool.and_eq_true, decide_eq_true_iff, beq_iff_eq]
  split_ifs <;> omega

/-- At the exponent of the result, the word is rounded to the rounded significand of what the stage stands for. -/
theorem roundNearestEven_stageWord {f : Fmt} {t : Stage} {v : ℚ} (h : Represents f (f.W - 1) t v) (hv : 0 < v)
    (he : t.e = resultExp f v) : roundNearestEven (stageWord f t) (2 ^ f.W) = roundedSig f v := by
  have hside := h.sameSide.scale (c := (2 ^ f.W)⁻¹) (by positivity)
  have hhalf : ((2 : ℚ) ^ f.W)⁻¹ * 2 ^ (f.W - 1) = 1 / 2 := by
    rw [← pow_sub_mul_pow (2 : ℚ) (show 1 ≤ f.W by have := f.W_ge; omega)]
    field_simp
  have hunit : ((2 : ℚ) ^ f.W)⁻¹ * (v / wordUnit f t.e) = v / 2 ^ ulpExp f v := by
    rw [inv_mul_eq_div, div_div, mul_comm, wordUnit_mul_two_pow, he]
    rfl
  rw [hhalf, hunit, inv_mul_eq_div] at hside
  have hrne := roundNearestEven_eq_rne (p := stageWord f t) (Nat.two_pow_pos f.W)
  rw [Nat.cast_pow, Nat.cast_ofNat] at hrne
  have hcast := hrne.trans (rne_congr hside)
  rw [← roundedSig_cast f hv] at hcast
  exact_mod_cast hcast

/-- With the exponent of the result, the rounding stage gives the exact rounding of what the stage stands for. -/
theorem roundUnit_exact {f : Fmt} {e : ℤ} {m r : ℕ} {v : ℚ} (s : Bool) (h : Represents f (f.W - 1) { e := e, m := m, r := r } v)
    (hv : 0 < v) (he : e = resultExp f v) : (roundUnit f s e m r).toNat = Exact.roundPack f s.toNat v := by
  have hsig := roundNearestEven_stageWord h hv he
  have hle := roundedSig_le f hv
  have hexp : e = ulpExp f v + f.S := he.trans (sub_add_cancel ..).symm
  rw [stageWord, ← roundUp_eq_roundNearestEven f m h.r_lt] at hsig
  rw [roundPack_eq_packRounded, ← hexp, packRounded, roundUnit]
  simp only [hsig, beq_iff_eq]
  generalize roundedSig f v = n at *
  have hlt : (if n = 2 ^ (f.S + 1) then 2 ^ f.S else n) < 2 ^ (f.S + 1) := by
    split
    · exact Nat.pow_lt_pow_succ one_lt_two
    · omega
  generalize (if n = 2 ^ (f.S + 1) then 2 ^ f.S else n) = n' at *
  generalize (if n = 2 ^ (f.S + 1) then e + 1 else e) = e2 at *
  split
  next => rw [infF_exact]
  next hover =>
    split
    next hlow => rw [recompose_exact s (not_lt.1 hover) hlow hlt]
    next hsub => rw [pack_exact f s (Nat.two_pow_pos _) (not_le.1 hsub)]

/-- Out of range the rounding stage gives the infinity itself. -/
theorem roundUnit_of_emax_lt {f : Fmt} {e : ℤ} (s : Bool) (m r : ℕ) (h : f.emax < e) : roundUnit f s e m r = infF f s := by
  rw [roundUnit]
  exact if_pos (by split <;> omega)

/-- Settles O39: the word with the sticky bit is the fraction as far as halves tell (`sameSide_sticky`), and either path has the
exponent of the result. -/
theorem roundUnitIsRoundPack : Obligations.RoundUnitIsRoundPack := by
  unfold Obligations.RoundUnitIsRoundPack
  intro f s e p q hp hq m w r hpath
  have hW := f.W_ge
  have hq' : (0 : ℚ) < q := Nat.cast_pos.2 hq
  have hv : (0 : ℚ) < (p : ℚ) / q * 2 ^ (e - (f.S : ℤ)) := by positivity
  have hrep : Represents f 1 { e := e, m := m, r := r } ((p : ℚ) / q * 2 ^ (e - (f.S : ℤ))) := by
    constructor
    case r_lt =>
      have hlt : w / q < 2 ^ f.W := Nat.div_lt_of_lt_mul (Nat.mul_lt_mul_of_pos_right (Nat.mod_lt p hq) (Nat.two_pow_pos _))
      simp only [r]
      split
      · exact hlt
      · exact Nat.or_lt_two_pow hlt (Nat.one_lt_two_pow (by omega))
    case sameSide =>
      have hside : SameSide 2 (((m * 2 ^ (f.W - 1) : ℕ) : ℤ) * 2 + (r : ℚ)) _ := (sameSide_sticky w hq).add_multiple _
      have hsplit : (p : ℚ) = q * m + (p % q : ℕ) := by exact_mod_cast (Nat.div_add_mod p q).symm
      have hpow : (2 : ℚ) ^ f.W = 2 ^ (f.W - 1) * 2 := by rw [← pow_succ, Nat.sub_add_cancel (by omega)]
      convert hside using 1
      · norm_num
      · simp only [stageWord, Int.cast_natCast]
        push_cast
        rw [hpow]
        ring
      · rw [← wordUnit_mul_two_pow, ← mul_assoc, mul_div_cancel_right₀ _ (wordUnit_pos f e).ne', hsplit]
        simp only [w, Int.cast_natCast]
        push_cast
        field_simp
        rw [hpow]
        ring
  have hlow := hrep.two_pow_le_m_iff (by omega) 0
  have hhigh := hrep.two_pow_le_m_iff (by omega) 1
  rw [Nat.cast_zero, add_zero, add_zero] at hlow
  have he : e = resultExp f ((p : ℚ) / q * 2 ^ (e - (f.S : ℤ))) := by
    obtain ⟨hge, hlt, hemin⟩ | ⟨hemin, hlt⟩ := hpath
    · exact (resultExp_of_log (log_eq_of_between (hlow.1 hge) (not_le.1 (mt hhigh.2 hlt.not_ge))) hemin).symm
    · have hless := not_le.1 (mt hlow.2 hlt.not_ge)
      have hstep : (2 : ℚ) ^ e < 2 ^ (e + 1) := zpow_lt_zpow_right₀ one_lt_two (by omega)
      rw [hemin] at hless hstep hv ⊢
      exact (resultExp_of_lt hv (hless.trans hstep)).symm
  rw [← BitVec.toNat_inj, roundUnit_exact s (hrep.coarsen (by omega)) hv he, roundPackIsTheExactRule f s _ hp hq]

end Sys2Proof.FpStages
end

section
/-! The stages of the multiplier, the divider and the converters (45_fp_mul.md R271 to R275, 46_fp_div.md R291 to R296,
47_fp_convert.md R312, R313, R316, R321): each stage stands for the exact magnitude, at the exponent that RoundPack takes. -/

namespace Sys2Proof.FpStages

open Sys2Proof.Machine Sys2Proof.Safety Sys2Proof.FpDatapath Sys2Proof.FpAddSub Sys2Proof.FpMul Sys2Proof.FpDiv Sys2Proof.FpConvert
  Sys2Proof.FpRounding

/-! ### Shifting right with the sticky bit, and the drift (R213, R274, R295, R313) -/

section
variable {f : Fmt} {t : Stage} {v : ℚ}

theorem represents_shiftSticky {e : ℤ} {m r d : ℕ}
    (h : SameSide 2 (((m * 2 ^ f.W + r : ℕ) : ℚ) / 2 ^ d) (v / wordUnit f e)) :
    Represents f 1 { e := e, m := (shiftSticky f.W m r d).1, r := (shiftSticky f.W m r d).2 } v := by
  have hsticky := sameSide_sticky (m * 2 ^ f.W + r) (Nat.two_pow_pos d)
  rw [Nat.cast_pow, Nat.cast_ofNat] at hsticky
  exact .of_word (by rw [pow_one]; exact hsticky.trans h)

theorem Represents.shift (h : Represents f 1 t v) (d : ℕ) :
    Represents f 1 { e := t.e + d, m := (shiftSticky f.W t.m t.r d).1, r := (shiftSticky f.W t.m t.r d).2 } v := by
  apply represents_shiftSticky
  have hdiv := h.sameSide.div_natCast (Nat.two_pow_pos d)
  rwa [pow_one, Nat.cast_pow, Nat.cast_ofNat, div_div, mul_comm, ← wordUnit_add] at hdiv

/-- Drifting brings a stage at the exponent of its magnitude, or below emin, to the exponent of the result. -/
theorem drift_represents (h : Represents f 1 t v) (he : Int.log 2 v = t.e ∨ Int.log 2 v ≤ t.e ∧ t.e < f.emin) :
    Represents f 1 (drift f t) v ∧ (drift f t).e = resultExp f v := by
  rw [resultExp, drift]
  split
  case isTrue hlow =>
    have hexp : t.e + ((f.emin - t.e).toNat : ℕ) = f.emin := by omega
    have hshift := h.shift (f.emin - t.e).toNat
    rw [hexp] at hshift
    exact ⟨hshift, by dsimp only; omega⟩
  case isFalse hhigh => exact ⟨h, by omega⟩

theorem drift_roundUnit_exact (s : Bool) (h : Represents f 1 t v) (hv : 0 < v)
    (he : Int.log 2 v = t.e ∨ Int.log 2 v ≤ t.e ∧ t.e < f.emin) :
    (roundUnit f s (drift f t).e (drift f t).m (drift f t).r).toNat = Exact.roundPack f s.toNat v := by
  obtain ⟨hrep, hexp⟩ := drift_represents h he
  exact roundUnit_exact s (hrep.coarsen (by have := f.W_ge; omega)) hv hexp

/-- The test for an exponent above emax before the rounding stage answers what the stage would. -/
theorem ite_emax_roundUnit (s : Bool) (e : ℤ) (m r : ℕ) :
    (if f.emax < e then infF f s else roundUnit f s e m r) = roundUnit f s e m r := by
  split
  next h => rw [roundUnit_of_emax_lt s m r h]
  next => rfl

theorem log_eq_of_word {e : ℤ} {p k : ℕ} (hlow : 2 ^ k ≤ p) (hhigh : p < 2 ^ (k + 1)) :
    Int.log 2 (p * wordUnit f e) = k + (e - f.S - f.W) := by
  have hpos := wordUnit_pos f e
  apply log_eq_of_between
  · rw [zpow_add₀ two_ne_zero, zpow_natCast]
    exact mul_le_mul_of_nonneg_right (by exact_mod_cast hlow) hpos.le
  · rw [add_right_comm, zpow_add₀ two_ne_zero]
    exact mul_lt_mul_of_pos_right (by exact_mod_cast hhigh) hpos

end

/-! ### Multiplier (R271 to R275) -/

section
variable {f : Fmt} {x y : BitVec f.W}

/-- Past the tests of the filters a pattern is a Normal or a Subnormal. -/
theorem isNormal_or_isSubnormal_of_tests (hnan : ¬ isNaN f x) (hinf : ¬ isInf f x) (hzero : ¬ isZero f x) :
    Exact.IsNormal f x.toNat ∨ Exact.IsSubnormal f x.toNat :=
  isNormal_or_isSubnormal f (mt (isNaN_iff f x).2 hnan) (mt (isInf_iff f x).2 hinf) (mt (isZero_iff f x).2 hzero)

theorem mulFilter_eq_none (h : mulFilter f x y = none) :
    (Exact.IsNormal f x.toNat ∨ Exact.IsSubnormal f x.toNat) ∧ (Exact.IsNormal f y.toNat ∨ Exact.IsSubnormal f y.toNat) := by
  unfold mulFilter at h
  split_ifs at h with hxNaN hyNaN hinvalid hinf hzero
  rw [Bool.or_eq_true, not_or] at hinf hzero
  exact ⟨isNormal_or_isSubnormal_of_tests hxNaN hinf.1 hzero.1, isNormal_or_isSubnormal_of_tests hyNaN hinf.2 hzero.2⟩

theorem significandProduct_eq {mx my : ℕ} (hx : mx < 2 ^ (f.S + 1)) (hy : my < 2 ^ (f.S + 1)) :
    significandProduct f mx my = mx * my * 2 ^ (f.W - f.S) := by
  have hW : 2 ^ (f.S + 1) ≤ 2 ^ f.W := Nat.pow_le_pow_right two_pos (by have := f.S_add_two_le_W; omega)
  have hlt : mx * my < 2 ^ (2 * f.W) := by
    rw [two_mul, pow_add]
    exact Nat.mul_lt_mul'' (hx.trans_le hW) (hy.trans_le hW)
  rw [significandProduct, mulExtended, uval, pattern_eq_wrap]
  simp only [ival, uval, BitVec.toNat_ofNat, Nat.mod_eq_of_lt (hx.trans_le hW), Nat.mod_eq_of_lt (hy.trans_le hW)]
  rw [← Nat.cast_mul, wrap_natCast, Nat.mod_eq_of_lt hlt]

/-- The product is normalized to the exponent of its magnitude. -/
theorem mulNormalize_represents {p : ℕ} (e : ℤ) (hp : 0 < p) (hlt : p < 2 ^ (f.S + f.W + 2)) :
    Represents f 1 (mulNormalize f e p) (p * wordUnit f e) ∧
      Int.log 2 (p * wordUnit f e) = (mulNormalize f e p).e := by
  have hunit := (wordUnit_pos f e).ne'
  have hself : SameSide (2 ^ 1) p (p * wordUnit f e / wordUnit f e) := by
    rw [mul_div_cancel_right₀ _ hunit]
    exact .refl _ _
  have hhi : ∀ n, n ≤ p / 2 ^ f.W ↔ n * 2 ^ f.W ≤ p := fun n => Nat.le_div_iff_mul_le (Nat.two_pow_pos _)
  simp only [mulNormalize]
  split_ifs with hover hlow
  case pos =>
    rw [hhi, ← pow_add] at hover
    refine ⟨(Represents.of_word hself).shift 1, ?_⟩
    rw [log_eq_of_word hover (by convert hlt using 2; ring)]
    push_cast
    ring
  case pos =>
    rw [← not_le, hhi, not_le, ← pow_add] at hlow
    have hW : 2 ^ (f.S + f.W) ≤ 2 ^ (2 * f.W) := Nat.pow_le_pow_right two_pos (by have := f.S_add_two_le_W; omega)
    obtain ⟨k, hk, -, hklow, hkhigh⟩ := highestSet_of_pos (hlow.trans_le hW) hp.ne'
    have hkW : k < f.S + f.W := (Nat.pow_lt_pow_iff_right one_lt_two).1 (hklow.trans_lt hlow)
    rw [hk, Option.getD_some]
    constructor
    · have hexp : wordUnit f e = 2 ^ (f.W + f.S - k) * wordUnit f (e - (f.W + f.S - k : ℕ)) := by
        rw [← wordUnit_add, sub_add_cancel]
      have hpos := wordUnit_pos f (e - (f.W + f.S - k : ℕ))
      refine .of_word ?_
      rw [hexp, ← mul_assoc, mul_div_cancel_right₀ _ hpos.ne']
      push_cast
      exact .refl _ _
    · rw [log_eq_of_word hklow hkhigh]
      dsimp only
      omega
  case neg =>
    rw [← not_le, not_not, hhi, ← pow_add] at hlow
    rw [hhi, ← pow_add, not_le] at hover
    refine ⟨.of_word hself, ?_⟩
    rw [log_eq_of_word hlow (by rwa [add_right_comm] at hover)]
    push_cast
    ring

/-- A magnitude above the range is rounded to the infinity. -/
theorem roundPack_of_emax_lt_log {s : ℕ} {v : ℚ} (hs : s < 2) (hv : 0 < v) (h : f.emax < Int.log 2 v) :
    Exact.roundPack f s v = Exact.inf f s := by
  rw [roundPack_eq_inf_iff f hs hv]
  have hlow := Int.zpow_log_le_self (b := 2) one_lt_two hv
  have hpos : (0 : ℚ) < 2 ^ (-(f.S : ℤ) - 1) := by positivity
  calc overflowThreshold f ≤ 2 * 2 ^ f.emax := mul_le_mul_of_nonneg_right (by linarith) (by positivity)
    _ = 2 ^ (f.emax + 1) := by rw [zpow_add_one₀ two_ne_zero, mul_comm]
    _ ≤ 2 ^ Int.log 2 v := zpow_le_zpow_right₀ one_le_two (by omega)
    _ ≤ v := by exact_mod_cast hlow

theorem decompose_exp_bounds (hx : Exact.IsNormal f x.toNat ∨ Exact.IsSubnormal f x.toNat) :
    f.emin ≤ (decompose f x).exp ∧ (decompose f x).exp ≤ f.emax ∧
      (f.emin < (decompose f x).exp → 2 ^ f.S ≤ (decompose f x).sig) := by
  have hmin := f.emin_eq
  have hmax := f.emax_eq
  have hrange := emin_lt_emax f
  obtain hnormal | hsubnormal := hx
  · have hlt : Exact.biased f x.toNat < 2 ^ f.E := Nat.mod_lt _ (Nat.two_pow_pos _)
    have hB := f.two_B
    obtain ⟨hzero, htop⟩ := hnormal
    rw [decompose_of_isNormal ⟨hzero, htop⟩]
    exact ⟨by dsimp only; omega, by dsimp only; omega, fun _ => Nat.le_add_left ..⟩
  · rw [decompose_of_isSubnormal hsubnormal]
    exact ⟨le_rfl, hrange.le, fun h => absurd h (lt_irrefl _)⟩

/-- An exponent above emin is that of a Normal, with its implicit bit. -/
theorem two_pow_exp_le_abs_val (hx : Exact.IsNormal f x.toNat ∨ Exact.IsSubnormal f x.toNat) (h : f.emin < (decompose f x).exp) :
    2 ^ (decompose f x).exp ≤ |Exact.val f x.toNat| := by
  obtain ⟨-, -, hlow⟩ := decompose_exp_bounds hx
  have hbit : (2 : ℚ) ^ f.S ≤ (decompose f x).sig := by exact_mod_cast hlow h
  calc (2 : ℚ) ^ (decompose f x).exp = 2 ^ f.S * 2 ^ ((decompose f x).exp - f.S) := by
        rw [← zpow_natCast, ← zpow_add₀ two_ne_zero, add_sub_cancel]
    _ ≤ |Exact.val f x.toNat| := by
      rw [abs_val hx]
      gcongr

section
variable (hx : Exact.IsNormal f x.toNat ∨ Exact.IsSubnormal f x.toNat) (hy : Exact.IsNormal f y.toNat ∨ Exact.IsSubnormal f y.toNat)
include hx hy

/-- The product as a word is exact. -/
theorem abs_mul_val : |Exact.val f x.toNat * Exact.val f y.toNat| =
    significandProduct f (decompose f x).sig (decompose f y).sig * wordUnit f ((decompose f x).exp + (decompose f y).exp) := by
  have hexp : (2 : ℚ) ^ (f.W - f.S) * wordUnit f ((decompose f x).exp + (decompose f y).exp) =
      2 ^ ((decompose f x).exp - f.S) * 2 ^ ((decompose f y).exp - f.S) := by
    have := f.S_add_two_le_W
    rw [wordUnit, ← zpow_natCast, ← zpow_add₀ two_ne_zero, ← zpow_add₀ two_ne_zero]
    congr 1
    omega
  rw [abs_mul, abs_val hx, abs_val hy, significandProduct_eq (decompose_sig_lt f x) (decompose_sig_lt f y),
    mul_mul_mul_comm, ← hexp]
  push_cast
  ring

theorem significandProduct_bounds : 0 < significandProduct f (decompose f x).sig (decompose f y).sig ∧
    significandProduct f (decompose f x).sig (decompose f y).sig < 2 ^ (f.S + f.W + 2) := by
  have hxsig := decompose_sig_lt f x
  have hysig := decompose_sig_lt f y
  have hxpos := decompose_sig_pos hx
  have hypos := decompose_sig_pos hy
  rw [significandProduct_eq hxsig hysig]
  constructor
  · positivity
  · calc (decompose f x).sig * (decompose f y).sig * 2 ^ (f.W - f.S)
        < 2 ^ (f.S + 1) * 2 ^ (f.S + 1) * 2 ^ (f.W - f.S) :=
          Nat.mul_lt_mul_of_pos_right (Nat.mul_lt_mul'' hxsig hysig) (Nat.two_pow_pos _)
      _ = 2 ^ (f.S + f.W + 2) := by
        have := f.S_add_two_le_W
        rw [← pow_add, ← pow_add]
        congr 1
        omega

/-- A sum of exponents above emax is one of two Normals: the product is at least that power of two. -/
theorem le_log_abs_mul_val (h : f.emax < (decompose f x).exp + (decompose f y).exp) :
    (decompose f x).exp + (decompose f y).exp ≤ Int.log 2 |Exact.val f x.toNat * Exact.val f y.toNat| := by
  obtain ⟨-, hxmax, -⟩ := decompose_exp_bounds hx
  obtain ⟨-, hymax, -⟩ := decompose_exp_bounds hy
  have hrange := emin_lt_emax f
  have hmin := f.emin_eq
  have hmax := f.emax_eq
  have hle : (2 : ℚ) ^ ((decompose f x).exp + (decompose f y).exp) ≤ |Exact.val f x.toNat * Exact.val f y.toNat| := by
    rw [zpow_add₀ two_ne_zero, abs_mul]
    exact mul_le_mul (two_pow_exp_le_abs_val hx (by omega)) (two_pow_exp_le_abs_val hy (by omega)) (by positivity) (abs_nonneg _)
  exact (Int.zpow_le_iff_le_log one_lt_two (lt_of_lt_of_le (by positivity) hle)).1 (by exact_mod_cast hle)

/-- The multiplier's stages round the product of the values. -/
theorem mulStages_exact (s : Bool) :
    let e := (decompose f x).exp + (decompose f y).exp
    let t := mulNormalize f e (significandProduct f (decompose f x).sig (decompose f y).sig)
    (if f.emax < e then infF f s else if f.emax < t.e then infF f s
      else roundUnit f s (drift f t).e (drift f t).m (drift f t).r).toNat =
      Exact.roundPack f s.toNat |Exact.val f x.toNat * Exact.val f y.toNat| := by
  intro e t
  obtain ⟨hppos, hplt⟩ := significandProduct_bounds hx hy
  obtain ⟨hrep, hlog⟩ := mulNormalize_represents e hppos hplt
  rw [← abs_mul_val hx hy] at hrep hlog
  have hv : 0 < |Exact.val f x.toNat * Exact.val f y.toNat| := by
    rw [abs_mul_val hx hy]
    exact mul_pos (Nat.cast_pos.2 hppos) (wordUnit_pos f e)
  split_ifs with hearly hover
  case pos => rw [infF_exact, roundPack_of_emax_lt_log s.toNat_lt hv (hearly.trans_le (le_log_abs_mul_val hx hy hearly))]
  case pos => rw [infF_exact, roundPack_of_emax_lt_log s.toNat_lt hv (hover.trans_eq hlog.symm)]
  case neg => exact drift_roundUnit_exact s hrep hv (.inl hlog)

end

end

/-- Settles O54: past the special cases, which are the same, the stages round the exact product (`mulStages_exact`). -/
theorem multiplierStagesAreExact : Obligations.MultiplierStagesAreExact := by
  unfold Obligations.MultiplierStagesAreExact
  intro f x y
  unfold mulStaged mulF
  cases hfilter : mulFilter f x y with
  | some r => rfl
  | none =>
    obtain ⟨hx, hy⟩ := mulFilter_eq_none hfilter
    rw [← BitVec.toNat_inj, roundPack_exactProduct _ hx hy]
    exact mulStages_exact hx hy _

/-! ### Divider (R292 to R296) -/

section
variable {f : Fmt} {x y : BitVec f.W}

/-- A renormalized input has bit S set and the same magnitude. -/
theorem renormalizeInput_spec (hx : Exact.IsNormal f x.toNat ∨ Exact.IsSubnormal f x.toNat) :
    let r := renormalizeInput f (decompose f x)
    2 ^ f.S ≤ r.2 ∧ r.2 < 2 ^ (f.S + 1) ∧ |Exact.val f x.toNat| = r.2 * 2 ^ (r.1 - f.S) ∧ f.emin - f.S ≤ r.1 ∧ r.1 ≤ f.emax := by
  obtain ⟨hmin, hmax, -⟩ := decompose_exp_bounds hx
  have hsig := decompose_sig_lt f x
  have hpos := decompose_sig_pos hx
  rw [abs_val hx, renormalizeInput]
  generalize decompose f x = d at *
  split
  case isTrue hlow =>
    have hW : 2 ^ f.S ≤ 2 ^ f.W := Nat.pow_le_pow_right two_pos (by have := f.S_add_two_le_W; omega)
    obtain ⟨k, hk, -, hklow, hkhigh⟩ := highestSet_of_pos (hlow.trans_le hW) hpos.ne'
    have hkS : k < f.S := (Nat.pow_lt_pow_iff_right one_lt_two).1 (hklow.trans_lt hlow)
    have hshift : ∀ n, 2 ^ (n + (f.S - k)) = 2 ^ n * 2 ^ (f.S - k) := fun n => pow_add ..
    simp only [hk, Option.getD_some]
    refine ⟨?_, ?_, ?_, by omega, by omega⟩
    · rw [← Nat.add_sub_cancel' hkS.le, hshift, Nat.add_sub_cancel' hkS.le]
      exact Nat.mul_le_mul_right _ hklow
    · rw [show f.S + 1 = k + 1 + (f.S - k) by omega, hshift]
      exact Nat.mul_lt_mul_of_pos_right hkhigh (Nat.two_pow_pos _)
    · have hexp : (2 : ℚ) ^ (d.exp - f.S) = 2 ^ (f.S - k) * 2 ^ (d.exp - (f.S - k : ℕ) - f.S) := by
        rw [← zpow_natCast, ← zpow_add₀ two_ne_zero]
        congr 1
        ring
      rw [hexp]
      push_cast
      ring
  case isFalse hhigh => exact ⟨not_lt.1 hhigh, hsig, rfl, by omega, hmax⟩

/-- The dividend's significand, doubled where it is below the divisor's, and the exponent of the quotient (R293). -/
def preShift (x y : ℤ × ℕ) : ℤ × ℕ := if x.2 < y.2 then (x.1 - y.1 - 1, 2 * x.2) else (x.1 - y.1, x.2)

theorem preShift_spec {S : ℕ} {a b : ℤ × ℕ} (halow : 2 ^ S ≤ a.2) (hahigh : a.2 < 2 ^ (S + 1)) (hblow : 2 ^ S ≤ b.2)
    (hbhigh : b.2 < 2 ^ (S + 1)) :
    b.2 ≤ (preShift a b).2 ∧ (preShift a b).2 < 2 * b.2 ∧ (preShift a b).2 < 2 ^ (S + 2) ∧
      ((preShift a b).2 : ℚ) * 2 ^ (preShift a b).1 = a.2 * 2 ^ (a.1 - b.1) := by
  rw [pow_succ] at hahigh hbhigh
  rw [show 2 ^ (S + 2) = 4 * 2 ^ S by ring, preShift]
  split
  next hlt =>
    refine ⟨by dsimp only; omega, by dsimp only; omega, by dsimp only; omega, ?_⟩
    rw [zpow_sub_one₀ two_ne_zero]
    push_cast
    field_simp
  next hge => exact ⟨not_lt.1 hge, by dsimp only; omega, by dsimp only; omega, rfl⟩

/-- The sticky bit ORed into the low part of the quotient is the sticky bit of the whole (R294). -/
theorem divideSignificands_eq (f : Fmt) {mx my : ℕ} (hmy : 0 < my) (hmx : mx < 2 ^ (f.S + 2)) :
    let p := mx * 2 ^ (f.S + f.W)
    let q := if p % my = 0 then p / my else p / my ||| 1
    divideSignificands f mx my = (q / 2 ^ f.W, q % 2 ^ f.W) := by
  intro p q
  have hp : p < 2 ^ (2 * f.S + f.W + 2) := by
    calc p < 2 ^ (f.S + 2) * 2 ^ (f.S + f.W) := Nat.mul_lt_mul_of_pos_right hmx (Nat.two_pow_pos _)
      _ = 2 ^ (2 * f.S + f.W + 2) := by rw [← pow_add]; congr 1; ring
  have hone : 1 < 2 ^ f.W := Nat.one_lt_two_pow (by have := f.W_ge; omega)
  rw [divideSignificands, WideInt.restoringDivide_eq hmy _ _ hp]
  simp only [p, q]
  split
  · rfl
  · rw [Nat.or_div_two_pow, Nat.or_mod_two_pow, Nat.div_eq_of_lt hone, Nat.mod_eq_of_lt hone, Nat.or_zero]

theorem divideSignificands_represents {mx my : ℕ} (e : ℤ) (hmy : 0 < my) (hge : my ≤ mx) (hlt : mx < 2 * my)
    (hmx : mx < 2 ^ (f.S + 2)) :
    Represents f 1 { e := e, m := (divideSignificands f mx my).1, r := (divideSignificands f mx my).2 } ((mx : ℚ) / my * 2 ^ e) ∧
      Int.log 2 ((mx : ℚ) / my * 2 ^ e) = e := by
  have hmy' : (0 : ℚ) < my := Nat.cast_pos.2 hmy
  constructor
  · rw [divideSignificands_eq f hmy hmx]
    refine .of_word ?_
    have hsticky := sameSide_sticky (mx * 2 ^ (f.S + f.W)) hmy
    have hunit : (2 : ℚ) ^ e = 2 ^ (f.S + f.W) * wordUnit f e := by
      rw [wordUnit, ← zpow_natCast, ← zpow_add₀ two_ne_zero]
      congr 1
      push_cast
      ring
    rwa [Nat.cast_mul, Nat.cast_pow, Nat.cast_ofNat, mul_div_right_comm, ← mul_div_cancel_right₀ (2 ^ (f.S + f.W))
      (wordUnit_pos f e).ne', ← hunit, ← mul_div_assoc, ← pow_one (2 : ℚ)] at hsticky
  · apply log_eq_of_between
    · exact le_mul_of_one_le_left (by positivity) ((one_le_div hmy').2 (Nat.cast_le.2 hge))
    · rw [zpow_add_one₀ two_ne_zero, mul_comm]
      gcongr
      rw [div_lt_iff₀ hmy']
      exact_mod_cast hlt

/-- The stage that the divider hands to the drift. -/
def divideStage (f : Fmt) (dx dy : Decomposed) : Stage :=
  let p := preShift (renormalizeInput f dx) (renormalizeInput f dy)
  let q := divideSignificands f p.2 (renormalizeInput f dy).2
  { e := p.1, m := q.1, r := q.2 }

theorem divideStage_represents (hx : Exact.IsNormal f x.toNat ∨ Exact.IsSubnormal f x.toNat)
    (hy : Exact.IsNormal f y.toNat ∨ Exact.IsSubnormal f y.toNat) :
    Represents f 1 (divideStage f (decompose f x) (decompose f y)) |Exact.val f x.toNat / Exact.val f y.toNat| ∧
      Int.log 2 |Exact.val f x.toNat / Exact.val f y.toNat| = (divideStage f (decompose f x) (decompose f y)).e := by
  obtain ⟨hxlow, hxhigh, hxval, -⟩ := renormalizeInput_spec hx
  obtain ⟨hylow, hyhigh, hyval, -⟩ := renormalizeInput_spec hy
  obtain ⟨hge, hlt, hbound, hvalue⟩ := preShift_spec hxlow hxhigh hylow hyhigh
  have hval : |Exact.val f x.toNat / Exact.val f y.toNat| =
      ((preShift (renormalizeInput f (decompose f x)) (renormalizeInput f (decompose f y))).2 : ℚ) /
        (renormalizeInput f (decompose f y)).2 *
        2 ^ (preShift (renormalizeInput f (decompose f x)) (renormalizeInput f (decompose f y))).1 := by
    rw [div_mul_eq_mul_div, hvalue, abs_div, hxval, hyval, mul_div_mul_comm, ← zpow_sub₀ two_ne_zero, sub_sub_sub_cancel_right,
      div_mul_eq_mul_div]
  rw [hval]
  exact divideSignificands_represents _ ((Nat.two_pow_pos _).trans_le hylow) hge hlt hbound

theorem divFilter_eq_none (h : divFilter f x y = none) :
    (Exact.IsNormal f x.toNat ∨ Exact.IsSubnormal f x.toNat) ∧ (Exact.IsNormal f y.toNat ∨ Exact.IsSubnormal f y.toNat) := by
  unfold divFilter at h
  split_ifs at h with hxNaN hyNaN hinvalid hyZero hxZero hxInf hyInf
  exact ⟨isNormal_or_isSubnormal_of_tests hxNaN hxInf hxZero, isNormal_or_isSubnormal_of_tests hyNaN hyInf hyZero⟩

end

/-- Settles O55: past the special cases, which are the same, the stages round the exact quotient (`divideStage_represents`). -/
theorem dividerStagesAreExact : Obligations.DividerStagesAreExact := by
  unfold Obligations.DividerStagesAreExact
  intro f x y
  unfold divStaged divF
  cases hfilter : divFilter f x y with
  | some r => rfl
  | none =>
    obtain ⟨hx, hy⟩ := divFilter_eq_none hfilter
    obtain ⟨hrep, hlog⟩ := divideStage_represents hx hy
    have hv : 0 < |Exact.val f x.toNat / Exact.val f y.toNat| := by
      rw [abs_div, abs_val hx, abs_val hy]
      have := decompose_sig_pos hx
      have := decompose_sig_pos hy
      positivity
    rw [← BitVec.toNat_inj, roundPack_exactQuotient _ hx hy, ← drift_roundUnit_exact _ hrep hv (.inl hlog), ← ite_emax_roundUnit]
    rfl

end Sys2Proof.FpStages
end

section
/-! The stages of the converters (47_fp_convert.md R312, R313, R316, R321). -/

namespace Sys2Proof.FpStages

open Sys2Proof.Machine Sys2Proof.Safety Sys2Proof.FpDatapath Sys2Proof.FpAddSub Sys2Proof.FpMul Sys2Proof.FpConvert
  Sys2Proof.FpRounding

/-! ### Float to float (R312, R313) -/

section
variable {f g : Fmt} {x : BitVec f.W}

/-- A wider format has room for the renormalized Subnormals. -/
theorem renormalized_range_of_wider (h : f.S < g.S) : g.emin ≤ f.emin - f.S ∧ f.emax ≤ g.emax := by
  revert h
  cases f <;> cases g <;> decide

/-- A narrower format has a smaller range. -/
theorem range_of_narrower (hne : f ≠ g) (h : ¬ f.S < g.S) : g.S ≤ f.S ∧ f.emin < g.emin := by
  revert hne h
  cases f <;> cases g <;> decide

/-- Widening packs the exact value. -/
theorem widenStaged_exact (hwider : f.S < g.S) (hx : Exact.IsNormal f x.toNat ∨ Exact.IsSubnormal f x.toNat) :
    (widenStaged f g (decompose f x)).toNat = Exact.roundPack g (decompose f x).sign.toNat |Exact.val f x.toNat| := by
  obtain ⟨hlow, hhigh, hval, hemin, hemax⟩ := renormalizeInput_spec hx
  obtain ⟨hmin, hmax⟩ := renormalized_range_of_wider hwider
  have hpos : 0 < |Exact.val f x.toNat| := by
    rw [abs_val hx]
    have := decompose_sig_pos hx
    positivity
  rw [widenStaged]
  generalize renormalizeInput f (decompose f x) = r at *
  obtain ⟨e, m⟩ := r
  dsimp only at *
  obtain ⟨d, hd⟩ := Nat.exists_eq_add_of_lt hwider
  have hshift : g.S - f.S = d + 1 := by omega
  have hpow : ∀ n, 2 ^ (g.S + n) = 2 ^ (f.S + n) * 2 ^ (d + 1) := fun n => by rw [← pow_add]; congr 1; omega
  have hlow' : 2 ^ g.S ≤ m * 2 ^ (d + 1) := (hpow 0).trans_le (Nat.mul_le_mul_right _ hlow)
  have hhigh' : m * 2 ^ (d + 1) < 2 ^ (g.S + 1) := (Nat.mul_lt_mul_of_pos_right hhigh (Nat.two_pow_pos _)).trans_eq (hpow 1).symm
  obtain ⟨hbe, ht, hfield, -⟩ := normal_fields (hmin.trans hemin) (hemax.trans hmax) hlow' hhigh'
  have hvalue : |Exact.val f x.toNat| = fieldValue g (e + g.B).toNat (m * 2 ^ (d + 1) - 2 ^ g.S) := by
    have hexp : (2 : ℚ) ^ (e - f.S) = 2 ^ (d + 1) * 2 ^ (e - g.S) := by
      rw [← zpow_natCast, ← zpow_add₀ two_ne_zero]
      congr 1
      push_cast
      omega
    rw [hfield, hval, hexp]
    push_cast
    ring
  rw [hvalue] at hpos ⊢
  rw [FpRoundTrips.roundPack_fieldValue (Bool.toNat_lt _) hbe ht hpos]
  have htrailing : (m - 2 ^ f.S) * 2 ^ (g.S - f.S) = m * 2 ^ (d + 1) - 2 ^ g.S := by
    rw [Nat.sub_mul, hshift, ← pow_add, ← add_assoc, ← hd]
  rw [htrailing, pack_exact g _ (hbe.trans_le (Nat.pred_le _)) ht]

/-- Narrowing rounds: the bits shifted out are the round-off word. -/
theorem narrowStaged_exact (hne : f ≠ g) (hnarrower : ¬ f.S < g.S) (hx : Exact.IsNormal f x.toNat ∨ Exact.IsSubnormal f x.toNat) :
    (narrowStaged f g (decompose f x)).toNat = Exact.roundPack g (decompose f x).sign.toNat |Exact.val f x.toNat| := by
  obtain ⟨hS, hemin⟩ := range_of_narrower hne hnarrower
  have hnormal := two_pow_exp_le_abs_val hx
  have hsig := decompose_sig_lt f x
  have hpos := decompose_sig_pos hx
  have hval := abs_val hx
  rw [narrowStaged]
  generalize decompose f x = d at *
  have hv : 0 < |Exact.val f x.toNat| := by rw [hval]; positivity
  have hunit : (2 : ℚ) ^ (d.exp - f.S) = 2 ^ g.W / 2 ^ (f.S - g.S) * wordUnit g d.exp := by
    rw [div_mul_eq_mul_div, wordUnit_mul_two_pow, ← zpow_natCast, ← zpow_sub₀ two_ne_zero]
    congr 1
    omega
  have hrep : Represents g 1
      { e := d.exp, m := (shiftSticky g.W d.sig 0 (f.S - g.S)).1, r := (shiftSticky g.W d.sig 0 (f.S - g.S)).2 }
      |Exact.val f x.toNat| := by
    apply represents_shiftSticky
    rw [hval, hunit, ← mul_assoc, mul_div_cancel_right₀ _ (wordUnit_pos g d.exp).ne', mul_div_assoc']
    push_cast
    rw [add_zero]
    exact .refl _ _
  have hhigh : Int.log 2 |Exact.val f x.toNat| ≤ d.exp := by
    apply FpRoundTrips.log_le_of_lt_two_pow hv
    rw [hval, show d.exp + 1 = ((f.S + 1 : ℕ) : ℤ) + (d.exp - f.S) by push_cast; ring, zpow_add₀ two_ne_zero, zpow_natCast]
    exact mul_lt_mul_of_pos_right (by exact_mod_cast hsig) (by positivity)
  rw [← drift_roundUnit_exact _ hrep hv, ← ite_emax_roundUnit]
  by_cases hlow : d.exp < g.emin
  · exact .inr ⟨hhigh, hlow⟩
  · refine .inl (le_antisymm hhigh ((Int.zpow_le_iff_le_log one_lt_two hv).1 ?_))
    exact_mod_cast hnormal (by omega)

theorem convertFFStaged_eq (f g : Fmt) (x : BitVec f.W) : convertFFStaged f g x = convertFF f g x := by
  unfold convertFFStaged convertFF
  split
  case isTrue => rfl
  case isFalse hne =>
    have hround : Exact.IsNormal f x.toNat ∨ Exact.IsSubnormal f x.toNat →
        (if f.S < g.S then widenStaged f g (decompose f x) else narrowStaged f g (decompose f x)) =
          roundPack g (decompose f x).sign (magnitudeOf f (decompose f x)) := by
      intro hx
      rw [← BitVec.toNat_inj, roundPack_magnitudeOf g hx, ← signBit_toNat, ← decompose_sign]
      split
      next hwider => exact widenStaged_exact hwider hx
      next hnarrower => exact narrowStaged_exact hne hnarrower hx
    obtain h | h | h | h | h := class_cases f x.toNat
    · rw [decompose_of_isZero h]
    · have hr := hround (.inr h)
      rw [decompose_of_isSubnormal h] at hr ⊢
      exact hr
    · rw [decompose_of_isInf h]
    · rw [decompose_of_isNaN h]
    · have hr := hround (.inl h)
      rw [decompose_of_isNormal h] at hr ⊢
      exact hr

end

/-! ### Integer to float (R316) -/

theorem convertFIStaged_eq (f : Fmt) {v : ℤ} (hv : v.natAbs < 2 ^ 128) : convertFIStaged f v = convertFI f v := by
  unfold convertFIStaged convertFI
  split
  case isTrue => rfl
  case isFalse hne =>
    have hpos := Int.natAbs_pos.2 hne
    obtain ⟨k, hk, -, hlow, hhigh⟩ := highestSet_of_pos hv hpos.ne'
    rw [← BitVec.toNat_inj, roundPackIsTheExactRule f _ _ hpos one_pos]
    simp only [hk, Option.getD_some, Nat.cast_one, div_one, zpow_zero, mul_one]
    generalize v.natAbs = n at *
    have hn : (0 : ℚ) < n := Nat.cast_pos.2 hpos
    have hlog : Int.log 2 (n : ℚ) = k := by
      apply log_eq_of_between
      · exact_mod_cast hlow
      · exact_mod_cast hhigh
    have hexp : (k : ℤ) = resultExp f n := by
      have hmin := f.emin_eq
      have hB := f.B_pos
      exact (resultExp_of_log hlog (by omega)).symm
    have hround : ∀ m r, Represents f 1 { e := k, m := m, r := r } n →
        (roundUnit f (decide (v < 0)) k m r).toNat = Exact.roundPack f (decide (v < 0)).toNat n := fun m r hrep =>
      roundUnit_exact _ (hrep.coarsen (by have := f.W_ge; omega)) hn hexp
    have hword : (n : ℚ) / wordUnit f k = n * 2 ^ f.W * 2 ^ (f.S - k : ℤ) := by
      rw [wordUnit, div_eq_mul_inv, ← zpow_neg, mul_assoc, ← zpow_natCast, ← zpow_add₀ two_ne_zero]
      congr 2
      ring
    split_ifs with hover hshift
    · rw [infF_exact, roundPack_of_emax_lt_log (Bool.toNat_lt _) hn (hlog ▸ hover)]
    · refine hround _ _ (represents_shiftSticky ?_)
      rw [hword, show (f.S - k : ℤ) = -((k - f.S : ℕ) : ℤ) by omega, zpow_neg, ← div_eq_mul_inv, zpow_natCast]
      push_cast
      rw [add_zero]
      exact .refl _ _
    · have hvalue : (n : ℚ) = (n * 2 ^ (f.S - k) : ℕ) * 2 ^ (k - f.S : ℤ) := by
        rw [show (k - f.S : ℤ) = -((f.S - k : ℕ) : ℤ) by omega, zpow_neg, zpow_natCast]
        push_cast
        field_simp
      have hrep := Represents.of_significand f 1 k (n * 2 ^ (f.S - k))
      rw [← hvalue] at hrep
      exact hround _ _ hrep

/-! ### Float to integer (R321) -/

section
variable (c : Config) (f : Fmt) (w : Width) (g : Sgn) (x : BitVec f.W)

theorem rangeTest_zero : rangeTest c w g 0 = 0 := by
  have hlow : ¬ 0 < intMin w g := by cases g <;> simp [intMin]
  have hhigh : ¬ intMax w g < 0 := by
    have hpos : ∀ n : ℕ, (0 : ℤ) < 2 ^ n := fun n => by positivity
    cases g
    case signed =>
      have := hpos (w.bits - 1)
      simp only [intMax]
      omega
    case unsigned =>
      have := hpos w.bits
      simp only [intMax]
      omega
  rw [rangeTest, if_neg hlow, if_neg hhigh, ← BitVec.toNat_inj, pattern_toNat, Int.zero_emod]
  rfl

/-- A magnitude below 1 truncates to 0. -/
theorem truncMagnitude_of_exp_neg {d : Decomposed} (hexp : d.exp < 0) (hsig : d.sig < 2 ^ (f.S + 1)) : truncMagnitude f d = 0 := by
  rw [truncMagnitude, if_neg (by omega)]
  exact Nat.div_eq_of_lt (hsig.trans_le (Nat.pow_le_pow_right two_pos (by omega)))

theorem emin_neg : f.emin < 0 := by cases f <;> decide

theorem truncStaged_eq (d : Decomposed) : truncStaged f d = truncMagnitude f d := by
  unfold truncStaged truncMagnitude
  by_cases hlow : d.exp < f.S
  · rw [if_pos hlow, if_neg (by omega), neg_sub]
  · rw [if_neg hlow, if_pos (by omega)]

theorem convertIFStaged_eq : convertIFStaged c f w g x = convertIF c f w g x := by
  unfold convertIFStaged convertIF
  have hsig := decompose_sig_lt f x
  have hsmall : (decompose f x).exp < 0 →
      0 = rangeTest c w g
        (if (decompose f x).sign then -(truncMagnitude f (decompose f x) : ℤ) else truncMagnitude f (decompose f x)) := by
    intro hexp
    rw [truncMagnitude_of_exp_neg f hexp hsig, Nat.cast_zero, neg_zero, ite_self, rangeTest_zero]
  simp only [truncStaged_eq]
  obtain h | h | h | h | h := class_cases f x.toNat
  · rw [decompose_of_isZero h]
    rfl
  · have hexp : (decompose f x).exp < 0 := by
      rw [decompose_of_isSubnormal h]
      exact emin_neg f
    have := hsmall hexp
    rw [decompose_of_isSubnormal h] at this ⊢
    exact this
  · rw [decompose_of_isInf h]
  · rw [decompose_of_isNaN h]
  · rw [decompose_of_isNormal h] at hsmall ⊢
    dsimp only at hsmall ⊢
    split
    next hexp => exact hsmall hexp
    next => rfl

end

/-- Settles O56: widening is exact, narrowing and the integers are rounded from the word, and truncation is the shift. -/
theorem converterStagesAreExact : Obligations.ConverterStagesAreExact := by
  unfold Obligations.ConverterStagesAreExact
  intro f g c w n x v hv
  exact ⟨convertFFStaged_eq f g x, convertFIStaged_eq f hv, convertIFStaged_eq c f w n x⟩

end Sys2Proof.FpStages
end

section
/-! The stages of the adder (44_fp_addsub.md R242 to R247): the aligned operand is known as far as an even number of word units
tells, and so are the sum and the difference; the renormalizing loop doubles that step, and has at most S + 1 doublings to make. -/

namespace Sys2Proof.FpStages

open Sys2Proof.Machine Sys2Proof.Safety Sys2Proof.FpDatapath Sys2Proof.FpAddSub Sys2Proof.FpMul Sys2Proof.FpRounding

/-! ### Sums and differences of a stage (R244, R245) -/

/-- The stage of the difference: less one and the two's complement of the word, when the word is not 0 (R245). -/
def differenceStage (f : Fmt) (e : ℤ) (mL mT r : ℕ) : Stage :=
  if r = 0 then { e := e, m := mL - mT, r := 0 } else { e := e, m := mL - mT - 1, r := 2 ^ f.W - r }

theorem differenceStage_e (f : Fmt) (e : ℤ) (mL mT r : ℕ) : (differenceStage f e mL mT r).e = e := by
  unfold differenceStage
  split <;> rfl

/-- A whole significand is an even number of word units. -/
theorem significand_div_wordUnit (f : Fmt) (e : ℤ) (m : ℕ) :
    (m : ℚ) * 2 ^ (e - f.S) / wordUnit f e = ((m * 2 ^ (f.W - 1) : ℕ) : ℤ) * 2 := by
  have hpow : (2 : ℚ) ^ f.W = 2 ^ (f.W - 1) * 2 := by rw [← pow_succ, Nat.sub_add_cancel (by have := f.W_ge; omega)]
  rw [← wordUnit_mul_two_pow, ← mul_assoc, mul_div_cancel_right₀ _ (wordUnit_pos f e).ne', hpow, Int.cast_natCast]
  push_cast
  ring

theorem significand_word (f : Fmt) (m : ℕ) : (((m * 2 ^ (f.W - 1) : ℕ) : ℤ) : ℚ) * 2 = (m * 2 ^ f.W : ℕ) := by
  rw [Int.cast_natCast]
  norm_cast
  rw [mul_assoc, ← pow_succ, Nat.sub_add_cancel (by have := f.W_ge; omega)]

section
variable {f : Fmt} {e : ℤ} {mT r : ℕ} {v : ℚ} (h : Represents f 1 { e := e, m := mT, r := r } v) (mL : ℕ)
include h

theorem represents_sum : Represents f 1 { e := e, m := mL + mT, r := r } (mL * 2 ^ (e - f.S) + v) where
  r_lt := h.r_lt
  sameSide := by
    have hside := h.sameSide
    rw [pow_one] at hside ⊢
    have hadd := hside.add_multiple (mL * 2 ^ (f.W - 1) : ℕ)
    rw [← significand_div_wordUnit, ← add_div, significand_div_wordUnit, significand_word, ← Nat.cast_add] at hadd
    have hword : stageWord f { e := e, m := mL + mT, r := r } = mL * 2 ^ f.W + stageWord f { e := e, m := mT, r := r } := by
      simp only [stageWord]
      ring
    rwa [hword]

theorem represents_difference (hle : v ≤ mL * 2 ^ (e - f.S)) :
    Represents f 1 (differenceStage f e mL mT r) (mL * 2 ^ (e - f.S) - v) := by
  have hunit := wordUnit_pos f e
  have hr := h.r_lt
  have hside := h.sameSide
  rw [pow_one] at hside
  have hword : mT * 2 ^ f.W + r ≤ mL * 2 ^ f.W := by
    have hge := (hside (mL * 2 ^ (f.W - 1) : ℕ)).2
    rw [← significand_div_wordUnit, div_le_div_iff_of_pos_right hunit, significand_div_wordUnit, significand_word,
      Nat.cast_le] at hge
    exact hge.2 hle
  have hstage : stageWord f (differenceStage f e mL mT r) = mL * 2 ^ f.W - (mT * 2 ^ f.W + r) := by
    have hmT : mT ≤ mL := le_of_mul_le_mul_right ((Nat.le_add_right ..).trans hword) (Nat.two_pow_pos f.W)
    obtain ⟨d, rfl⟩ := Nat.exists_eq_add_of_le hmT
    rw [Nat.add_mul] at hword ⊢
    simp only [stageWord, differenceStage, Nat.add_sub_cancel_left]
    split
    next hzero =>
      dsimp only
      omega
    next hne =>
      have hd : d ≠ 0 := by
        rintro rfl
        omega
      obtain ⟨k, rfl⟩ := Nat.exists_eq_succ_of_ne_zero hd
      dsimp only at hr ⊢
      rw [Nat.succ_sub_one, Nat.succ_mul] at *
      omega
  constructor
  case r_lt =>
    rw [differenceStage]
    split
    · exact Nat.two_pow_pos _
    · exact Nat.sub_lt (Nat.two_pow_pos _) (by omega)
  case sameSide =>
    have hsub := hside.neg.add_multiple (mL * 2 ^ (f.W - 1) : ℕ)
    rw [← sub_eq_add_neg, ← sub_eq_add_neg, ← significand_div_wordUnit, ← sub_div, significand_div_wordUnit, significand_word,
      stageWord, ← Nat.cast_sub hword, ← hstage] at hsub
    rwa [pow_one, differenceStage_e]

end

/-! ### The renormalizing loop (R246) -/

section
variable {f : Fmt} {t : Stage} {v : ℚ}

/-- A left shift keeps the magnitude, and doubles the step. -/
theorem Represents.shiftLeft {j : ℕ} (h : Represents f j t v) :
    Represents f (j + 1) { e := t.e - 1, m := 2 * t.m + t.r / 2 ^ (f.W - 1), r := 2 * t.r % 2 ^ f.W } v where
  r_lt := Nat.mod_lt _ (Nat.two_pow_pos _)
  sameSide := by
    have hW : 2 ^ f.W = 2 * 2 ^ (f.W - 1) := by rw [← pow_succ', Nat.sub_add_cancel (by have := f.W_ge; omega)]
    have hword : (2 * t.m + t.r / 2 ^ (f.W - 1)) * 2 ^ f.W + 2 * t.r % 2 ^ f.W = 2 * stageWord f t := by
      have hdiv := Nat.div_add_mod (2 * t.r) (2 ^ f.W)
      have hcarry : 2 * t.r / 2 ^ f.W = t.r / 2 ^ (f.W - 1) := by rw [hW, Nat.mul_div_mul_left _ _ two_pos]
      rw [hcarry] at hdiv
      rw [stageWord]
      linear_combination hdiv
    have hunit : wordUnit f t.e = 2 * wordUnit f (t.e - 1) := by
      rw [← pow_one (2 : ℚ), ← wordUnit_add, Nat.cast_one, sub_add_cancel]
    have hscale := h.sameSide.scale two_pos
    have hhalf : 2 * (v / (2 * wordUnit f (t.e - 1))) = v / wordUnit f (t.e - 1) := by
      have := (wordUnit_pos f (t.e - 1)).ne'
      field_simp
    rw [← pow_succ', hunit, hhalf] at hscale
    have hnat : stageWord f { e := t.e - 1, m := 2 * t.m + t.r / 2 ^ (f.W - 1), r := 2 * t.r % 2 ^ f.W } =
        2 * stageWord f t := hword
    rw [hnat]
    exact_mod_cast hscale

/-- The loop stops at the exponent of the result: before, the significand has no bit S and the exponent is above emin. -/
theorem renormalize_represents (hv : 0 < v) (n : ℕ) : ∀ {t : Stage} {j : ℕ}, Represents f j t v → resultExp f v ≤ t.e →
    t.e ≤ resultExp f v + n → j + (t.e - resultExp f v).toNat ≤ f.W - 1 →
    Represents f (f.W - 1) (renormalize f n t) v ∧ (renormalize f n t).e = resultExp f v := by
  induction n with
  | zero =>
    intro t j h hge hle hstep
    exact ⟨h.coarsen (by omega), by simp only [renormalize]; omega⟩
  | succ n ih =>
    intro t j h hge hle hstep
    have hbit := h.two_pow_le_m_iff (by omega) 0
    rw [Nat.cast_zero, add_zero, add_zero] at hbit
    have hlog : v < 2 ^ t.e ↔ Int.log 2 v < t.e := by exact_mod_cast Int.lt_zpow_iff_log_lt (b := 2) one_lt_two hv
    have hmore : t.m < 2 ^ f.S ∧ f.emin < t.e ↔ resultExp f v < t.e := by
      rw [← not_le, hbit, not_le, hlog, resultExp, max_lt_iff]
    rw [renormalize]
    split
    next hcond =>
      have hlt := hmore.1 hcond
      exact ih h.shiftLeft (by dsimp only; omega) (by dsimp only; push_cast at hle; omega) (by dsimp only; omega)
    next hcond => exact ⟨h.coarsen (by omega), le_antisymm (not_lt.1 (mt hmore.2 hcond)) hge⟩

end

/-! ### Like and unlike signs (R244 to R246) -/

section
variable {f : Fmt} {e : ℤ} {m r : ℕ} {v : ℚ}

theorem addLike_exact (s : Bool) (h : Represents f 1 { e := e, m := m, r := r } v) (hv : 0 < v) (hemin : f.emin ≤ e)
    (hlow : f.emin < e → 2 ^ e ≤ v) (hhigh : v < 2 ^ (e + 2)) : (addLike f s e m r).toNat = Exact.roundPack f s.toNat v := by
  have hW := f.W_ge
  have hbit := h.two_pow_le_m_iff (by omega) 1
  rw [addLike]
  split
  case isTrue hspill =>
    have hlog : Int.log 2 v = e + 1 := log_eq_of_between (hbit.1 hspill) (by rwa [add_assoc])
    have hshift := h.shift 1
    rw [Nat.cast_one] at hshift
    have hround := roundUnit_exact s (hshift.coarsen (by omega)) hv (resultExp_of_log hlog (by omega)).symm
    rw [← ite_emax_roundUnit] at hround
    exact hround
  case isFalse hfit =>
    have hlt : v < 2 ^ (e + 1) := not_le.1 (mt hbit.2 hfit)
    refine roundUnit_exact s (h.coarsen (by omega)) hv ?_
    obtain hgt | heq := hemin.lt_or_eq
    · exact (resultExp_of_log (log_eq_of_between (hlow hgt) hlt) hemin).symm
    · exact (heq ▸ resultExp_of_lt hv (heq ▸ hlt)).symm

theorem addUnlike_exact (s : Bool) {mL : ℕ} (h : Represents f 1 { e := e, m := m, r := r } v) (hv : 0 ≤ v) (hemin : f.emin ≤ e)
    (hmL : mL < 2 ^ (f.S + 1)) (hgap : 2 ^ (e - f.S - 1) ≤ mL * 2 ^ (e - f.S) - v) :
    (addUnlike f s e mL m r).toNat = Exact.roundPack f s.toNat (mL * 2 ^ (e - f.S) - v) := by
  have hpos : 0 < mL * 2 ^ (e - f.S) - v := lt_of_lt_of_le (by positivity) hgap
  have hdiff := represents_difference h mL (sub_nonneg.1 hpos.le)
  have hhigh : Int.log 2 (mL * 2 ^ (e - f.S) - v) ≤ e := by
    apply FpRoundTrips.log_le_of_lt_two_pow hpos
    rw [show e + 1 = ((f.S + 1 : ℕ) : ℤ) + (e - f.S) by push_cast; ring, zpow_add₀ two_ne_zero, zpow_natCast]
    refine (sub_le_self _ hv).trans_lt (mul_lt_mul_of_pos_right (by exact_mod_cast hmL) (by positivity))
  have hlow : e - f.S - 1 ≤ Int.log 2 (mL * 2 ^ (e - f.S) - v) :=
    (Int.zpow_le_iff_le_log one_lt_two hpos).1 (by exact_mod_cast hgap)
  have hW : f.S + 3 ≤ f.W - 1 := by
    have := f.W_eq
    have := f.E_ge
    omega
  have hexp : resultExp f (mL * 2 ^ (e - f.S) - v) ≤ e ∧ e - f.S - 1 ≤ resultExp f (mL * 2 ^ (e - f.S) - v) := by
    unfold resultExp
    omega
  have hstage := differenceStage_e f e mL m r
  obtain ⟨hrep, he⟩ := renormalize_represents hpos f.W hdiff (by omega) (by omega) (by omega)
  exact roundUnit_exact s hrep hpos he

end

/-! ### Alignment (R243) -/

section
variable {f : Fmt} {x y : BitVec f.W}

/-- The smaller operand, shifted to the exponent of the larger. -/
theorem represents_aligned (f : Fmt) {eL eT : ℤ} (hle : eT ≤ eL) (m : ℕ) :
    Represents f 1
      { e := eL, m := (shiftSticky f.W m 0 (eL - eT).toNat).1, r := (shiftSticky f.W m 0 (eL - eT).toNat).2 }
      (m * 2 ^ (eT - f.S)) := by
  have hshift := (Represents.of_significand f 1 eT m).shift (eL - eT).toNat
  rwa [Int.toNat_of_nonneg (sub_nonneg.2 hle), add_sub_cancel] at hshift

/-- The exponent first, then the significand: the larger operand is at least half a unit in its last place larger, if not equal. -/
theorem larger_gap {eL eT : ℤ} {mL mT : ℕ} (hlarger : eT < eL ∨ eT = eL ∧ mT < mL) (hmL : f.emin < eL → 2 ^ f.S ≤ mL)
    (hmT : mT < 2 ^ (f.S + 1)) (heT : f.emin ≤ eT) :
    (2 : ℚ) ^ (eL - f.S - 1) ≤ mL * 2 ^ (eL - f.S) - mT * 2 ^ (eT - f.S) := by
  have hpos : (0 : ℚ) < 2 ^ (eL - f.S - 1) := by positivity
  have hdouble : (2 : ℚ) ^ (eL - f.S) = 2 * 2 ^ (eL - f.S - 1) := by rw [zpow_sub_one₀ two_ne_zero]; ring
  obtain hlt | ⟨rfl, hlt⟩ := hlarger
  · have hbit : ((2 ^ f.S : ℕ) : ℚ) ≤ mL := Nat.cast_le.2 (hmL (by omega))
    have hsig : (mT : ℚ) + 1 ≤ (2 ^ (f.S + 1) : ℕ) := by exact_mod_cast hmT
    have hexp : (2 : ℚ) ^ (eT - f.S) ≤ 2 ^ (eL - f.S - 1) := zpow_le_zpow_right₀ one_le_two (by omega)
    have hmul : mT * (2 : ℚ) ^ (eT - f.S) ≤ mT * 2 ^ (eL - f.S - 1) := mul_le_mul_of_nonneg_left hexp (Nat.cast_nonneg _)
    rw [hdouble]
    push_cast [pow_succ] at hbit hsig
    nlinarith
  · have hone : (mT : ℚ) + 1 ≤ mL := by exact_mod_cast hlt
    rw [hdouble]
    nlinarith

/-- The sum has bit S of the larger operand, when it has one, and spills into at most bit S + 1. -/
theorem larger_sum_bounds {eL eT : ℤ} {mL mT : ℕ} (hexp : eT ≤ eL) (hbit : f.emin < eL → 2 ^ f.S ≤ mL) (hmL : mL < 2 ^ (f.S + 1))
    (hmT : mT < 2 ^ (f.S + 1)) :
    (f.emin < eL → (2 : ℚ) ^ eL ≤ mL * 2 ^ (eL - f.S) + mT * 2 ^ (eT - f.S)) ∧
      mL * (2 : ℚ) ^ (eL - f.S) + mT * 2 ^ (eT - f.S) < 2 ^ (eL + 2) := by
  have hunit : ∀ k : ℕ, (2 : ℚ) ^ (f.S + k) * 2 ^ (eL - f.S) = 2 ^ (eL + k) := fun k => by
    rw [← zpow_natCast, ← zpow_add₀ two_ne_zero]
    congr 1
    push_cast
    ring
  constructor
  · intro h
    have hle : (2 : ℚ) ^ f.S ≤ mL := by exact_mod_cast hbit h
    refine le_add_of_le_of_nonneg ?_ (by positivity)
    calc (2 : ℚ) ^ eL = 2 ^ f.S * 2 ^ (eL - f.S) := by simpa using (hunit 0).symm
      _ ≤ mL * 2 ^ (eL - f.S) := by gcongr
  · have hxlt : (mL : ℚ) < 2 ^ (f.S + 1) := by exact_mod_cast hmL
    have hylt : (mT : ℚ) < 2 ^ (f.S + 1) := by exact_mod_cast hmT
    have hle : (2 : ℚ) ^ (eT - f.S) ≤ 2 ^ (eL - f.S) := zpow_le_zpow_right₀ one_le_two (by omega)
    calc mL * (2 : ℚ) ^ (eL - f.S) + mT * 2 ^ (eT - f.S)
        ≤ mL * 2 ^ (eL - f.S) + mT * 2 ^ (eL - f.S) := by gcongr
      _ < 2 ^ (f.S + 1) * 2 ^ (eL - f.S) + 2 ^ (f.S + 1) * 2 ^ (eL - f.S) := by gcongr
      _ = 2 ^ (f.S + 2) * 2 ^ (eL - f.S) := by ring
      _ = 2 ^ (eL + 2) := hunit 2

theorem signOf_signed {s : ℕ} (hs : s < 2) {v : ℚ} (hv : 0 < v) : Exact.signOf ((-1) ^ s * v) = s := by
  unfold Exact.signOf
  interval_cases s
  · simp [hv.le]
  · simp [hv]

theorem abs_signed (s : ℕ) {v : ℚ} (hv : 0 < v) : |(-1) ^ s * v| = v := by
  rw [abs_mul, abs_neg_one_pow, one_mul, abs_of_pos hv]

/-- With the larger operand first, the stages round the sum of the values; an exact cancellation is +0. -/
theorem addAligned_exact (hx : Exact.IsNormal f x.toNat ∨ Exact.IsSubnormal f x.toNat)
    (hy : Exact.IsNormal f y.toNat ∨ Exact.IsSubnormal f y.toNat) (hlarger : largerFirst (decompose f x) (decompose f y) = true) :
    (addAligned f (decompose f x) (decompose f y)).toNat =
      if Exact.val f x.toNat + Exact.val f y.toNat = 0 then Exact.zero f 0
      else
        Exact.roundPack f (Exact.signOf (Exact.val f x.toNat + Exact.val f y.toNat))
          |Exact.val f x.toNat + Exact.val f y.toNat| := by
  obtain ⟨hxmin, -, hxbit⟩ := decompose_exp_bounds hx
  obtain ⟨hymin, -, -⟩ := decompose_exp_bounds hy
  have hxsig := decompose_sig_lt f x
  have hysig := decompose_sig_lt f y
  have hxpos := decompose_sig_pos hx
  rw [val_decompose f x hx, val_decompose f y hy, signedSig_cast, signedSig_cast, mul_assoc, mul_assoc]
  generalize decompose f x = dL at *
  generalize decompose f y = dT at *
  simp only [largerFirst, Bool.or_eq_true, Bool.and_eq_true, decide_eq_true_iff, beq_iff_eq] at hlarger
  have hexp : dT.exp ≤ dL.exp := by omega
  have hrep := represents_aligned f hexp dT.sig
  have ha : (0 : ℚ) < dL.sig * 2 ^ (dL.exp - f.S) := by positivity
  have hb : (0 : ℚ) ≤ dT.sig * 2 ^ (dT.exp - f.S) := by positivity
  rw [addAligned]
  dsimp only
  by_cases hsign : dL.sign = dT.sign
  · have hsum : (0 : ℚ) < dL.sig * 2 ^ (dL.exp - f.S) + dT.sig * 2 ^ (dT.exp - f.S) := add_pos_of_pos_of_nonneg ha hb
    obtain ⟨hlow, hhigh⟩ := larger_sum_bounds hexp hxbit hxsig hysig
    rw [if_pos hsign, ← hsign, ← mul_add, if_neg (mul_ne_zero (by positivity) hsum.ne'), signOf_signed (Bool.toNat_lt _) hsum,
      abs_signed _ hsum]
    exact addLike_exact _ (represents_sum hrep dL.sig) hsum hxmin hlow hhigh
  · have hneg : (-1 : ℚ) ^ dT.sign.toNat = -(-1) ^ dL.sign.toNat := by
      revert hsign
      cases dL.sign <;> cases dT.sign <;> simp
    rw [if_neg hsign, hneg, neg_mul, ← sub_eq_add_neg, ← mul_sub]
    by_cases hcancel : dL.exp = dT.exp ∧ dL.sig = dT.sig
    · rw [if_pos hcancel, hcancel.1, hcancel.2, sub_self, mul_zero, if_pos rfl, zeroF_exact, Bool.toNat_false]
    · have hgap := larger_gap (f := f) (eL := dL.exp) (eT := dT.exp) (mL := dL.sig) (mT := dT.sig) (by omega) hxbit hysig hymin
      have hdiff : (0 : ℚ) < dL.sig * 2 ^ (dL.exp - f.S) - dT.sig * 2 ^ (dT.exp - f.S) := lt_of_lt_of_le (by positivity) hgap
      rw [if_neg hcancel, if_neg (mul_ne_zero (by positivity) hdiff.ne'), signOf_signed (Bool.toNat_lt _) hdiff, abs_signed _ hdiff]
      exact addUnlike_exact _ hrep hb hxmin hxsig hgap

theorem addFilter_eq_none (h : addFilter f x y = none) :
    (Exact.IsNormal f x.toNat ∨ Exact.IsSubnormal f x.toNat) ∧ (Exact.IsNormal f y.toNat ∨ Exact.IsSubnormal f y.toNat) := by
  unfold addFilter at h
  split_ifs at h with hxNaN hyNaN hzeros hxZero hyZero hxInf hyInf
  exact ⟨isNormal_or_isSubnormal_of_tests hxNaN hxInf hxZero, isNormal_or_isSubnormal_of_tests hyNaN hyInf hyZero⟩

theorem largerFirst_of_not {dx dy : Decomposed} (h : ¬ largerFirst dx dy = true) : largerFirst dy dx = true := by
  simp only [largerFirst, Bool.or_eq_true, Bool.and_eq_true, decide_eq_true_iff, beq_iff_eq] at *
  omega

end

/-- Settles O53: past the special cases, which are the same, the stages round the exact sum (`addAligned_exact`), which does not
depend on the order of the operands. -/
theorem adderStagesAreExact : Obligations.AdderStagesAreExact := by
  unfold Obligations.AdderStagesAreExact
  intro f x y
  unfold addStaged addF
  cases hfilter : addFilter f x y with
  | some r => rfl
  | none =>
    obtain ⟨hx, hy⟩ := addFilter_eq_none hfilter
    have hsum := exactSum_mul_zpow (decompose f x) (decompose f y) f.S
    rw [← val_decompose f x hx, ← val_decompose f y hy] at hsum
    rw [← BitVec.toNat_inj, addFinite_exact f _ _ hsum]
    dsimp only
    split
    next hlarger => exact addAligned_exact hx hy hlarger
    next hnot =>
      rw [add_comm]
      exact addAligned_exact hy hx (largerFirst_of_not hnot)

end Sys2Proof.FpStages
end
